-- ==== Sys2Proof/Word.lean ====
section
/-!
DEFINITION. The word types of the core: a byte (`W` = 8 of rule R6; every register, buffer cell, ROM cell and field
element, R7, R33), a 32-bit command word (R53) and a 16-bit response word (R68). Their arithmetic is `BitVec`'s own.
-/
namespace Sys2Proof

/-- A field element, register, buffer cell or ROM cell: an unsigned byte (R7). -/
abbrev Byte := BitVec 8

/-- A command word, bit 0 least significant (R53, R34). -/
abbrev Word := BitVec 32

/-- A response word (R68). -/
abbrev Rsp := BitVec 16

end Sys2Proof
end

