-- ==== Sys2Proof/Config.lean ====
section
/-!
DEFINITION. What one instance of the core fixes: the parameters of rule R6, the names of the writable address spaces
(R30), and the values the spec leaves open, as constants without a body.
-/
namespace Sys2Proof

/-- The writable address spaces of R30. EXP and LOG, which nothing writes (R14), are the constants of
Machine/Rom.lean. -/
inductive Space where
  | coef
  | px
  | py
  | mat (bank : BitVec 2)
  deriving DecidableEq, Repr

/-- How many cells a space has (R30; `BUFLEN`, `MROWS`, `MCOLS` of R6). -/
def Space.size : Space → Nat
  | .coef => 256
  | .px => 256
  | .py => 256
  | .mat _ => 65536

/-- The reduction polynomial x^8+x^4+x^3+x^2+1 as a 9-bit number (`POLY`, R6). -/
def Config.poly : Nat := 0x11D

/-- The modulus of exponent arithmetic and the period of EXP (`ORD`, R6). -/
def Config.ord : Nat := 255

/-- The byte in ROM cell LOG[0]: the open parameter `LOG0` (R13, D9). It has no body: nothing can be proved about
its value. -/
opaque Config.log0 : Byte

/-- The byte an unspecified cell `a` of space `sp` reads as in the command that makes the `draw`-th reading of the
buffers (R29, R8 `unspecified`; log entries 5 and 6). It has no body, so nothing can be proved about a value of it. -/
opaque Config.freeByte (draw : Nat) (sp : Space) (a : Nat) : Byte

end Sys2Proof
end

