-- ==== Sys2Proof/Syntax.lean ====
section
/-!
DEFINITION. The commands of the opcode map (30_encoding.md section 3): one constructor per row, its fields in the
order of the map's operands column. A register specifier is 4 bits and a bank 2 bits by type; every other operand is
the unsigned byte of its field (R66).
-/
namespace Sys2Proof

/-- A register specifier, 0..15 (R15, R66). -/
abbrev Reg := BitVec 4

/-- A matrix bank number, 0..3 (R20, R66). -/
abbrev Bank := BitVec 2

/-- The 31 commands. -/
inductive Instr where
  /-- R80 -/
  | nop
  /-- R81 -/
  | csrr (csr : Byte)
  /-- R82 -/
  | clrf
  /-- R83 -/
  | rdr (ra : Reg)
  /-- R84 -/
  | ldi (rd : Reg) (imm8 : Byte)
  /-- R85 -/
  | mov (rd ra : Reg)
  /-- R110 -/
  | fadd (rd ra rb : Reg)
  /-- R111 -/
  | fsub (rd ra rb : Reg)
  /-- R112 -/
  | fmul (rd ra rb : Reg)
  /-- R113 -/
  | fdiv (rd ra rb : Reg)
  /-- R114 -/
  | fexp (rd ra : Reg)
  /-- R115 -/
  | flog (rd ra : Reg)
  /-- R91 -/
  | ldc (rd : Reg) (idx8 : Byte)
  /-- R92 -/
  | stc (ra : Reg) (idx8 : Byte)
  /-- R93 -/
  | stci (idx8 imm8 : Byte)
  /-- R94 -/
  | ldx (rd : Reg) (idx8 : Byte)
  /-- R95 -/
  | stx (ra : Reg) (idx8 : Byte)
  /-- R96 -/
  | stxi (idx8 imm8 : Byte)
  /-- R97 -/
  | ldy (rd : Reg) (idx8 : Byte)
  /-- R98 -/
  | sty (ra : Reg) (idx8 : Byte)
  /-- R99 -/
  | styi (idx8 imm8 : Byte)
  /-- R100 -/
  | ldm (rd : Reg) (bank : Bank) (row8 col8 : Byte)
  /-- R101 -/
  | stm (ra : Reg) (bank : Bank) (row8 col8 : Byte)
  /-- R123 -/
  | peval (rd ra : Reg) (d : Byte)
  /-- R125 -/
  | linterp (rd ra : Reg) (n : Byte)
  /-- R132 -/
  | mbuild (n : Byte)
  /-- R134 -/
  | mfwd (n : Byte)
  /-- R136 -/
  | mback (n : Byte)
  /-- R138 -/
  | mnorm (n : Byte)
  /-- R139 -/
  | msolve (n : Byte)
  /-- R140 -/
  | mext (n : Byte)
  deriving DecidableEq, Repr

end Sys2Proof
end

