-- ==== Sys2Proof/WellFormed.lean ====
section
/-!
DEFINITION. Which terms of `Instr` are commands. Register specifiers and banks are in range by type; the one check
left is the CSR number (R24, R56, R67 (c)). A point count `n = 0` is a legal encoding (R61, R65) and so well-formed.
-/
namespace Sys2Proof

/-- A CSRR names CSR 0, 1 or 2 (R56); every other term is well-formed. -/
def Instr.wf : Instr → Bool
  | .csrr csr => decide (csr.toNat ≤ 2)
  | .nop | .clrf | .rdr _ | .ldi _ _ | .mov _ _ => true
  | .fadd _ _ _ | .fsub _ _ _ | .fmul _ _ _ | .fdiv _ _ _ | .fexp _ _ | .flog _ _ => true
  | .ldc _ _ | .stc _ _ | .stci _ _ | .ldx _ _ | .stx _ _ | .stxi _ _ => true
  | .ldy _ _ | .sty _ _ | .styi _ _ | .ldm _ _ _ _ | .stm _ _ _ _ => true
  | .peval _ _ _ | .linterp _ _ _ => true
  | .mbuild _ | .mfwd _ | .mback _ | .mnorm _ | .msolve _ | .mext _ => true

end Sys2Proof
end

