-- ==== Sys2Proof/Decode.lean ====
section
/-!
DEFINITION. The command word: its fields, the eleven formats (R55 to R65), decoding (R67, R71), encoding, the opcode
map's match and mask columns (30_encoding.md section 3), and the assembler spelling (R69).

Decoding is total on all 2^32 words: each is one command or illegal, with the clause of R67 that makes it so.
-/
namespace Sys2Proof

/-! ## Fields (R54) -/

/-- `op`, bits 31:24. -/
def opField (w : Word) : Byte := w.extractLsb' 24 8
/-- `A`, bits 23:16. -/
def aField (w : Word) : Byte := w.extractLsb' 16 8
/-- `B`, bits 15:8. -/
def bField (w : Word) : Byte := w.extractLsb' 8 8
/-- `C`, bits 7:0. -/
def cField (w : Word) : Byte := w.extractLsb' 0 8
/-- The low four bits of `A`: the register specifier of `A`, bits 19:16. -/
def aReg (w : Word) : Reg := w.extractLsb' 16 4
/-- The low four bits of `B`, bits 11:8. -/
def bReg (w : Word) : Reg := w.extractLsb' 8 4
/-- The low four bits of `C`, bits 3:0. -/
def cReg (w : Word) : Reg := w.extractLsb' 0 4
/-- The bank of format M, bits 23:22 (R64). -/
def bankField (w : Word) : Bank := w.extractLsb' 22 2

/-! ## Decoding -/

/-- Why a word is illegal: clauses (a), (b) and (c) of R67. -/
inductive Illegal where
  /-- (a): `op` is no opcode of the map. -/
  | reservedOpcode
  /-- (b): a bit the format says must be zero is one. -/
  | mustBeZero
  /-- (c): a CSRR of CSR 3 or more. -/
  | noSuchCsr
  deriving DecidableEq, Repr

/-- What a word decodes to. -/
inductive Decoded where
  | ok (i : Instr)
  | illegal (why : Illegal)
  deriving DecidableEq, Repr

/-- The command a decoding gives, if it gives one. -/
def Decoded.toOption : Decoded → Option Instr
  | .ok i => some i
  | .illegal _ => none

/-- A word whose must-be-zero bits are those of `zeros` is the command `i`, else illegal by clause (b). -/
def ifZero (zeros w : Word) (i : Instr) : Decoded :=
  if w &&& zeros = 0#32 then .ok i else .illegal .mustBeZero

/-- Format N (R55). -/
def formatN (i : Instr) (w : Word) : Decoded := ifZero 0x00FFFFFF#32 w i

/-- Format S (R56), the must-be-zero bits before the CSR number (R71). -/
def formatS (mk : Byte → Instr) (w : Word) : Decoded :=
  if w &&& 0x00FFFF00#32 = 0#32 then
    if (cField w).toNat ≤ 2 then .ok (mk (cField w)) else .illegal .noSuchCsr
  else .illegal .mustBeZero

/-- Format R1 (R57). -/
def formatR1 (mk : Reg → Instr) (w : Word) : Decoded := ifZero 0x00FFF0FF#32 w (mk (bReg w))

/-- Format RI (R58). -/
def formatRI (mk : Reg → Byte → Instr) (w : Word) : Decoded := ifZero 0x00F0FF00#32 w (mk (aReg w) (cField w))

/-- Format R2 (R59). -/
def formatR2 (mk : Reg → Reg → Instr) (w : Word) : Decoded := ifZero 0x00F0F0FF#32 w (mk (aReg w) (bReg w))

/-- Format R3 (R60). -/
def formatR3 (mk : Reg → Reg → Reg → Instr) (w : Word) : Decoded :=
  ifZero 0x00F0F0F0#32 w (mk (aReg w) (bReg w) (cReg w))

/-- Format RL (R61). -/
def formatRL (mk : Reg → Reg → Byte → Instr) (w : Word) : Decoded :=
  ifZero 0x00F0F000#32 w (mk (aReg w) (bReg w) (cField w))

/-- Format BX (R62). -/
def formatBX (mk : Reg → Byte → Instr) (w : Word) : Decoded := ifZero 0x00F0FF00#32 w (mk (aReg w) (cField w))

/-- Format BI (R63). -/
def formatBI (mk : Byte → Byte → Instr) (w : Word) : Decoded := ifZero 0x00FF0000#32 w (mk (bField w) (cField w))

/-- Format M (R64). -/
def formatM (mk : Reg → Bank → Byte → Byte → Instr) (w : Word) : Decoded :=
  ifZero 0x00300000#32 w (mk (aReg w) (bankField w) (bField w) (cField w))

/-- Format L (R65). -/
def formatL (mk : Byte → Instr) (w : Word) : Decoded := ifZero 0x00FFFF00#32 w (mk (cField w))

/-- Decode of a word (R71): the opcode, then the format's must-be-zero bits, then the CSR number. -/
def decode (w : Word) : Decoded :=
  match opField w with
  | 0x00#8 => formatN .nop w
  | 0x01#8 => formatS .csrr w
  | 0x02#8 => formatN .clrf w
  | 0x03#8 => formatR1 .rdr w
  | 0x08#8 => formatRI .ldi w
  | 0x09#8 => formatR2 .mov w
  | 0x10#8 => formatR3 .fadd w
  | 0x11#8 => formatR3 .fsub w
  | 0x12#8 => formatR3 .fmul w
  | 0x13#8 => formatR3 .fdiv w
  | 0x14#8 => formatR2 .fexp w
  | 0x15#8 => formatR2 .flog w
  | 0x20#8 => formatBX .ldc w
  | 0x21#8 => formatBX .stc w
  | 0x22#8 => formatBI .stci w
  | 0x24#8 => formatBX .ldx w
  | 0x25#8 => formatBX .stx w
  | 0x26#8 => formatBI .stxi w
  | 0x28#8 => formatBX .ldy w
  | 0x29#8 => formatBX .sty w
  | 0x2A#8 => formatBI .styi w
  | 0x2C#8 => formatM .ldm w
  | 0x2D#8 => formatM .stm w
  | 0x30#8 => formatRL .peval w
  | 0x31#8 => formatRL .linterp w
  | 0x40#8 => formatL .mbuild w
  | 0x41#8 => formatL .mfwd w
  | 0x42#8 => formatL .mback w
  | 0x43#8 => formatL .mnorm w
  | 0x44#8 => formatL .msolve w
  | 0x45#8 => formatL .mext w
  | _ => .illegal .reservedOpcode

/-- The host's question: the command of the `nbits` low bits of `w`, numbered as the opcode table numbers them. A
command word has one length, 32 bits (R53), and crosses its port whole, so no byte order enters (R34). -/
def wordOf (nbits w : Nat) : Word := BitVec.ofNat 32 (w % 2 ^ nbits)

/-- The command the decoder reads from the table word `w`. -/
def decodeTableWord (nbits w : Nat) : Option Instr := (decode (wordOf nbits w)).toOption

/-! ## Encoding -/

/-- The `op` byte of a command (30_encoding.md section 3). -/
def Instr.opcode : Instr → Byte
  | .nop => 0x00
  | .csrr _ => 0x01
  | .clrf => 0x02
  | .rdr _ => 0x03
  | .ldi _ _ => 0x08
  | .mov _ _ => 0x09
  | .fadd _ _ _ => 0x10
  | .fsub _ _ _ => 0x11
  | .fmul _ _ _ => 0x12
  | .fdiv _ _ _ => 0x13
  | .fexp _ _ => 0x14
  | .flog _ _ => 0x15
  | .ldc _ _ => 0x20
  | .stc _ _ => 0x21
  | .stci _ _ => 0x22
  | .ldx _ _ => 0x24
  | .stx _ _ => 0x25
  | .stxi _ _ => 0x26
  | .ldy _ _ => 0x28
  | .sty _ _ => 0x29
  | .styi _ _ => 0x2A
  | .ldm _ _ _ _ => 0x2C
  | .stm _ _ _ _ => 0x2D
  | .peval _ _ _ => 0x30
  | .linterp _ _ _ => 0x31
  | .mbuild _ => 0x40
  | .mfwd _ => 0x41
  | .mback _ => 0x42
  | .mnorm _ => 0x43
  | .msolve _ => 0x44
  | .mext _ => 0x45

/-- `op`, `A`, `B`, `C` side by side (R54). -/
def mkWord (op a b c : Byte) : Word := op ++ a ++ b ++ c

/-- A register specifier in its byte: the high four bits are zero (R54). -/
def regByte (r : Reg) : Byte := 0#4 ++ r

/-- `A` of format M: `{bank, 00, reg}` (R64). -/
def bankByte (bank : Bank) (r : Reg) : Byte := bank ++ 0#2 ++ r

/-- The word of a command, by its format's layout. -/
def encode (i : Instr) : Word :=
  match i with
  | .nop => mkWord i.opcode 0 0 0
  | .csrr csr => mkWord i.opcode 0 0 csr
  | .clrf => mkWord i.opcode 0 0 0
  | .rdr ra => mkWord i.opcode 0 (regByte ra) 0
  | .ldi rd imm8 => mkWord i.opcode (regByte rd) 0 imm8
  | .mov rd ra => mkWord i.opcode (regByte rd) (regByte ra) 0
  | .fadd rd ra rb => mkWord i.opcode (regByte rd) (regByte ra) (regByte rb)
  | .fsub rd ra rb => mkWord i.opcode (regByte rd) (regByte ra) (regByte rb)
  | .fmul rd ra rb => mkWord i.opcode (regByte rd) (regByte ra) (regByte rb)
  | .fdiv rd ra rb => mkWord i.opcode (regByte rd) (regByte ra) (regByte rb)
  | .fexp rd ra => mkWord i.opcode (regByte rd) (regByte ra) 0
  | .flog rd ra => mkWord i.opcode (regByte rd) (regByte ra) 0
  | .ldc rd idx8 => mkWord i.opcode (regByte rd) 0 idx8
  | .stc ra idx8 => mkWord i.opcode (regByte ra) 0 idx8
  | .stci idx8 imm8 => mkWord i.opcode 0 idx8 imm8
  | .ldx rd idx8 => mkWord i.opcode (regByte rd) 0 idx8
  | .stx ra idx8 => mkWord i.opcode (regByte ra) 0 idx8
  | .stxi idx8 imm8 => mkWord i.opcode 0 idx8 imm8
  | .ldy rd idx8 => mkWord i.opcode (regByte rd) 0 idx8
  | .sty ra idx8 => mkWord i.opcode (regByte ra) 0 idx8
  | .styi idx8 imm8 => mkWord i.opcode 0 idx8 imm8
  | .ldm rd bank row8 col8 => mkWord i.opcode (bankByte bank rd) row8 col8
  | .stm ra bank row8 col8 => mkWord i.opcode (bankByte bank ra) row8 col8
  | .peval rd ra d => mkWord i.opcode (regByte rd) (regByte ra) d
  | .linterp rd ra n => mkWord i.opcode (regByte rd) (regByte ra) n
  | .mbuild n => mkWord i.opcode 0 0 n
  | .mfwd n => mkWord i.opcode 0 0 n
  | .mback n => mkWord i.opcode 0 0 n
  | .mnorm n => mkWord i.opcode 0 0 n
  | .msolve n => mkWord i.opcode 0 0 n
  | .mext n => mkWord i.opcode 0 0 n

/-! ## The opcode map as a table -/

/-- One row of the opcode map: a word `w` is the row's command when `w and mask = pattern` (and, for CSRR, `C <= 2`). -/
structure OpRow where
  mnemonic : String
  pattern : Word
  mask : Word
  deriving DecidableEq, Repr

/-- The rows of the opcode map (30_encoding.md section 3), in its order. -/
def opcodeRows : List OpRow :=
  [⟨"NOP", 0x00000000, 0xFFFFFFFF⟩,
   ⟨"CSRR", 0x01000000, 0xFFFFFF00⟩,
   ⟨"CLRF", 0x02000000, 0xFFFFFFFF⟩,
   ⟨"RDR", 0x03000000, 0xFFFFF0FF⟩,
   ⟨"LDI", 0x08000000, 0xFFF0FF00⟩,
   ⟨"MOV", 0x09000000, 0xFFF0F0FF⟩,
   ⟨"FADD", 0x10000000, 0xFFF0F0F0⟩,
   ⟨"FSUB", 0x11000000, 0xFFF0F0F0⟩] ++
  [⟨"FMUL", 0x12000000, 0xFFF0F0F0⟩,
   ⟨"FDIV", 0x13000000, 0xFFF0F0F0⟩,
   ⟨"FEXP", 0x14000000, 0xFFF0F0FF⟩,
   ⟨"FLOG", 0x15000000, 0xFFF0F0FF⟩,
   ⟨"LDC", 0x20000000, 0xFFF0FF00⟩,
   ⟨"STC", 0x21000000, 0xFFF0FF00⟩,
   ⟨"STCI", 0x22000000, 0xFFFF0000⟩,
   ⟨"LDX", 0x24000000, 0xFFF0FF00⟩] ++
  [⟨"STX", 0x25000000, 0xFFF0FF00⟩,
   ⟨"STXI", 0x26000000, 0xFFFF0000⟩,
   ⟨"LDY", 0x28000000, 0xFFF0FF00⟩,
   ⟨"STY", 0x29000000, 0xFFF0FF00⟩,
   ⟨"STYI", 0x2A000000, 0xFFFF0000⟩,
   ⟨"LDM", 0x2C000000, 0xFF300000⟩,
   ⟨"STM", 0x2D000000, 0xFF300000⟩,
   ⟨"PEVAL", 0x30000000, 0xFFF0F000⟩] ++
  [⟨"LINTERP", 0x31000000, 0xFFF0F000⟩,
   ⟨"MBUILD", 0x40000000, 0xFFFFFF00⟩,
   ⟨"MFWD", 0x41000000, 0xFFFFFF00⟩,
   ⟨"MBACK", 0x42000000, 0xFFFFFF00⟩,
   ⟨"MNORM", 0x43000000, 0xFFFFFF00⟩,
   ⟨"MSOLVE", 0x44000000, 0xFFFFFF00⟩,
   ⟨"MEXT", 0x45000000, 0xFFFFFF00⟩]

/-- The mnemonic of a command (30_encoding.md section 3). -/
def Instr.mnemonic : Instr → String
  | .nop => "NOP"
  | .csrr _ => "CSRR"
  | .clrf => "CLRF"
  | .rdr _ => "RDR"
  | .ldi _ _ => "LDI"
  | .mov _ _ => "MOV"
  | .fadd _ _ _ => "FADD"
  | .fsub _ _ _ => "FSUB"
  | .fmul _ _ _ => "FMUL"
  | .fdiv _ _ _ => "FDIV"
  | .fexp _ _ => "FEXP"
  | .flog _ _ => "FLOG"
  | .ldc _ _ => "LDC"
  | .stc _ _ => "STC"
  | .stci _ _ => "STCI"
  | .ldx _ _ => "LDX"
  | .stx _ _ => "STX"
  | .stxi _ _ => "STXI"
  | .ldy _ _ => "LDY"
  | .sty _ _ => "STY"
  | .styi _ _ => "STYI"
  | .ldm _ _ _ _ => "LDM"
  | .stm _ _ _ _ => "STM"
  | .peval _ _ _ => "PEVAL"
  | .linterp _ _ _ => "LINTERP"
  | .mbuild _ => "MBUILD"
  | .mfwd _ => "MFWD"
  | .mback _ => "MBACK"
  | .mnorm _ => "MNORM"
  | .msolve _ => "MSOLVE"
  | .mext _ => "MEXT"

/-! ## Assembler spelling (R69, R70) -/

/-- A register as `r0` .. `r15`. -/
def asmReg (r : Reg) : String := "r" ++ toString r.toNat

/-- Any other operand as an unsigned number, in decimal (R69 allows decimal or hexadecimal). -/
def asmNum {w : Nat} (v : BitVec w) : String := toString v.toNat

/-- A command in assembler syntax: the mnemonic, then its operands in the map's order, separated by commas (R69). -/
def Instr.asm (i : Instr) : String :=
  match i with
  | .nop => i.mnemonic
  | .csrr csr => i.mnemonic ++ " " ++ asmNum csr
  | .clrf => i.mnemonic
  | .rdr ra => i.mnemonic ++ " " ++ asmReg ra
  | .ldi rd imm8 => i.mnemonic ++ " " ++ asmReg rd ++ ", " ++ asmNum imm8
  | .mov rd ra => i.mnemonic ++ " " ++ asmReg rd ++ ", " ++ asmReg ra
  | .fadd rd ra rb => i.mnemonic ++ " " ++ asmReg rd ++ ", " ++ asmReg ra ++ ", " ++ asmReg rb
  | .fsub rd ra rb => i.mnemonic ++ " " ++ asmReg rd ++ ", " ++ asmReg ra ++ ", " ++ asmReg rb
  | .fmul rd ra rb => i.mnemonic ++ " " ++ asmReg rd ++ ", " ++ asmReg ra ++ ", " ++ asmReg rb
  | .fdiv rd ra rb => i.mnemonic ++ " " ++ asmReg rd ++ ", " ++ asmReg ra ++ ", " ++ asmReg rb
  | .fexp rd ra => i.mnemonic ++ " " ++ asmReg rd ++ ", " ++ asmReg ra
  | .flog rd ra => i.mnemonic ++ " " ++ asmReg rd ++ ", " ++ asmReg ra
  | .ldc rd idx8 => i.mnemonic ++ " " ++ asmReg rd ++ ", " ++ asmNum idx8
  | .stc ra idx8 => i.mnemonic ++ " " ++ asmReg ra ++ ", " ++ asmNum idx8
  | .stci idx8 imm8 => i.mnemonic ++ " " ++ asmNum idx8 ++ ", " ++ asmNum imm8
  | .ldx rd idx8 => i.mnemonic ++ " " ++ asmReg rd ++ ", " ++ asmNum idx8
  | .stx ra idx8 => i.mnemonic ++ " " ++ asmReg ra ++ ", " ++ asmNum idx8
  | .stxi idx8 imm8 => i.mnemonic ++ " " ++ asmNum idx8 ++ ", " ++ asmNum imm8
  | .ldy rd idx8 => i.mnemonic ++ " " ++ asmReg rd ++ ", " ++ asmNum idx8
  | .sty ra idx8 => i.mnemonic ++ " " ++ asmReg ra ++ ", " ++ asmNum idx8
  | .styi idx8 imm8 => i.mnemonic ++ " " ++ asmNum idx8 ++ ", " ++ asmNum imm8
  | .ldm rd bank row8 col8 => i.mnemonic ++ " " ++ asmReg rd ++ ", " ++ asmNum bank ++ ", " ++ asmNum row8 ++ ", " ++ asmNum col8
  | .stm ra bank row8 col8 => i.mnemonic ++ " " ++ asmReg ra ++ ", " ++ asmNum bank ++ ", " ++ asmNum row8 ++ ", " ++ asmNum col8
  | .peval rd ra d => i.mnemonic ++ " " ++ asmReg rd ++ ", " ++ asmReg ra ++ ", " ++ asmNum d
  | .linterp rd ra n => i.mnemonic ++ " " ++ asmReg rd ++ ", " ++ asmReg ra ++ ", " ++ asmNum n
  | .mbuild n => i.mnemonic ++ " " ++ asmNum n
  | .mfwd n => i.mnemonic ++ " " ++ asmNum n
  | .mback n => i.mnemonic ++ " " ++ asmNum n
  | .mnorm n => i.mnemonic ++ " " ++ asmNum n
  | .msolve n => i.mnemonic ++ " " ++ asmNum n
  | .mext n => i.mnemonic ++ " " ++ asmNum n

end Sys2Proof
end

