-- ==== Sys2Proof/Machine/State.lean ====
section
/-!
DEFINITION. The state of the core (10_state.md R10), the state of its ports (R50), what the host drives at the
clock edges to come (R17), and the state after reset (R27).
-/
namespace Sys2Proof.Machine

/-- The contents of one address space: (cell index, byte), indices strictly rising. A cell that is not listed is
`unspecified` (R29). A MAT cell of row `i`, column `c` has index `256 * i + c`. -/
abbrev Memory := List Host.Cell

/-- The four failure kinds (R160). They are events of the machine, not stops of the model: raising one is a next
state (R166). -/
inductive FaultCode where
  /-- Code 1: `gf_div` by zero (R161). -/
  | divisionByZero
  /-- Code 2: forward elimination finds no pivot (R162). -/
  | singularMatrix
  /-- Code 3: a point count of zero (R163). -/
  | invalidArgument
  /-- Code 4: an ill-formed word (R164). -/
  | illegalCommand
  deriving DecidableEq, Repr

/-- What the host drives on the core's input ports at one clock edge (R50, R51, R150). -/
inductive HostInput where
  /-- An edge at which `rst = 0`: `cmd` is the word presented, `none` when `cmd_valid = 0`, and `rspReady` is
  `rsp_ready`. -/
  | edge (cmd : Option Word) (rspReady : Bool)
  /-- An edge at which `rst = 1` (R180). -/
  | reset
  deriving DecidableEq, Repr

/-- The state of the core. EXP and LOG are constants, as R10 allows (Machine/Rom.lean). -/
structure State where
  /-- `r0` .. `r15` (R15). -/
  regs : Vector Byte 16
  /-- `FSTAT.F`, the fault latch (R21). -/
  f : Bool
  /-- `FCODE[3:0]` (R22). -/
  fcode : BitVec 4
  /-- `FOP` (R23). -/
  fop : Byte
  /-- `COEF` (R18). -/
  coef : Memory
  /-- `PX` (R19). -/
  px : Memory
  /-- `PY` (R19). -/
  py : Memory
  /-- `MAT[0]` .. `MAT[3]` (R20). -/
  mats : Vector Memory 4
  /-- The response on the `rsp` port: `some` while `rsp_valid = 1` (R50, R51). -/
  rsp : Option Rsp
  /-- The MODEL's own field: what the host drives at the clock edges to come, oldest first (R17; log entry 2). -/
  inputs : List HostInput
  /-- The MODEL's own field: how many readings of the buffers have been made. It numbers the free bytes that
  unspecified cells read as (R29; log entry 5). -/
  freeCount : Nat
  deriving DecidableEq, Repr

/-- The reasons the model could stop with a fault: NONE. Every failure the spec describes is a next state of the core
(R160, R166), and no behaviour of this hardware is stuck (93_implementation_defined.md; log entry 15). -/
inductive Fault where
  deriving DecidableEq, Repr

/-- The reasons the model could refuse an instruction. -/
inductive Refusal where
  /-- Raised by `exec` for an instruction that has no meaning yet. Safe: nothing is said of it. No arm raises it. -/
  | notModelled (mnemonic : String)
  deriving DecidableEq, Repr

/-- The outcome of one step. -/
abbrev Result := Host.Outcome State Fault Refusal

/-- The state after reset (R27, R181): registers and fault registers zero, every buffer cell unspecified, no response
pending. The two model fields start empty and at zero (log entries 2 and 5). -/
def State.reset : State where
  regs := Vector.replicate 16 0
  f := false
  fcode := 0
  fop := 0
  coef := []
  px := []
  py := []
  mats := Vector.replicate 4 []
  rsp := none
  inputs := []
  freeCount := 0

end Sys2Proof.Machine
end

