-- ==== Sys2Proof/Machine/Flags.lean ====
section
/-!
DEFINITION. The core's only flag and what goes with it: the fault registers FSTAT, FCODE and FOP (R21 to R23), their
latching and clearing, and the response word that carries FCODE (R68). There are no arithmetic flags (R25).
-/
namespace Sys2Proof.Machine

/-- The numbers of the failure kinds (R160). -/
def FaultCode.code : FaultCode → BitVec 4
  | .divisionByZero => 1
  | .singularMatrix => 2
  | .invalidArgument => 3
  | .illegalCommand => 4

/-- FSTAT as CSRR reads it: `F` in bit 0, bits 7:1 zero (R21). -/
def State.fstat (s : State) : Byte := 0#7 ++ BitVec.ofBool s.f

/-- FCODE as CSRR reads it: bits 7:4 zero (R22). -/
def State.fcodeByte (s : State) : Byte := 0#4 ++ s.fcode

/-- The CSR of number 0, 1 or 2 (R21 to R23); there is no other (R24). -/
def State.csr? (s : State) (csr : Byte) : Option Byte :=
  if csr = 0#8 then some s.fstat
  else if csr = 1#8 then some s.fcodeByte
  else if csr = 2#8 then some s.fop
  else none

/-- The fault latch: F, FCODE and FOP of a fault `k` raised by a word with opcode byte `op` (R166). -/
def State.latch (s : State) (k : FaultCode) (op : Byte) : State :=
  { s with f := true, fcode := k.code, fop := op }

/-- Unlocking: F, FCODE and FOP become zero (R82, R169). -/
def State.unlatch (s : State) : State :=
  { s with f := false, fcode := 0, fop := 0 }

/-- The response word: `ERR`, three zero bits, `FCODE`, `DATA` (R68). -/
def response (err : Bool) (fcode : BitVec 4) (data : Byte) : Rsp :=
  BitVec.ofBool err ++ 0#3 ++ fcode ++ data

/-- `ERR`, bit 15 of a response (R68). -/
def rspErr (r : Rsp) : Bool := r.getLsbD 15
/-- Bits 14:12 of a response (R68). -/
def rspReserved (r : Rsp) : BitVec 3 := r.extractLsb' 12 3
/-- `FCODE`, bits 11:8 of a response (R68). -/
def rspFcode (r : Rsp) : BitVec 4 := r.extractLsb' 8 4
/-- `DATA`, bits 7:0 of a response (R68). -/
def rspData (r : Rsp) : Byte := r.extractLsb' 0 8

/-- The `fault` pin: equal to `FSTAT.F` (R50, R172). -/
def State.faultPin (s : State) : Bool := s.f
/-- `rsp_valid`: a response is on the port (R50, R51). -/
def State.rspValid (s : State) : Bool := s.rsp.isSome
/-- `cmd_ready`: no response waits to be delivered (R52). R181 gives 1 after reset only once `rst` is low; that it reads 1
also while `rst` is still held is a DESIGN CHOICE (log entry 20). -/
def State.cmdReady (s : State) : Bool := s.rsp.isNone

end Sys2Proof.Machine
end

