-- ==== Sys2Proof/Machine/Operands.lean ====
section
/-!
DEFINITION. Every operand form: scalar registers (R15, R16), buffer cells named by an immediate index (R90), matrix
cells and matrix blocks (R20), and what a command reads from a cell that is unspecified (R29).
-/
namespace Sys2Proof.Machine

/-! ## Scalar registers -/

/-- Read `r[i]` (R8). -/
def State.reg (s : State) (i : Reg) : Byte := s.regs[i.toNat]'i.isLt

/-- `r[i] <- v` (R8). -/
def State.setReg (s : State) (i : Reg) (v : Byte) : State :=
  { s with regs := s.regs.set i.toNat v i.isLt }

/-! ## One address space -/

/-- The byte at an index, `none` for an unspecified cell: the one definition of what an unlisted cell reads as. -/
def Memory.read? : Memory → Nat → Option Byte
  | [], _ => none
  | (k, v) :: m, a => if k = a then some v else Memory.read? m a

/-- Store a byte, keeping the indices strictly rising. -/
def Memory.write : Memory → Nat → Byte → Memory
  | [], a, v => [(a, v)]
  | (k, w) :: m, a, v =>
    if a < k then (a, v) :: (k, w) :: m
    else if k = a then (a, v) :: m
    else (k, w) :: Memory.write m a v

/-- Store a list of bytes, the last of the list first. -/
def Memory.writeAll (m : Memory) (cells : List Host.Cell) : Memory :=
  cells.foldr (fun c acc => Memory.write acc c.1 c.2) m

/-- Make every cell that `p` holds of unspecified. -/
def Memory.forget (m : Memory) (p : Nat → Bool) : Memory := m.filter fun c => !p c.1

/-- The canonical form of a space of `size` cells: indices strictly rising and inside the space. -/
def Memory.wf (size : Nat) : Memory → Bool
  | [] => true
  | (k, _) :: m => decide (k < size) && m.all (fun c => decide (k < c.1)) && Memory.wf size m

/-! ## The spaces of the state -/

/-- The contents of a space (R30). -/
def State.mem (s : State) : Space → Memory
  | .coef => s.coef
  | .px => s.px
  | .py => s.py
  | .mat b => s.mats[b.toNat]'b.isLt

/-- Replace the contents of a space; no other changes (R30: the spaces do not overlap). -/
def State.setMem (s : State) (sp : Space) (m : Memory) : State :=
  match sp with
  | .coef => { s with coef := m }
  | .px => { s with px := m }
  | .py => { s with py := m }
  | .mat b => { s with mats := s.mats.set b.toNat m b.isLt }

/-- The cell at index `a` of a space, `none` when unspecified. -/
def State.cell? (s : State) (sp : Space) (a : Nat) : Option Byte := Memory.read? (s.mem sp) a

/-- `MemRead(space, idx, 1)` (R8): the byte a command reads at index `a`. An unspecified cell reads as a free byte of
this reading (R29; log entries 5 and 6). -/
def State.view (s : State) (sp : Space) (a : Nat) : Byte :=
  (s.cell? sp a).getD (Config.freeByte s.freeCount sp a)

/-- A command has read buffer cells: the next reading meets fresh free bytes (R29: two loads of an unspecified cell
need not agree). -/
def State.drew (s : State) : State := { s with freeCount := s.freeCount + 1 }

/-- `MemWrite(space, idx, 1, v)` (R8). -/
def State.store (s : State) (sp : Space) (a : Nat) (v : Byte) : State :=
  s.setMem sp (Memory.write (s.mem sp) a v)

/-! ## Matrix cells and blocks -/

/-- The index of the cell of row `i` and column `c` of a bank. -/
def matIndex (i c : Nat) : Nat := 256 * i + c

/-- A matrix held by an engine: its rows, each a list of entries. -/
abbrev Mat := List (List Byte)

/-- `W[i][c]`. The default is never met: engines index inside their matrix. -/
def entry (W : Mat) (i c : Nat) : Byte := (W.getD i []).getD c 0

/-- Whether an index lies in rows 0..n-1 and columns 0..n (R20). -/
def inBlock (n a : Nat) : Bool := decide (a / 256 < n) && decide (a % 256 ≤ n)

/-- The block `[0..n-1][0..n]` of a bank as a command reads it. -/
def State.matView (s : State) (b : Bank) (n : Nat) : Mat :=
  (List.range n).map fun i => (List.range (n + 1)).map fun c => s.view (.mat b) (matIndex i c)

/-- The cells of a block with the entries of `W`, indices rising. -/
def blockCells (n : Nat) (W : Mat) : List Host.Cell :=
  (List.range n).flatMap fun i => (List.range (n + 1)).map fun c => (matIndex i c, entry W i c)

/-- `MAT[b][0..n-1][0..n] <- W`; the other cells of the bank keep their content (R142). -/
def State.writeBlock (s : State) (b : Bank) (n : Nat) (W : Mat) : State :=
  s.setMem (.mat b) (Memory.writeAll (Memory.forget (s.mem (.mat b)) (inBlock n)) (blockCells n W))

/-- The cells `[0..n-1][0..n]` of a bank become unspecified (R141). -/
def State.forgetBlock (s : State) (b : Bank) (n : Nat) : State :=
  s.setMem (.mat b) (Memory.forget (s.mem (.mat b)) (inBlock n))

end Sys2Proof.Machine
end

