-- ==== Sys2Proof/Machine/Ops.lean ====
section
/-!
DEFINITION. The named operations every meaning is built from: answering, raising a fault, being refused, the lock
test, the point-count test, writing a result back, and what reset does.
-/
namespace Sys2Proof.Machine

/-- Put a response on the port (R52: after the command's effects are complete). -/
def State.answer (s : State) (r : Rsp) : State := { s with rsp := some r }

/-- The response on the port is delivered to the host: `rsp_valid` falls (R51). -/
def State.deliver (s : State) : State := { s with rsp := none }

/-- `respond(data)` (R8): the command ends without fault. `FCODE` is its value after the command (R68). -/
def respond (data : Byte) (s : State) : Result := .next (s.answer (response false s.fcode data))

/-- Fault entry (R166): latch the fault, answer `ERR = 1`. Nothing else is saved and control goes nowhere; what the
command leaves of its destination is the caller's (R167). -/
def raise (op : Byte) (k : FaultCode) (s : State) : Result :=
  .next ((s.latch k op).answer (response true k.code 0))

/-- Return from the locked state (R82, R169): clear the fault registers, restore nothing. -/
def clearFault (s : State) : Result := respond 0 s.unlatch

/-- A word refused by the locked core (R168): no state changes but the response. -/
def refuse (s : State) : Result := .next (s.answer (response true s.fcode 0))

/-- Step 1 of R165 for a command other than CSRR and CLRF: the locked core refuses it. -/
def ifUnlocked (s : State) (body : Result) : Result := if s.f then refuse s else body

/-- Step 3 of R165: a point count of zero raises InvalidArgument before anything is read. -/
def ifCount (op n : Byte) (s : State) (body : Result) : Result :=
  if n = 0#8 then raise op .invalidArgument s else body

/-- `r[rd] <- v; respond(v)`. -/
def writeBack (rd : Reg) (v : Byte) (s : State) : Result := respond v (s.setReg rd v)

/-- `v <- ...; r[rd] <- v; respond(v)` where computing `v` may raise: then `r[rd]` is not written (R167). -/
def writeBackOrRaise (op : Byte) (rd : Reg) (v : Except FaultCode Byte) (s : State) : Result :=
  match v with
  | .ok v => writeBack rd v s
  | .error k => raise op k s

/-- The meaning of an illegal word with opcode byte `op`: IllegalCommand and nothing else (R67, R164); refused on a
locked core (R168). -/
def execIllegal (op : Byte) (s : State) : Result := ifUnlocked s (raise op .illegalCommand s)

/-- Reset (R180 to R184): the reset state, with the host's remaining inputs, whatever the state was. Free bytes drawn
after it are fresh (log entry 11). -/
def State.resetBy (s : State) (rest : List HostInput) : State :=
  { State.reset with inputs := rest, freeCount := s.freeCount + 1 }

end Sys2Proof.Machine
end

