-- ==== Sys2Proof/Machine/Buffer.lean ====
section
/-!
DEFINITION. The buffer access commands (41_buffer_access.md): one absolute immediate address each (R90), one byte each,
no fault of their own.
-/
namespace Sys2Proof.Machine

/-- `v <- MemRead(space, a, 1); r[rd] <- v; respond(v)` (R90). -/
def loadCell (rd : Reg) (sp : Space) (a : Nat) (s : State) : Result :=
  ifUnlocked s (writeBack rd (s.view sp a) s.drew)

/-- `MemWrite(space, a, 1, v); respond(0x00)` (R90). -/
def storeCell (sp : Space) (a : Nat) (v : Byte) (s : State) : Result :=
  ifUnlocked s (respond 0 (s.store sp a v))

/-- LDC (R91). -/
def execLdc (rd : Reg) (idx8 : Byte) (s : State) : Result := loadCell rd .coef idx8.toNat s

/-- STC (R92). -/
def execStc (ra : Reg) (idx8 : Byte) (s : State) : Result := storeCell .coef idx8.toNat (s.reg ra) s

/-- STCI (R93). -/
def execStci (idx8 imm8 : Byte) (s : State) : Result := storeCell .coef idx8.toNat imm8 s

/-- LDX (R94). -/
def execLdx (rd : Reg) (idx8 : Byte) (s : State) : Result := loadCell rd .px idx8.toNat s

/-- STX (R95). -/
def execStx (ra : Reg) (idx8 : Byte) (s : State) : Result := storeCell .px idx8.toNat (s.reg ra) s

/-- STXI (R96). -/
def execStxi (idx8 imm8 : Byte) (s : State) : Result := storeCell .px idx8.toNat imm8 s

/-- LDY (R97). -/
def execLdy (rd : Reg) (idx8 : Byte) (s : State) : Result := loadCell rd .py idx8.toNat s

/-- STY (R98). -/
def execSty (ra : Reg) (idx8 : Byte) (s : State) : Result := storeCell .py idx8.toNat (s.reg ra) s

/-- STYI (R99). -/
def execStyi (idx8 imm8 : Byte) (s : State) : Result := storeCell .py idx8.toNat imm8 s

/-- LDM (R100): any bank, any row and column. -/
def execLdm (rd : Reg) (bank : Bank) (row8 col8 : Byte) (s : State) : Result :=
  loadCell rd (.mat bank) (matIndex row8.toNat col8.toNat) s

/-- STM (R101): any bank, any row and column. -/
def execStm (ra : Reg) (bank : Bank) (row8 col8 : Byte) (s : State) : Result :=
  storeCell (.mat bank) (matIndex row8.toNat col8.toNat) (s.reg ra) s

end Sys2Proof.Machine
end

