-- ==== Sys2Proof/Machine/Rom.lean ====
section
/-!
DEFINITION. The table ROM (R10 to R14): EXP and LOG by the construction of R11 and R12. It is constant, so it is no
field of the state (R10, R14).
-/
namespace Sys2Proof.Machine

/-- One step of the construction of EXP: double the running value; when it reaches 256, XOR it with the polynomial and
mask to 8 bits (R11). -/
def doubleStep (v : Nat) : Nat :=
  if 256 ≤ v * 2 then ((v * 2) ^^^ Config.poly) &&& 0xFF else v * 2

/-- The running value after `i` steps, which the construction stores in EXP[i] (R11). -/
def expValue : Nat → Nat
  | 0 => 1
  | i + 1 => doubleStep (expValue i)

/-- `EXP[e]`, all 256 cells (R11, C1). -/
def expRom (e : Byte) : Byte := BitVec.ofNat 8 (expValue e.toNat)

/-- Walk the exponents from `i`, whose power is `v`, for `steps` steps, to the one whose power is `w`. -/
def logSearch (w : Nat) : Nat → Nat → Nat → Option Nat
  | 0, _, _ => none
  | steps + 1, i, v => if v = w then some i else logSearch w steps (i + 1) (doubleStep v)

/-- `LOG[w]`: the exponent in 0..254 whose power is `w` (R12). The loop of R12 never writes LOG[0], so that cell holds
`LOG0` (R13). -/
def logRom (w : Byte) : Byte :=
  match logSearch w.toNat Config.ord 0 1 with
  | some i => BitVec.ofNat 8 i
  | none => Config.log0

/-- The LOG table as R12 writes it: `for i in 0..254: LOG[EXP[i]] <- i`, over a table that holds `LOG0` where nothing
is written. The statements compare `logRom` with it. -/
def logTable : List Byte :=
  (List.range Config.ord).foldl (fun t i => t.set (expValue i) (BitVec.ofNat 8 i)) (List.replicate 256 Config.log0)

end Sys2Proof.Machine
end

