-- ==== Sys2Proof/Machine/Gf.lean ====
section
/-!
DEFINITION. The field functions gf_add, gf_sub, gf_mul, gf_div (R105 to R108) and gf_pow (R131), and the loop that
runs a fallible function over a list.
-/
namespace Sys2Proof.Machine

/-- R105. -/
def gfAdd (x y : Byte) : Byte := x ^^^ y

/-- R106. -/
def gfSub (x y : Byte) : Byte := x ^^^ y

/-- R107: the zero test first; the sum of the logarithms in unbounded integers (R7). -/
def gfMul (x y : Byte) : Byte :=
  if x = 0#8 then 0#8
  else if y = 0#8 then 0#8
  else expRom (BitVec.ofNat 8 (((logRom x).toNat + (logRom y).toNat) % Config.ord))

/-- R108: the divisor test first, so `0 / 0` raises (C4). `LOG[x] + 255 - LOG[y]` is the rule's
`LOG[x] - LOG[y] + 255`, whose value is never negative. -/
def gfDiv (x y : Byte) : Except FaultCode Byte :=
  if y = 0#8 then .error .divisionByZero
  else if x = 0#8 then .ok 0#8
  else .ok (expRom (BitVec.ofNat 8 (((logRom x).toNat + Config.ord - (logRom y).toNat) % Config.ord)))

/-- R131: repeated multiplication, `gf_pow(x, 0) = 1`. -/
def gfPow (x : Byte) : Nat → Byte
  | 0 => 1#8
  | e + 1 => gfMul (gfPow x e) x

/-- Apply `g` to each element in order; the first `raise` is the whole's (R165 step 4). -/
def mapE {α β : Type} (g : α → Except FaultCode β) : List α → Except FaultCode (List β)
  | [] => .ok []
  | a :: as => do
    let b ← g a
    let bs ← mapE g as
    .ok (b :: bs)

end Sys2Proof.Machine
end

