-- ==== Sys2Proof/Machine/Field.lean ====
section
/-!
DEFINITION. The field datapath and the ROM read ports as commands (42_field.md section 2).
-/
namespace Sys2Proof.Machine

/-- FADD (R110). -/
def execFadd (rd ra rb : Reg) (s : State) : Result :=
  ifUnlocked s (writeBack rd (gfAdd (s.reg ra) (s.reg rb)) s)

/-- FSUB (R111). -/
def execFsub (rd ra rb : Reg) (s : State) : Result :=
  ifUnlocked s (writeBack rd (gfSub (s.reg ra) (s.reg rb)) s)

/-- FMUL (R112). -/
def execFmul (rd ra rb : Reg) (s : State) : Result :=
  ifUnlocked s (writeBack rd (gfMul (s.reg ra) (s.reg rb)) s)

/-- FDIV (R113): `r[ra]` divided by `r[rb]`. -/
def execFdiv (rd ra rb : Reg) (s : State) : Result :=
  ifUnlocked s (writeBackOrRaise (Instr.fdiv rd ra rb).opcode rd (gfDiv (s.reg ra) (s.reg rb)) s)

/-- FEXP (R114): the index is not reduced modulo 255. -/
def execFexp (rd ra : Reg) (s : State) : Result := ifUnlocked s (writeBack rd (expRom (s.reg ra)) s)

/-- FLOG (R115): a zero operand reads the open parameter `LOG0`. -/
def execFlog (rd ra : Reg) (s : State) : Result := ifUnlocked s (writeBack rd (logRom (s.reg ra)) s)

end Sys2Proof.Machine
end

