-- ==== Sys2Proof/Machine/Matrix.lean ====
section
/-!
DEFINITION. The Gaussian-elimination solver (44_matrix.md): the three stages as pure functions of an `n` by `n+1`
matrix (R130, R133, R135, R137) and the six matrix commands.
-/
namespace Sys2Proof.Machine

/-! ## Building (R132) -/

/-- The system built from `n` points: row `i` is `[x_i^(n-1), ..., x_i, 1 | y_i]` (R132). -/
def buildRows (px py : Nat → Byte) (n : Nat) : Mat :=
  (List.range n).map fun i => ((List.range n).map fun c => gfPow (px i) (n - 1 - c)) ++ [py i]

/-! ## Stage 1: forward elimination (R133) -/

/-- The least row index in i+1..n-1 with a nonzero entry in column i. -/
def findPivot (W : Mat) (n i : Nat) : Option Nat :=
  (List.range' (i + 1) (n - 1 - i)).find? fun r => decide (entry W r i ≠ 0#8)

/-- Swap two rows, all columns. -/
def swapRows (W : Mat) (i r : Nat) : Mat := (W.set i (W.getD r [])).set r (W.getD i [])

/-- Bring a nonzero entry to the diagonal of pivot row `i`, or raise SingularMatrix. -/
def choosePivot (n i : Nat) (W : Mat) : Except FaultCode Mat :=
  if entry W i i ≠ 0#8 then .ok W
  else
    match findPivot W n i with
    | some r => .ok (swapRows W i r)
    | none => .error .singularMatrix

/-- `row[c] <- row[c] - pivot[c] / scale` for every column. -/
def subScaled (scale : Byte) : List Byte → List Byte → Except FaultCode (List Byte)
  | x :: row, p :: pivot => do
    let q ← gfDiv p scale
    let rest ← subScaled scale row pivot
    .ok (gfSub x q :: rest)
  | row, _ => .ok row

/-- Make column `i` of a row below the pivot row zero; a row whose entry is zero already is left alone. -/
def elimRow (i : Nat) (pivot row : List Byte) : Except FaultCode (List Byte) :=
  if row.getD i 0#8 = 0#8 then .ok row
  else do
    let scale ← gfDiv (pivot.getD i 0#8) (row.getD i 0#8)
    subScaled scale row pivot

/-- Eliminate column `i` from every row below row `i`. The rows change one from another independently, from the one
pivot row. -/
def elimBelow (i : Nat) (W : Mat) : Except FaultCode Mat := do
  let below ← mapE (elimRow i (W.getD i [])) (W.drop (i + 1))
  .ok (W.take (i + 1) ++ below)

/-- The loop over the pivot rows `is`. -/
def fwdLoop (n : Nat) : List Nat → Mat → Except FaultCode Mat
  | [], W => .ok W
  | i :: is, W => do
    let W ← choosePivot n i W
    let W ← elimBelow i W
    fwdLoop n is W

/-- `fwd_elim(M, n)` (R133): pivot rows 0..n-2. -/
def fwdElim (M : Mat) (n : Nat) : Except FaultCode Mat := fwdLoop n (List.range (n - 1)) M

/-! ## Stage 2: backward substitution (R135) -/

/-- Clear the entry in pivot column `i` of a row above, updating only that entry and the last column `n`. -/
def backRow (n i : Nat) (pivot row : List Byte) : Except FaultCode (List Byte) :=
  if row.getD i 0#8 = 0#8 then .ok row
  else do
    let scale ← gfDiv (pivot.getD i 0#8) (row.getD i 0#8)
    let q ← gfDiv (pivot.getD n 0#8) scale
    .ok ((row.set n (gfSub (row.getD n 0#8) q)).set i 0#8)

/-- Clear column `i` in every row above row `i` (the order of those rows does not affect the result, R135). -/
def backAbove (n i : Nat) (W : Mat) : Except FaultCode Mat := do
  let above ← mapE (backRow n i (W.getD i [])) (W.take i)
  .ok (above ++ W.drop i)

/-- The loop over the pivot rows `is`. -/
def backLoop (n : Nat) : List Nat → Mat → Except FaultCode Mat
  | [], W => .ok W
  | i :: is, W => do
    let W ← backAbove n i W
    backLoop n is W

/-- `back_subst(M, n)` (R135): pivot rows n-1 downto 1. -/
def backSubst (M : Mat) (n : Nat) : Except FaultCode Mat := backLoop n (List.range' 1 (n - 1)).reverse M

/-! ## Stage 3: normalization (R137) -/

/-- Divide every entry of row `i` by the row's diagonal entry. -/
def normRow (row : List Byte) (i : Nat) : Except FaultCode (List Byte) :=
  mapE (fun x => gfDiv x (row.getD i 0#8)) row

/-- `normalize(M, n)` (R137), for a matrix of exactly `n` rows. -/
def normalize (M : Mat) : Except FaultCode Mat := mapE (fun r => normRow r.1 r.2) M.zipIdx

/-! ## The commands -/

/-- One stage: read the block of bank `src`, write the block of bank `dst`; a fault leaves the block of `dst`
unspecified (R130, R141). -/
def runStage (op : Byte) (src dst : Bank) (stage : Mat → Except FaultCode Mat) (n : Nat) (s : State) : Result :=
  match stage (s.matView src n) with
  | .ok W => respond 0 (s.drew.writeBlock dst n W)
  | .error k => raise op k (s.drew.forgetBlock dst n)

/-- MBUILD (R132). -/
def execMbuild (n : Byte) (s : State) : Result :=
  ifUnlocked s (ifCount (Instr.mbuild n).opcode n s
    (respond 0 (s.drew.writeBlock 0 n.toNat (buildRows (s.view .px) (s.view .py) n.toNat))))

/-- MFWD (R134): bank 0 to bank 1. -/
def execMfwd (n : Byte) (s : State) : Result :=
  ifUnlocked s (ifCount (Instr.mfwd n).opcode n s
    (runStage (Instr.mfwd n).opcode 0 1 (fun M => fwdElim M n.toNat) n.toNat s))

/-- MBACK (R136): bank 1 to bank 2. -/
def execMback (n : Byte) (s : State) : Result :=
  ifUnlocked s (ifCount (Instr.mback n).opcode n s
    (runStage (Instr.mback n).opcode 1 2 (fun M => backSubst M n.toNat) n.toNat s))

/-- MNORM (R138): bank 2 to bank 3. -/
def execMnorm (n : Byte) (s : State) : Result :=
  ifUnlocked s (ifCount (Instr.mnorm n).opcode n s
    (runStage (Instr.mnorm n).opcode 2 3 normalize n.toNat s))

/-- The three stages in order, from the block of bank 0 to banks 1, 2 and 3 (R139). At the first fault the banks of
the stages that completed hold their results, and the blocks of the faulting and of the later stages' banks are
unspecified (R141). -/
def solveStages (op : Byte) (n : Nat) (s : State) : Result :=
  match fwdElim (s.matView 0 n) n with
  | .error k => raise op k (((s.drew.forgetBlock 1 n).forgetBlock 2 n).forgetBlock 3 n)
  | .ok W1 =>
    match backSubst W1 n with
    | .error k => raise op k (((s.drew.writeBlock 1 n W1).forgetBlock 2 n).forgetBlock 3 n)
    | .ok W2 =>
      match normalize W2 with
      | .error k => raise op k (((s.drew.writeBlock 1 n W1).writeBlock 2 n W2).forgetBlock 3 n)
      | .ok W3 => respond 0 (((s.drew.writeBlock 1 n W1).writeBlock 2 n W2).writeBlock 3 n W3)

/-- MSOLVE (R139). -/
def execMsolve (n : Byte) (s : State) : Result :=
  ifUnlocked s (ifCount (Instr.msolve n).opcode n s (solveStages (Instr.msolve n).opcode n.toNat s))

/-- The solution column of bank 3 in ascending order: cell `k` of COEF gets `MAT[3][n-1-k][n]` (R140). -/
def solutionCells (n : Nat) (s : State) : List Host.Cell :=
  (List.range n).map fun k => (k, s.view (.mat 3) (matIndex (n - 1 - k) n))

/-- MEXT (R140). -/
def execMext (n : Byte) (s : State) : Result :=
  ifUnlocked s (ifCount (Instr.mext n).opcode n s
    (respond 0 (s.drew.setMem .coef (Memory.writeAll s.coef (solutionCells n.toNat s)))))

end Sys2Proof.Machine
end

