-- ==== Sys2Proof/Machine/Polynomial.lean ====
section
/-!
DEFINITION. The polynomial evaluator and the Lagrange interpolation engine (43_polynomial.md). The engines are pure
functions of the cells they read (R8), given as functions of the cell index.
-/
namespace Sys2Proof.Machine

/-- `for k in (count-1) downto 0: acc <- acc * x + a[k]` (R122). -/
def hornerLoop (a : Nat → Byte) (x : Byte) : Nat → Byte → Byte
  | 0, acc => acc
  | k + 1, acc => hornerLoop a x k (gfAdd (gfMul acc x) (a k))

/-- `poly_eval(a, d, x)` (R122). -/
def polyEval (a : Nat → Byte) (d : Nat) (x : Byte) : Byte := hornerLoop a x d (a d)

/-- PEVAL (R123). -/
def execPeval (rd ra : Reg) (d : Byte) (s : State) : Result :=
  ifUnlocked s (writeBack rd (polyEval (s.view .coef) d.toNat (s.reg ra)) s.drew)

/-- The inner loop of R124 over the points `js`: each factor is divided, then multiplied into the weight. -/
def lagrangeWeight (px : Nat → Byte) (x : Byte) (i : Nat) : List Nat → Byte → Except FaultCode Byte
  | [], w => .ok w
  | j :: js, w =>
    if j = i then lagrangeWeight px x i js w
    else do
      let q ← gfDiv (gfSub x (px j)) (gfSub (px i) (px j))
      lagrangeWeight px x i js (gfMul w q)

/-- The outer loop of R124 over the points `is`. -/
def lagrangeLoop (px py : Nat → Byte) (n : Nat) (x : Byte) : List Nat → Byte → Except FaultCode Byte
  | [], acc => .ok acc
  | i :: is, acc => do
    let w ← lagrangeWeight px x i (List.range n) 1#8
    lagrangeLoop px py n x is (gfAdd acc (gfMul w (py i)))

/-- `lagrange(px, py, n, x)` (R124). -/
def lagrange (px py : Nat → Byte) (n : Nat) (x : Byte) : Except FaultCode Byte :=
  lagrangeLoop px py n x (List.range n) 0#8

/-- LINTERP (R125). -/
def execLinterp (rd ra : Reg) (n : Byte) (s : State) : Result :=
  ifUnlocked s (ifCount (Instr.linterp rd ra n).opcode n s
    (writeBackOrRaise (Instr.linterp rd ra n).opcode rd
      (lagrange (s.view .px) (s.view .py) n.toNat (s.reg ra)) s.drew))

end Sys2Proof.Machine
end

