-- ==== Sys2Proof/Machine/System.lean ====
section
/-!
DEFINITION. The system and register-move commands (40_system.md): NOP, CSRR, CLRF, RDR, LDI, MOV.
-/
namespace Sys2Proof.Machine

/-- NOP (R80). -/
def execNop (s : State) : Result := ifUnlocked s (respond 0 s)

/-- CSRR (R81): executes on a locked core too and writes no state. A term with a CSR number above 2 is no command;
it acts as the illegal word it would be (R67 (c); log entry 14). -/
def execCsrr (csr : Byte) (s : State) : Result :=
  match s.csr? csr with
  | some v => respond v s
  | none => execIllegal (Instr.csrr csr).opcode s

/-- CLRF (R82): executes on a locked core too. -/
def execClrf (s : State) : Result := clearFault s

/-- RDR (R83). -/
def execRdr (ra : Reg) (s : State) : Result := ifUnlocked s (respond (s.reg ra) s)

/-- LDI (R84). -/
def execLdi (rd : Reg) (imm8 : Byte) (s : State) : Result := ifUnlocked s (writeBack rd imm8 s)

/-- MOV (R85). -/
def execMov (rd ra : Reg) (s : State) : Result := ifUnlocked s (writeBack rd (s.reg ra) s)

end Sys2Proof.Machine
end

