-- ==== Sys2Proof/Machine/Dispatch.lean ====
section
/-!
DEFINITION. The dispatch: one arm per command, one direct call of its meaning.
-/
namespace Sys2Proof.Machine

/-- The effect of a command on the state (30_encoding.md R71, after decoding). -/
def exec (i : Instr) (s : State) : Host.Outcome State Fault Refusal :=
  match i with
  | .nop => Sys2Proof.Machine.execNop s
  | .csrr csr => Sys2Proof.Machine.execCsrr csr s
  | .clrf => Sys2Proof.Machine.execClrf s
  | .rdr ra => Sys2Proof.Machine.execRdr ra s
  | .ldi rd imm8 => Sys2Proof.Machine.execLdi rd imm8 s
  | .mov rd ra => Sys2Proof.Machine.execMov rd ra s
  | .fadd rd ra rb => Sys2Proof.Machine.execFadd rd ra rb s
  | .fsub rd ra rb => Sys2Proof.Machine.execFsub rd ra rb s
  | .fmul rd ra rb => Sys2Proof.Machine.execFmul rd ra rb s
  | .fdiv rd ra rb => Sys2Proof.Machine.execFdiv rd ra rb s
  | .fexp rd ra => Sys2Proof.Machine.execFexp rd ra s
  | .flog rd ra => Sys2Proof.Machine.execFlog rd ra s
  | .ldc rd idx8 => Sys2Proof.Machine.execLdc rd idx8 s
  | .stc ra idx8 => Sys2Proof.Machine.execStc ra idx8 s
  | .stci idx8 imm8 => Sys2Proof.Machine.execStci idx8 imm8 s
  | .ldx rd idx8 => Sys2Proof.Machine.execLdx rd idx8 s
  | .stx ra idx8 => Sys2Proof.Machine.execStx ra idx8 s
  | .stxi idx8 imm8 => Sys2Proof.Machine.execStxi idx8 imm8 s
  | .ldy rd idx8 => Sys2Proof.Machine.execLdy rd idx8 s
  | .sty ra idx8 => Sys2Proof.Machine.execSty ra idx8 s
  | .styi idx8 imm8 => Sys2Proof.Machine.execStyi idx8 imm8 s
  | .ldm rd bank row8 col8 => Sys2Proof.Machine.execLdm rd bank row8 col8 s
  | .stm ra bank row8 col8 => Sys2Proof.Machine.execStm ra bank row8 col8 s
  | .peval rd ra d => Sys2Proof.Machine.execPeval rd ra d s
  | .linterp rd ra n => Sys2Proof.Machine.execLinterp rd ra n s
  | .mbuild n => Sys2Proof.Machine.execMbuild n s
  | .mfwd n => Sys2Proof.Machine.execMfwd n s
  | .mback n => Sys2Proof.Machine.execMback n s
  | .mnorm n => Sys2Proof.Machine.execMnorm n s
  | .msolve n => Sys2Proof.Machine.execMsolve n s
  | .mext n => Sys2Proof.Machine.execMext n s

end Sys2Proof.Machine
end

