-- ==== Sys2Proof/Machine/Fetch.lean ====
section
/-!
DEFINITION. How a command word gets from the command port to `exec`: the handshake of R51 and R52, then decoding, then
the order of checks of R165.
-/
namespace Sys2Proof.Machine

/-- Run a word the core has accepted: a command by its meaning (whose first check is the lock), an illegal word as
IllegalCommand, or refused on a locked core (R71, R165). -/
def runWord (w : Word) (s : State) : Result :=
  match decode w with
  | .ok i => exec i s
  | .illegal _ => execIllegal (opField w) s

/-- One clock edge without reset (R51). While a response is valid the core is not ready (R52): the response is delivered
when `rsp_ready = 1` and held otherwise, and a word presented is not accepted (log entry 3). While none is valid the core
is ready: a word presented is accepted and executed. -/
def stepEdge (cmd : Option Word) (rspReady : Bool) (s : State) : Result :=
  if s.rspValid then .next (if rspReady then s.deliver else s)
  else
    match cmd with
    | some w => runWord w s
    | none => .next s

/-- The state with the table word `w` presented at the next edge and the core ready for it (log entry 2). -/
def State.present (s : State) (w : Word) : State :=
  { s with inputs := .edge (some w) true :: s.inputs, rsp := none }

end Sys2Proof.Machine
end

