-- ==== Sys2Proof/Machine/Step.lean ====
section
/-!
DEFINITION. One step of the core: one clock edge at its ports (R50 to R52, R180), and for a command accepted there its
whole execution (R71, R165; log entry 1). The core has no program counter; the commands are the host's inputs (R17).
-/
namespace Sys2Proof.Machine

/-- One step. With no edge to come the core idles with all state kept (R178). -/
def step (s : State) : Host.Outcome State Fault Refusal :=
  match s.inputs with
  | [] => .next s
  | .reset :: rest => .next (s.resetBy rest)
  | .edge cmd rspReady :: rest => stepEdge cmd rspReady { s with inputs := rest }

/-- The state in which the very next step accepts and runs the table word `w` (log entry 2). -/
def State.withFetchWord (s : State) (nbits w : Nat) : State := s.present (wordOf nbits w)

end Sys2Proof.Machine
end

