-- ==== Sys2Proof/Safety.lean ====
section
/-!
DEFINITION. The terms the statements are written in: the invariant of the state, what a command leaves unchanged (its
frame), the shapes an effect can have, what a command reads, and running a list of commands.
-/
namespace Sys2Proof

/-! ## Instructions and words -/

/-- The scalar register a command writes (R10). -/
def Instr.destReg : Instr → Option Reg
  | .ldi rd _ | .mov rd _ | .fexp rd _ | .flog rd _ => some rd
  | .fadd rd _ _ | .fsub rd _ _ | .fmul rd _ _ | .fdiv rd _ _ => some rd
  | .ldc rd _ | .ldx rd _ | .ldy rd _ | .ldm rd _ _ _ => some rd
  | .peval rd _ _ | .linterp rd _ _ => some rd
  | .nop | .csrr _ | .clrf | .rdr _ => none
  | .stc _ _ | .stci _ _ | .stx _ _ | .stxi _ _ | .sty _ _ | .styi _ _ | .stm _ _ _ _ => none
  | .mbuild _ | .mfwd _ | .mback _ | .mnorm _ | .msolve _ | .mext _ => none

/-- The two commands a locked core executes: a well-formed CSRR, and CLRF (R168). -/
def Instr.runsLocked : Instr → Prop
  | .csrr csr => csr.toNat ≤ 2
  | .clrf => True
  | _ => False

/-- The word is the row's command: `w and mask = match`, and `C <= 2` for CSRR (30_encoding.md section 3). -/
def OpRow.matches (r : OpRow) (w : Word) : Prop :=
  w &&& r.mask = r.pattern ∧ (r.mnemonic = "CSRR" → (cField w).toNat ≤ 2)

/-- The word is a command of the opcode map. -/
def LegalWord (w : Word) : Prop := ∃ r ∈ opcodeRows, r.matches w

/-! ## The field, from its definition -/

/-- Multiplication by `x` in GF(2)[x]/(x^8+x^4+x^3+x^2+1): shift, and reduce by 0x11D when bit 7 falls out (R109). -/
def mulX (x : Byte) : Byte := (x <<< 1) ^^^ (if x.getLsbD 7 then 0x1D#8 else 0#8)

/-- The carry-less product of `x` and the low `k` bits of `y`, reduced modulo 0x11D: the sum of `x^j` times `x` over the
set bits `j` of `y` (R109). -/
def polyMul (x : Byte) (y : Byte) : Nat → Byte
  | 0 => 0#8
  | k + 1 => polyMul x y k ^^^ (if y.getLsbD k then mulX^[k] x else 0#8)

end Sys2Proof

namespace Sys2Proof.Machine

/-! ## The invariant -/

/-- Every space is in canonical form and lists only its own cells (R30, R31). -/
def State.memOk (s : State) : Bool :=
  [Space.coef, .px, .py, .mat 0, .mat 1, .mat 2, .mat 3].all fun sp => Memory.wf sp.size (s.mem sp)

/-- `FCODE = 0` exactly when `F = 0`, codes 5..15 never appear, `FOP = 0` when `F = 0` (R22, R23). -/
def State.faultRegsOk (s : State) : Bool :=
  if s.f then decide (1 ≤ s.fcode.toNat) && decide (s.fcode.toNat ≤ 4) else decide (s.fcode = 0) && decide (s.fop = 0)

/-- A response on the port has its reserved bits zero, carries the present FCODE, and with `ERR = 1` stands on a locked
core and carries no data (R68). -/
def State.rspOk (s : State) : Bool :=
  match s.rsp with
  | none => true
  | some r =>
    decide (rspReserved r = 0) && decide (rspFcode r = s.fcode) && (!rspErr r || (s.f && decide (rspData r = 0)))

/-- The invariant that every step keeps. -/
def State.inv (s : State) : Bool := s.memOk && s.faultRegsOk && s.rspOk

/-! ## Frames -/

/-- Every scalar register is as before. -/
def RegsSame (s t : State) : Prop := ∀ r, t.reg r = s.reg r

/-- Every scalar register but `rd` is as before. -/
def RegsSameBut (rd : Reg) (s t : State) : Prop := ∀ r, r ≠ rd → t.reg r = s.reg r

/-- F, FCODE and FOP are as before: the core's only flag and its other control fields. -/
def FaultRegsSame (s t : State) : Prop := t.f = s.f ∧ t.fcode = s.fcode ∧ t.fop = s.fop

/-- Every cell of every space reads as before (an unspecified one is still unspecified). -/
def CellsSame (s t : State) : Prop := ∀ sp a, t.cell? sp a = s.cell? sp a

/-- Every cell outside `P` reads as before. -/
def CellsSameBut (P : Space → Nat → Prop) (s t : State) : Prop := ∀ sp a, ¬ P sp a → t.cell? sp a = s.cell? sp a

/-- The cells `[0..n-1][0..n]` of the banks `B`. -/
def BlocksOf (B : Bank → Prop) (n : Nat) (sp : Space) (a : Nat) : Prop :=
  ∃ b, B b ∧ sp = .mat b ∧ a / 256 < n ∧ a % 256 ≤ n

/-! ## The shapes of an effect -/

/-- The command wrote `v` to `rd`, answered it, and changed nothing else. -/
def WritesReg (rd : Reg) (v : Byte) (s t : State) : Prop :=
  t.reg rd = v ∧ RegsSameBut rd s t ∧ FaultRegsSame s t ∧ CellsSame s t ∧
    t.rsp = some (response false t.fcode v) ∧ t.inputs = s.inputs

/-- The command answered `d` and changed nothing else. -/
def AnswersOnly (d : Byte) (s t : State) : Prop :=
  RegsSame s t ∧ FaultRegsSame s t ∧ CellsSame s t ∧ t.rsp = some (response false t.fcode d) ∧ t.inputs = s.inputs

/-- The command changed cells in `P` only, answered zero, and changed no register, no fault register and no other
cell. -/
def WritesCells (P : Space → Nat → Prop) (s t : State) : Prop :=
  CellsSameBut P s t ∧ RegsSame s t ∧ FaultRegsSame s t ∧ t.rsp = some (response false t.fcode 0) ∧ t.inputs = s.inputs

/-- The command stored `v` in cell `a` of `sp`, answered zero, and changed nothing else. -/
def StoresCell (sp : Space) (a : Nat) (v : Byte) (s t : State) : Prop :=
  t.cell? sp a = some v ∧ WritesCells (fun sp' a' => sp' = sp ∧ a' = a) s t

/-- Fault entry (R166): fault `k` latched with the opcode byte `op`, answered with `ERR = 1`; no scalar register and no
input changed. -/
def Raises (k : FaultCode) (op : Byte) (s t : State) : Prop :=
  t.f = true ∧ t.fcode = k.code ∧ t.fop = op ∧ t.rsp = some (response true k.code 0) ∧ RegsSame s t ∧
    t.inputs = s.inputs

/-- The cells in `P` are unspecified. -/
def Forgotten (P : Space → Nat → Prop) (t : State) : Prop := ∀ sp a, P sp a → t.cell? sp a = none

/-- The command raised fault `k` and changed no cell: nothing but the fault registers and the response. -/
def RaisesOnly (k : FaultCode) (op : Byte) (s t : State) : Prop := Raises k op s t ∧ CellsSame s t

/-- The command raised fault `k` and changed besides only the cells in `P`, which are unspecified now (R141, R167). -/
def RaisesForgetting (P : Space → Nat → Prop) (k : FaultCode) (op : Byte) (s t : State) : Prop :=
  Raises k op s t ∧ CellsSameBut P s t ∧ Forgotten P t

/-- The word was refused: no state changed, the response has `ERR = 1` and the latched code (R168). -/
def Refused (s t : State) : Prop :=
  RegsSame s t ∧ FaultRegsSame s t ∧ CellsSame s t ∧ t.rsp = some (response true s.fcode 0) ∧ t.inputs = s.inputs

/-! ## What a command reads -/

/-- `a` is a possible content of cells 0..m-1: it agrees with every cell that is specified. -/
def Reads (s : State) (sp : Space) (m : Nat) (a : Nat → Byte) : Prop :=
  ∀ k, k < m → ∀ b, s.cell? sp k = some b → a k = b

/-- Cells 0..m-1 are specified and hold `a`. -/
def Written (s : State) (sp : Space) (m : Nat) (a : Nat → Byte) : Prop := ∀ k, k < m → s.cell? sp k = some (a k)

/-- The points 0..n-1 have distinct x. -/
def Distinct (px : Nat → Byte) (n : Nat) : Prop := ∀ i j, i < n → j < n → px i = px j → i = j

/-- `W` has `n` rows of `n + 1` entries. -/
def Shape (W : Mat) (n : Nat) : Prop := W.length = n ∧ ∀ row ∈ W, row.length = n + 1

/-- `W` is a possible content of the block `[0..n-1][0..n]` of a bank. -/
def ReadsBlock (s : State) (b : Bank) (n : Nat) (W : Mat) : Prop :=
  Shape W n ∧ ∀ i c, i < n → c ≤ n → ∀ v, s.cell? (.mat b) (matIndex i c) = some v → entry W i c = v

/-- The block `[0..n-1][0..n]` of a bank is specified and holds `W`. -/
def HoldsBlock (s : State) (b : Bank) (n : Nat) (W : Mat) : Prop :=
  Shape W n ∧ ∀ i c, i < n → c ≤ n → s.cell? (.mat b) (matIndex i c) = some (entry W i c)

/-! ## Linear systems -/

/-- Row `i` of `M`, its first `m` entries, applied to `v`: the field sum of `M[i][c] * v[c]` for c in 0..m-1. -/
def rowTimes (M : Mat) (i m : Nat) (v : Nat → Byte) : Byte :=
  (List.range m).foldl (fun acc c => gfAdd acc (gfMul (entry M i c) (v c))) 0

/-- The condition of R162: after pivots 0..i-1, for some pivot column `i` in 0..n-2, column `i` is zero from row `i`
down. -/
def MeetsAZeroColumn (M : Mat) (n : Nat) : Prop :=
  ∃ i W, i + 1 < n ∧ fwdLoop n (List.range i) M = .ok W ∧ ∀ r, i ≤ r → r < n → entry W r i = 0

/-- Columns 0..n-2 of the matrix are linearly dependent. -/
def DependentColumns (M : Mat) (n : Nat) : Prop :=
  ∃ v : Nat → Byte, (∃ c, c + 1 < n ∧ v c ≠ 0) ∧ ∀ i, i < n → rowTimes M i (n - 1) v = 0

/-! ## Sequences of commands -/

/-- The command `store` then the command `load` complete, the destination register holds `v`, and of all cells only cell
`a` of `sp` may differ. -/
def StoreThenLoad (store load : Instr) (sp : Space) (a : Nat) (v : Byte) (rd : Reg) (s : State) : Prop :=
  ∃ t u, exec store s = .next t ∧ exec load t = .next u ∧ u.reg rd = v ∧
    CellsSameBut (fun sp' a' => sp' = sp ∧ a' = a) s u

/-- Run commands one after another, stopping at the first outcome that is not a next state. -/
def execAll : List Instr → State → Result
  | [], s => .next s
  | i :: is, s =>
    match exec i s with
    | .next t => execAll is t
    | .fault r => .fault r
    | .refused r => .refused r

end Sys2Proof.Machine
end

