-- ==== Sys2Proof/Certificates/Slice0/Obligations.lean ====
section
/-!
DEFINITION. The statements for the provers, in the terms of Safety.lean. Free bytes enter only as "some byte that agrees
with every specified cell", so each statement holds whatever the free bytes are. Where a statement speaks of unspecified
input cells in a way the spec does not give, its docstring names the log entry it rests on.
-/

open Sys2Proof Sys2Proof.Machine

/-! ## Words -/

/-- Every well-formed command is read back from its word, with every operand at every value (R54 to R66). -/
def Obligations.DecodeOfEncodeIsTheCommand : Prop := ∀ i : Instr, i.wf = true → decode (encode i) = .ok i

/-- A word that decodes to a command is that command's one word: no bit of it is ignored (R54, R67). -/
def Obligations.EncodeOfDecodeIsTheWord : Prop := ∀ (w : Word) (i : Instr), decode w = .ok i → i.wf = true ∧ encode i = w

/-- A word decodes to a row's command exactly when `w and mask = match` (and `C <= 2` for CSRR), and is illegal exactly
when it matches no row (30_encoding.md section 3; R67). -/
def Obligations.LegalWordsAreTheOpcodeMap : Prop :=
  ∀ w : Word,
    (∀ r ∈ opcodeRows, (∃ i, decode w = .ok i ∧ i.mnemonic = r.mnemonic) ↔ r.matches w) ∧
    ((∃ i, decode w = .ok i) ↔ LegalWord w)

/-- One word per format, written out from 30_encoding.md's layouts (95_test_vectors.md V1.1 to V1.20). -/
def Obligations.SampleWordsDecode : Prop :=
  decode 0x00000000#32 = .ok .nop ∧
  decode 0x01000002#32 = .ok (.csrr 2) ∧
  decode 0x03000F00#32 = .ok (.rdr 15) ∧
  decode 0x080F00FF#32 = .ok (.ldi 15 0xFF) ∧
  decode 0x09020100#32 = .ok (.mov 2 1) ∧
  decode 0x13040302#32 = .ok (.fdiv 4 3 2) ∧
  decode 0x31000F02#32 = .ok (.linterp 0 15 2) ∧
  decode 0x200200FF#32 = .ok (.ldc 2 255) ∧
  decode 0x2200FF99#32 = .ok (.stci 255 0x99) ∧
  decode 0x2D890102#32 = .ok (.stm 9 2 1 2) ∧
  decode 0x440000FF#32 = .ok (.msolve 255)

/-! ## The step -/

/-- When no response is valid and the word presented decodes to a command, the step is that command's execution, whatever
`rsp_ready` is; that edge is consumed from the inputs (R51, R71; the inputs are the model's, log entry 2). -/
def Obligations.StepRunsTheDecodedCommand : Prop :=
  ∀ (s : State) (w : Word) (rdy : Bool) (rest : List HostInput) (i : Instr),
    s.rsp = none → s.inputs = .edge (some w) rdy :: rest → decode w = .ok i → step s = exec i { s with inputs := rest }

/-- The other events at the ports. Idling keeps all state (R178). A valid response is delivered at an edge with
`rsp_ready = 1` and held, whatever word is presented, at one with `rsp_ready = 0` (R51); at neither is a word accepted
(R52; at the delivering edge by log entry 3). Reset takes effect at once and leaves the host's later inputs to come
(R180; the model's choice, log entry 11). -/
def Obligations.PortEventsFollowTheHandshake : Prop :=
  (∀ s : State, s.inputs = [] → step s = .next s) ∧
  (∀ (s : State) (rdy : Bool) (rest : List HostInput), s.inputs = .edge none rdy :: rest → s.rsp = none →
    step s = .next { s with inputs := rest }) ∧
  (∀ (s : State) (cmd : Option Word) (rest : List HostInput), s.inputs = .edge cmd true :: rest → s.rsp ≠ none →
    ∃ t, step s = .next t ∧ RegsSame s t ∧ FaultRegsSame s t ∧ CellsSame s t ∧ t.rsp = none ∧ t.inputs = rest) ∧
  (∀ (s : State) (cmd : Option Word) (rest : List HostInput), s.inputs = .edge cmd false :: rest → s.rsp ≠ none →
    ∃ t, step s = .next t ∧ RegsSame s t ∧ FaultRegsSame s t ∧ CellsSame s t ∧ t.rsp = s.rsp ∧ t.inputs = rest) ∧
  (∀ (s : State) (rest : List HostInput), s.inputs = .reset :: rest →
    ∃ t, step s = .next t ∧ t.rsp = none ∧ t.inputs = rest)

/-- An illegal word raises IllegalCommand on an unlocked core and is refused on a locked one (R67, R164). -/
def Obligations.IllegalWordRaisesIllegalCommand : Prop :=
  ∀ (s : State) (w : Word) (rdy : Bool) (rest : List HostInput),
    s.rsp = none → s.inputs = .edge (some w) rdy :: rest → ¬ LegalWord w →
    (s.f = false → ∃ t, step s = .next t ∧ RaisesOnly .illegalCommand (opField w) { s with inputs := rest } t) ∧
    (s.f = true → ∃ t, step s = .next t ∧ Refused { s with inputs := rest } t)

/-- A locked core executes only a well-formed CSRR and CLRF and refuses every other word (R168). -/
def Obligations.LockedCoreRefusesAllButCsrrAndClrf : Prop :=
  ∀ (s : State) (w : Word) (rdy : Bool) (rest : List HostInput),
    s.f = true → s.rsp = none → s.inputs = .edge (some w) rdy :: rest →
    ((∀ i, decode w = .ok i → ¬ i.runsLocked) → ∃ t, step s = .next t ∧ Refused { s with inputs := rest } t) ∧
    (∀ i, decode w = .ok i → i.runsLocked → ∃ t r, step s = .next t ∧ t.rsp = some r ∧ rspErr r = false)

/-- CLRF and reset unlock, and nothing else does; CLRF restores nothing (R169). -/
def Obligations.OnlyClrfAndResetUnlock : Prop :=
  (∀ s : State, ∃ t, exec .clrf s = .next t ∧ t.f = false ∧ t.fcode = 0 ∧ t.fop = 0 ∧ RegsSame s t ∧ CellsSame s t) ∧
  (∀ (s : State) (rest : List HostInput), s.inputs = .reset :: rest →
    ∃ t, step s = .next t ∧ t.f = false ∧ t.fcode = 0 ∧ t.fop = 0) ∧
  (∀ s t : State, step s = .next t → s.f = true → t.f = false →
    (∃ rest, s.inputs = .reset :: rest) ∨ (∃ w rdy rest, s.inputs = .edge (some w) rdy :: rest ∧ decode w = .ok .clrf))

/-- While the core stays locked, FCODE and FOP stay (R170, which the spec derives from R165 and R168). That they are latched
by the first fault is OnlyTheNamedCommandsFault. -/
def Obligations.FirstFaultIsKept : Prop :=
  ∀ s t : State, step s = .next t → s.f = true → t.f = true → t.fcode = s.fcode ∧ t.fop = s.fop

/-- Every step answers a next state: no command hangs and no behaviour is stuck (R192). -/
def Obligations.StepAlwaysAnswers : Prop :=
  (∀ s : State, ∃ t, step s = .next t) ∧ (∀ (i : Instr) (s : State), ∃ t, exec i s = .next t)

/-- The response word of every accepted word (R68): ERR, FCODE after the command, and DATA. -/
def Obligations.ResponseWordOfEveryCommand : Prop :=
  ∀ (w : Word) (s t : State), runWord w s = .next t →
    ∃ r, t.rsp = some r ∧ rspReserved r = 0 ∧ rspFcode r = t.fcode ∧
      (s.inv = true → t.f = false → rspFcode r = 0) ∧
      (rspErr r = true ↔
        (s.f = false ∧ t.f = true) ∨ (s.f = true ∧ ∀ i, decode w = .ok i → ¬ i.runsLocked)) ∧
      (rspErr r = true → rspData r = 0) ∧
      (rspErr r = false → ∀ i, decode w = .ok i →
        (∀ rd, i.destReg = some rd → rspData r = t.reg rd) ∧
        (∀ ra, i = .rdr ra → rspData r = s.reg ra) ∧
        (∀ csr, i = .csrr csr → s.csr? csr = some (rspData r)) ∧
        (i.destReg = none → (∀ ra, i ≠ .rdr ra) → (∀ csr, i ≠ .csrr csr) → rspData r = 0))

/-- Every step keeps the invariant: memories in canonical form inside their spaces, `FCODE = 0` exactly when `F = 0`
with codes 5..15 never, `FOP = 0` when unlocked, and a response that agrees with the fault registers (R22, R23, R30,
R68). -/
def Obligations.StepKeepsTheInvariant : Prop := ∀ s t : State, s.inv = true → step s = .next t → t.inv = true

/-- The invariant holds at reset. -/
def Obligations.ResetMeetsTheInvariant : Prop := State.reset.inv = true

/-- What reset leaves, whatever the state was, and the state `State.reset` alike: registers and fault registers zero,
ready with no response, every cell unspecified (R27, R181, R182). R181 gives `cmd_ready = 1` once `rst` is low; that it is
1 also when the next input is again a reset is the model's choice, log entry 20. -/
def Obligations.ResetLeavesTheResetState : Prop :=
  (∀ (s : State) (rest : List HostInput), s.inputs = .reset :: rest →
    ∃ t, step s = .next t ∧ (∀ r, t.reg r = 0) ∧ t.fstat = 0 ∧ t.fcodeByte = 0 ∧ t.fop = 0 ∧ t.faultPin = false ∧
      t.cmdReady = true ∧ t.rspValid = false ∧ (∀ sp a, t.cell? sp a = none)) ∧
  (∀ r, State.reset.reg r = 0) ∧ State.reset.fstat = 0 ∧ State.reset.fcodeByte = 0 ∧ State.reset.fop = 0 ∧
    State.reset.faultPin = false ∧ State.reset.cmdReady = true ∧ State.reset.rspValid = false ∧
    (∀ sp a, State.reset.cell? sp a = none)

/-- Who writes what (the "written by" column of R10): a cell, a register or a fault register changes only under the
commands named for it. -/
def Obligations.OnlyTheNamedCommandsWrite : Prop :=
  ∀ (i : Instr) (s t : State), exec i s = .next t →
    ((∃ a, t.cell? .coef a ≠ s.cell? .coef a) →
      (∃ ra k, i = .stc ra k) ∨ (∃ k v, i = .stci k v) ∨ (∃ n, i = .mext n)) ∧
    ((∃ a, t.cell? .px a ≠ s.cell? .px a) → (∃ ra k, i = .stx ra k) ∨ (∃ k v, i = .stxi k v)) ∧
    ((∃ a, t.cell? .py a ≠ s.cell? .py a) → (∃ ra k, i = .sty ra k) ∨ (∃ k v, i = .styi k v)) ∧
    (∀ b, (∃ a, t.cell? (.mat b) a ≠ s.cell? (.mat b) a) →
      (∃ ra r c, i = .stm ra b r c) ∨ (b = 0 ∧ ∃ n, i = .mbuild n) ∨ (b = 1 ∧ ∃ n, i = .mfwd n) ∨
      (b = 2 ∧ ∃ n, i = .mback n) ∨ (b = 3 ∧ ∃ n, i = .mnorm n) ∨ (b ≠ 0 ∧ ∃ n, i = .msolve n)) ∧
    (∀ r, t.reg r ≠ s.reg r → i.destReg = some r) ∧
    (¬ FaultRegsSame s t → i = .clrf ∨ (s.f = false ∧ t.f = true ∧ t.fop = i.opcode))

/-! ## System and register moves -/

/-- NOP (R80). -/
def Obligations.NopAnswersZero : Prop :=
  (∀ w, decode w = .ok .nop ↔ w = 0x00000000#32) ∧
  ∀ s : State,
    (s.f = false → ∃ t, exec .nop s = .next t ∧ AnswersOnly 0 s t) ∧
    (s.f = true → ∃ t, exec .nop s = .next t ∧ Refused s t)

/-- CSRR (R81): FSTAT, FCODE or FOP, locked or not; any other CSR number is illegal. -/
def Obligations.CsrrReadsTheCsr : Prop :=
  (∀ csr : Byte, decode (0x01#8 ++ 0#16 ++ csr : Word)
    = if csr.toNat ≤ 2 then .ok (.csrr csr) else .illegal .noSuchCsr) ∧
  ∀ s : State,
    (∃ t, exec (.csrr 0) s = .next t ∧ AnswersOnly (if s.f then 1 else 0) s t) ∧
    (∃ t, exec (.csrr 1) s = .next t ∧ AnswersOnly (0#4 ++ s.fcode) s t) ∧
    (∃ t, exec (.csrr 2) s = .next t ∧ AnswersOnly s.fop s t) ∧
    (s.inv = true → s.f = false → (0#4 ++ s.fcode : Byte) = 0 ∧ s.fop = 0)

/-- CLRF (R82). -/
def Obligations.ClrfClearsTheFaultRegisters : Prop :=
  (∀ w, decode w = .ok .clrf ↔ w = 0x02000000#32) ∧
  ∀ s : State, ∃ t, exec .clrf s = .next t ∧ t.f = false ∧ t.fcode = 0 ∧ t.fop = 0 ∧ t.faultPin = false ∧
    RegsSame s t ∧ CellsSame s t ∧ t.rsp = some (response false 0 0) ∧ t.inputs = s.inputs ∧
    (s.inv = true → s.f = false → FaultRegsSame s t)

/-- RDR (R83), LDI (R84) and MOV (R85). -/
def Obligations.RegisterMoveResults : Prop :=
  (∀ ra : Reg, decode (0x03#8 ++ 0#8 ++ 0#4 ++ ra ++ 0#8 : Word) = .ok (.rdr ra)) ∧
  (∀ (rd : Reg) (imm8 : Byte), decode (0x08#8 ++ 0#4 ++ rd ++ 0#8 ++ imm8 : Word) = .ok (.ldi rd imm8)) ∧
  (∀ rd ra : Reg, decode (0x09#8 ++ 0#4 ++ rd ++ 0#4 ++ ra ++ 0#8 : Word) = .ok (.mov rd ra)) ∧
  ∀ s : State,
    (s.f = false →
      (∀ ra, ∃ t, exec (.rdr ra) s = .next t ∧ AnswersOnly (s.reg ra) s t) ∧
      (∀ rd imm8, ∃ t, exec (.ldi rd imm8) s = .next t ∧ WritesReg rd imm8 s t) ∧
      (∀ rd ra, ∃ t, exec (.mov rd ra) s = .next t ∧ WritesReg rd (s.reg ra) s t)) ∧
    (s.f = true → ∀ ra, ∃ t, exec (.rdr ra) s = .next t ∧ Refused s t)

/-! ## Buffer access -/

/-- LDC (R91), LDX (R94), LDY (R97) and LDM (R100): the cell's byte, or some byte when the cell is unspecified. -/
def Obligations.LoadsReadTheirCell : Prop :=
  (∀ (rd : Reg) (k : Byte),
    decode (0x20#8 ++ 0#4 ++ rd ++ 0#8 ++ k : Word) = .ok (.ldc rd k) ∧
    decode (0x24#8 ++ 0#4 ++ rd ++ 0#8 ++ k : Word) = .ok (.ldx rd k) ∧
    decode (0x28#8 ++ 0#4 ++ rd ++ 0#8 ++ k : Word) = .ok (.ldy rd k)) ∧
  (∀ (rd : Reg) (b : Bank) (r c : Byte), decode (0x2C#8 ++ b ++ 0#2 ++ rd ++ r ++ c : Word) = .ok (.ldm rd b r c)) ∧
  ∀ s : State, s.f = false → ∀ rd : Reg,
    (∀ k : Byte, ∃ v t, (∀ x, s.cell? .coef k.toNat = some x → v = x) ∧
      exec (.ldc rd k) s = .next t ∧ WritesReg rd v s t) ∧
    (∀ k : Byte, ∃ v t, (∀ x, s.cell? .px k.toNat = some x → v = x) ∧
      exec (.ldx rd k) s = .next t ∧ WritesReg rd v s t) ∧
    (∀ k : Byte, ∃ v t, (∀ x, s.cell? .py k.toNat = some x → v = x) ∧
      exec (.ldy rd k) s = .next t ∧ WritesReg rd v s t) ∧
    (∀ (b : Bank) (r c : Byte), ∃ v t, (∀ x, s.cell? (.mat b) (matIndex r.toNat c.toNat) = some x → v = x) ∧
      exec (.ldm rd b r c) s = .next t ∧ WritesReg rd v s t)

/-- STC (R92), STX (R95), STY (R98) and STM (R101): the register's byte goes to the cell named, and nowhere else. -/
def Obligations.RegisterStoresWriteTheirCell : Prop :=
  (∀ (ra : Reg) (k : Byte),
    decode (0x21#8 ++ 0#4 ++ ra ++ 0#8 ++ k : Word) = .ok (.stc ra k) ∧
    decode (0x25#8 ++ 0#4 ++ ra ++ 0#8 ++ k : Word) = .ok (.stx ra k) ∧
    decode (0x29#8 ++ 0#4 ++ ra ++ 0#8 ++ k : Word) = .ok (.sty ra k)) ∧
  (∀ (ra : Reg) (b : Bank) (r c : Byte), decode (0x2D#8 ++ b ++ 0#2 ++ ra ++ r ++ c : Word) = .ok (.stm ra b r c)) ∧
  ∀ s : State, s.f = false → ∀ ra : Reg,
    (∀ k : Byte, ∃ t, exec (.stc ra k) s = .next t ∧ StoresCell .coef k.toNat (s.reg ra) s t) ∧
    (∀ k : Byte, ∃ t, exec (.stx ra k) s = .next t ∧ StoresCell .px k.toNat (s.reg ra) s t) ∧
    (∀ k : Byte, ∃ t, exec (.sty ra k) s = .next t ∧ StoresCell .py k.toNat (s.reg ra) s t) ∧
    (∀ (b : Bank) (r c : Byte), ∃ t, exec (.stm ra b r c) s = .next t ∧
      StoresCell (.mat b) (matIndex r.toNat c.toNat) (s.reg ra) s t)

/-- STCI (R93), STXI (R96) and STYI (R99): the immediate goes to the cell named, and nowhere else. -/
def Obligations.ImmediateStoresWriteTheirCell : Prop :=
  (∀ k v : Byte,
    decode (0x22#8 ++ 0#8 ++ k ++ v : Word) = .ok (.stci k v) ∧
    decode (0x26#8 ++ 0#8 ++ k ++ v : Word) = .ok (.stxi k v) ∧
    decode (0x2A#8 ++ 0#8 ++ k ++ v : Word) = .ok (.styi k v)) ∧
  ∀ s : State, s.f = false → ∀ k v : Byte,
    (∃ t, exec (.stci k v) s = .next t ∧ StoresCell .coef k.toNat v s t) ∧
    (∃ t, exec (.stxi k v) s = .next t ∧ StoresCell .px k.toNat v s t) ∧
    (∃ t, exec (.styi k v) s = .next t ∧ StoresCell .py k.toNat v s t)

/-- A load returns the byte most recently stored to that cell (R39), in every writable space and from either kind of
store, and no other cell changes: the cells that commands can name are distinct (R30). -/
def Obligations.LoadReturnsTheLastStore : Prop :=
  (∀ k k' : Byte, k.toNat = k'.toNat → k = k') ∧
  (∀ r c r' c' : Byte, matIndex r.toNat c.toNat = matIndex r'.toNat c'.toNat → r = r' ∧ c = c') ∧
  ∀ (s : State) (ra rd : Reg) (k v : Byte), s.f = false →
    StoreThenLoad (.stc ra k) (.ldc rd k) .coef k.toNat (s.reg ra) rd s ∧
    StoreThenLoad (.stci k v) (.ldc rd k) .coef k.toNat v rd s ∧
    StoreThenLoad (.stx ra k) (.ldx rd k) .px k.toNat (s.reg ra) rd s ∧
    StoreThenLoad (.stxi k v) (.ldx rd k) .px k.toNat v rd s ∧
    StoreThenLoad (.sty ra k) (.ldy rd k) .py k.toNat (s.reg ra) rd s ∧
    StoreThenLoad (.styi k v) (.ldy rd k) .py k.toNat v rd s ∧
    (∀ (b : Bank) (r c : Byte),
      StoreThenLoad (.stm ra b r c) (.ldm rd b r c) (.mat b) (matIndex r.toNat c.toNat) (s.reg ra) rd s ∧
      ∃ t u, exec (.stm ra b r c) s = .next t ∧ exec (.ldm rd b r c) t = .next u ∧
        (∀ (b' : Bank) (r' c' : Byte), (b', r', c') ≠ (b, r, c) →
          u.cell? (.mat b') (matIndex r'.toNat c'.toNat) = s.cell? (.mat b') (matIndex r'.toNat c'.toNat)) ∧
        (∀ k, u.cell? .coef k = s.cell? .coef k ∧ u.cell? .px k = s.cell? .px k ∧ u.cell? .py k = s.cell? .py k))

/-! ## The ROM and the field -/

/-- EXP and LOG are the tables of the construction (R11, R12): EXP[e] is `x^e` in the field, each cell the doubling step
of the one before; LOG is the table R12's loop writes, the inverse of EXP over exponents 0..254, with LOG[0] never
written. -/
def Obligations.RomIsTheConstruction : Prop :=
  (expRom 0 = 1 ∧ ∀ e : Byte, e ≠ 255 →
    (expRom (e + 1)).toNat = if 256 ≤ 2 * (expRom e).toNat then ((2 * (expRom e).toNat) ^^^ 0x11D) % 256
      else 2 * (expRom e).toNat) ∧
  (∀ e : Byte, expRom e = mulX^[e.toNat] 1) ∧ expRom 255 = 1 ∧
  (∀ v : Byte, logTable[v.toNat]? = some (logRom v)) ∧
  (∀ v : Byte, v ≠ 0 → expRom (logRom v) = v ∧ (logRom v).toNat ≤ 254) ∧
  (∀ e : Byte, e ≠ 255 → expRom e ≠ 0 ∧ logRom (expRom e) = e) ∧
  logRom 0 = Config.log0 ∧ logRom 1 = 0 ∧ logRom 2 = 1

/-- `gf_mul` is the carry-less product reduced modulo 0x11D (R109). -/
def Obligations.GfMulIsTheCarrylessProduct : Prop := ∀ x y : Byte, gfMul x y = polyMul x y 8

/-- The field laws of R109, and the division of R108 as the inverse of multiplication. -/
def Obligations.FieldLaws : Prop :=
  (∀ x y, gfAdd x y = gfAdd y x) ∧ (∀ x y z, gfAdd (gfAdd x y) z = gfAdd x (gfAdd y z)) ∧
  (∀ x, gfAdd x 0 = x) ∧ (∀ x y, gfSub x y = gfAdd x y) ∧
  (∀ x y, gfMul x y = gfMul y x) ∧ (∀ x y z, gfMul (gfMul x y) z = gfMul x (gfMul y z)) ∧
  (∀ x, gfMul x 1 = x) ∧ (∀ x, gfMul x 0 = 0) ∧
  (∀ x y z, gfMul x (gfAdd y z) = gfAdd (gfMul x y) (gfMul x z)) ∧
  (∀ x y, gfMul x y = 0 → x = 0 ∨ y = 0) ∧
  (∀ x, gfDiv x 0 = .error .divisionByZero) ∧
  (∀ x y q, y ≠ 0 → (gfDiv x y = .ok q ↔ gfMul q y = x))

/-- The source's field laws, and their form as commands (R116). -/
def Obligations.SourceFieldLaws : Prop :=
  (∀ x : Byte, x ≠ 0 → ∃ q, gfDiv 1 x = .ok q ∧ gfMul x q = 1) ∧
  (∀ x y : Byte, gfAdd (gfAdd x y) y = x) ∧
  (∀ x : Byte, gfDiv x 0 = .error .divisionByZero) ∧
  (∀ x : Byte, gfMul x 0 = 0) ∧
  (∀ (s : State) (x : Byte), s.f = false → x ≠ 0 →
    ∃ t, execAll [.ldi 1 1, .ldi 2 x, .fdiv 3 1 2, .fmul 4 2 3] s = .next t ∧ t.f = false ∧ t.reg 4 = 1)

/-- FADD (R110) and FSUB (R111): the exclusive or, by the two encodings. -/
def Obligations.FaddFsubXor : Prop :=
  (∀ rd ra rb : Reg,
    decode (0x10#8 ++ 0#4 ++ rd ++ 0#4 ++ ra ++ 0#4 ++ rb : Word) = .ok (.fadd rd ra rb) ∧
    decode (0x11#8 ++ 0#4 ++ rd ++ 0#4 ++ ra ++ 0#4 ++ rb : Word) = .ok (.fsub rd ra rb)) ∧
  (∀ x y : Byte, gfAdd (gfAdd x y) y = x) ∧
  ∀ (s : State) (rd ra rb : Reg), s.f = false →
    (∃ t, exec (.fadd rd ra rb) s = .next t ∧ WritesReg rd (s.reg ra ^^^ s.reg rb) s t) ∧
    (∃ t, exec (.fsub rd ra rb) s = .next t ∧ WritesReg rd (s.reg ra ^^^ s.reg rb) s t)

/-- FMUL (R112). -/
def Obligations.FmulWritesTheProduct : Prop :=
  (∀ rd ra rb : Reg, decode (0x12#8 ++ 0#4 ++ rd ++ 0#4 ++ ra ++ 0#4 ++ rb : Word) = .ok (.fmul rd ra rb)) ∧
  (∀ x : Byte, gfMul x 0 = 0 ∧ gfMul 0 x = 0) ∧
  (∀ x : Byte, x ≠ 0 → ∃ q, gfDiv 1 x = .ok q ∧ gfMul x q = 1) ∧
  ∀ (s : State) (rd ra rb : Reg), s.f = false →
    ∃ t, exec (.fmul rd ra rb) s = .next t ∧ WritesReg rd (gfMul (s.reg ra) (s.reg rb)) s t

/-- FDIV (R113): the quotient, or DivisionByZero when the divisor is zero, whatever the dividend. -/
def Obligations.FdivDividesOrFaults : Prop :=
  (∀ rd ra rb : Reg, decode (0x13#8 ++ 0#4 ++ rd ++ 0#4 ++ ra ++ 0#4 ++ rb : Word) = .ok (.fdiv rd ra rb)) ∧
  ∀ (s : State) (rd ra rb : Reg), s.f = false →
    (s.reg rb ≠ 0 → ∃ v t, gfDiv (s.reg ra) (s.reg rb) = .ok v ∧ exec (.fdiv rd ra rb) s = .next t ∧
      WritesReg rd v s t ∧ (s.reg ra = 0 → v = 0) ∧ (ra = rb → v = 1)) ∧
    (s.reg rb = 0 → ∃ t, exec (.fdiv rd ra rb) s = .next t ∧ RaisesOnly .divisionByZero 0x13 s t)

/-- FEXP (R114) and FLOG (R115): the ROM cell named by the register; a zero operand of FLOG reads the open `LOG0`. -/
def Obligations.RomPortsReadTheirCell : Prop :=
  (∀ rd ra : Reg,
    decode (0x14#8 ++ 0#4 ++ rd ++ 0#4 ++ ra ++ 0#8 : Word) = .ok (.fexp rd ra) ∧
    decode (0x15#8 ++ 0#4 ++ rd ++ 0#4 ++ ra ++ 0#8 : Word) = .ok (.flog rd ra)) ∧
  ∀ (s : State) (rd ra : Reg), s.f = false →
    (∃ t, exec (.fexp rd ra) s = .next t ∧ WritesReg rd (expRom (s.reg ra)) s t ∧ expRom (s.reg ra) ≠ 0 ∧
      (s.reg ra = 255 → t.reg rd = 1)) ∧
    (∃ v t, exec (.flog rd ra) s = .next t ∧ WritesReg rd v s t ∧ v = logRom (s.reg ra) ∧
      (s.reg ra = 0 → v = Config.log0) ∧ (s.reg ra ≠ 0 → v.toNat ≤ 254 ∧ expRom v = s.reg ra) ∧
      (s.reg ra = 1 → v = 0))

/-! ## The polynomial engines -/

/-- Horner's value is the field sum of `a[k] * x^k` for k in 0..d, whichever way the accumulator starts (R122). -/
def Obligations.HornerIsThePolynomialSum : Prop :=
  ∀ (a : Nat → Byte) (d : Nat) (x : Byte),
    polyEval a d x = (List.range (d + 1)).foldl (fun acc k => gfAdd acc (gfMul (a k) (gfPow x k))) 0 ∧
    hornerLoop a x (d + 1) 0 = polyEval a d x ∧ polyEval a d 0 = a 0 ∧ polyEval a 0 x = a 0

/-- PEVAL (R123): the polynomial of COEF[0..d] at r[ra]; every degree is legal, no fault. -/
def Obligations.PevalEvaluates : Prop :=
  (∀ (rd ra : Reg) (d : Byte), decode (0x30#8 ++ 0#4 ++ rd ++ 0#4 ++ ra ++ d : Word) = .ok (.peval rd ra d)) ∧
  ∀ (s : State) (rd ra : Reg) (d : Byte), s.f = false →
    ∃ a t, Reads s .coef (d.toNat + 1) a ∧ exec (.peval rd ra d) s = .next t ∧
      WritesReg rd (polyEval a d.toNat (s.reg ra)) s t

/-- The interpolation raises DivisionByZero exactly when two of the `n` points share an x, whatever x and the y values
are; otherwise it has a value, which at a sample point is that point's y (R124). -/
def Obligations.LagrangeFaultsExactlyOnDuplicates : Prop :=
  ∀ (px py : Nat → Byte) (n : Nat) (x : Byte), 1 ≤ n →
    (lagrange px py n x = .error .divisionByZero ↔ ¬ Distinct px n) ∧
    (Distinct px n → (∃ v, lagrange px py n x = .ok v) ∧ ∀ i, i < n → lagrange px py n (px i) = .ok (py i)) ∧
    lagrange px py 1 x = .ok (py 0)

/-- LINTERP (R125): InvalidArgument on a zero count; else the interpolation of the points read, written to rd (at a
sample point that point's y), or its DivisionByZero with rd left alone. That an unspecified PX cell is one byte for the
whole command is the model's inference, log entry 6; with PX written the statement rests on no log entry. -/
def Obligations.LinterpInterpolatesOrFaults : Prop :=
  (∀ (rd ra : Reg) (n : Byte), decode (0x31#8 ++ 0#4 ++ rd ++ 0#4 ++ ra ++ n : Word) = .ok (.linterp rd ra n)) ∧
  ∀ (s : State) (rd ra : Reg) (n : Byte), s.f = false →
    (n = 0 → ∃ t, exec (.linterp rd ra n) s = .next t ∧ RaisesOnly .invalidArgument 0x31 s t) ∧
    (n ≠ 0 → ∃ px py, Reads s .px n.toNat px ∧ Reads s .py n.toNat py ∧
      (Distinct px n.toNat → ∃ v t, lagrange px py n.toNat (s.reg ra) = .ok v ∧
        exec (.linterp rd ra n) s = .next t ∧ WritesReg rd v s t ∧ ∀ i, i < n.toNat → px i = s.reg ra → v = py i) ∧
      (¬ Distinct px n.toNat → ∃ t, exec (.linterp rd ra n) s = .next t ∧ RaisesOnly .divisionByZero 0x31 s t))

/-- LINTERP completes whenever the x cells it reads are written and distinct; at a sample point the result is that
point's y (R125). -/
def Obligations.LinterpCompletesOnDistinctPoints : Prop :=
  ∀ (s : State) (rd ra : Reg) (n : Byte) (px : Nat → Byte), s.f = false → n ≠ 0 →
    Written s .px n.toNat px → Distinct px n.toNat →
    ∃ v t, exec (.linterp rd ra n) s = .next t ∧ WritesReg rd v s t ∧
      ∀ i y, i < n.toNat → s.reg ra = px i → s.cell? .py i = some y → v = y

/-- The two engines agree: points taken from a polynomial of degree at most n-1 interpolate to that polynomial at every
x (R126, which the spec derives from R122 and R124). -/
def Obligations.EnginesAgree : Prop :=
  ∀ (a px py : Nat → Byte) (d n : Nat) (x : Byte), d + 1 ≤ n → Distinct px n →
    (∀ i, i < n → py i = polyEval a d (px i)) → lagrange px py n x = .ok (polyEval a d x)

/-- What PEVAL and LINTERP read: two states that agree on the cells and the register named give the same result and the
same fault, whatever else they hold (R38). -/
def Obligations.PolynomialEnginesReadOnlyTheirCells : Prop :=
  (∀ (s₁ s₂ t₁ t₂ : State) (rd ra : Reg) (d : Byte) (a : Nat → Byte), s₁.f = false → s₂.f = false →
    Written s₁ .coef (d.toNat + 1) a → Written s₂ .coef (d.toNat + 1) a → s₁.reg ra = s₂.reg ra →
    exec (.peval rd ra d) s₁ = .next t₁ → exec (.peval rd ra d) s₂ = .next t₂ → t₁.reg rd = t₂.reg rd) ∧
  (∀ (s₁ s₂ t₁ t₂ : State) (rd ra : Reg) (n : Byte) (px py : Nat → Byte), s₁.f = false → s₂.f = false →
    Written s₁ .px n.toNat px → Written s₂ .px n.toNat px → Written s₁ .py n.toNat py → Written s₂ .py n.toNat py →
    s₁.reg ra = s₂.reg ra → exec (.linterp rd ra n) s₁ = .next t₁ → exec (.linterp rd ra n) s₂ = .next t₂ →
    t₁.f = t₂.f ∧ (t₁.f = false → t₁.reg rd = t₂.reg rd) ∧ (t₁.f = true → t₁.fcode = t₂.fcode))

/-! ## The matrix engine -/

/-- MBUILD (R132): row `i` of bank 0 is `[x_i^(n-1), ..., x_i, 1 | y_i]`, nothing else changes, no fault but on a zero
count. On unspecified PX or PY cells, that a row is the powers of one byte and that its cells are specified afterwards
are the model's inferences, log entries 6 and 7. -/
def Obligations.MbuildBuildsTheSystem : Prop :=
  (∀ n : Byte, decode (0x40#8 ++ 0#16 ++ n : Word) = .ok (.mbuild n)) ∧
  ∀ (s : State) (n : Byte), s.f = false →
    (n = 0 → ∃ t, exec (.mbuild n) s = .next t ∧ RaisesOnly .invalidArgument 0x40 s t) ∧
    (n ≠ 0 → ∃ px py t, Reads s .px n.toNat px ∧ Reads s .py n.toNat py ∧ exec (.mbuild n) s = .next t ∧
      WritesCells (BlocksOf (· = 0) n.toNat) s t ∧
      ∀ i, i < n.toNat →
        (∀ c, c < n.toNat → t.cell? (.mat 0) (matIndex i c) = some (gfPow (px i) (n.toNat - 1 - c))) ∧
        t.cell? (.mat 0) (matIndex i n.toNat) = some (py i))

/-- MFWD (R134): `fwd_elim` of bank 0's block into bank 1's, or its SingularMatrix with that block unspecified. When it
fails is ForwardEliminationFailsExactlyOnAZeroColumn. That bank 1's block is specified even when bank 0's is not is the
model's inference, log entry 7. -/
def Obligations.MfwdRunsForwardElimination : Prop :=
  (∀ n : Byte, decode (0x41#8 ++ 0#16 ++ n : Word) = .ok (.mfwd n)) ∧
  ∀ (s : State) (n : Byte), s.f = false →
    (n = 0 → ∃ t, exec (.mfwd n) s = .next t ∧ RaisesOnly .invalidArgument 0x41 s t) ∧
    (n ≠ 0 → ∃ M, ReadsBlock s 0 n.toNat M ∧
      (∀ W, fwdElim M n.toNat = .ok W → ∃ t, exec (.mfwd n) s = .next t ∧ HoldsBlock t 1 n.toNat W ∧
        WritesCells (BlocksOf (· = 1) n.toNat) s t) ∧
      (∀ k, fwdElim M n.toNat = .error k → k = .singularMatrix ∧
        ∃ t, exec (.mfwd n) s = .next t ∧ RaisesForgetting (BlocksOf (· = 1) n.toNat) .singularMatrix 0x41 s t))

/-- MBACK (R136): `back_subst` of bank 1's block into bank 2's, or its DivisionByZero with that block unspecified. When it
fails is BackwardSubstitutionClearsAbove. That bank 2's block is specified even when bank 1's is not is the model's
inference, log entry 7. -/
def Obligations.MbackRunsBackwardSubstitution : Prop :=
  (∀ n : Byte, decode (0x42#8 ++ 0#16 ++ n : Word) = .ok (.mback n)) ∧
  ∀ (s : State) (n : Byte), s.f = false →
    (n = 0 → ∃ t, exec (.mback n) s = .next t ∧ RaisesOnly .invalidArgument 0x42 s t) ∧
    (n ≠ 0 → ∃ M, ReadsBlock s 1 n.toNat M ∧
      (∀ W, backSubst M n.toNat = .ok W → ∃ t, exec (.mback n) s = .next t ∧ HoldsBlock t 2 n.toNat W ∧
        WritesCells (BlocksOf (· = 2) n.toNat) s t) ∧
      (∀ k, backSubst M n.toNat = .error k → k = .divisionByZero ∧
        ∃ t, exec (.mback n) s = .next t ∧ RaisesForgetting (BlocksOf (· = 2) n.toNat) .divisionByZero 0x42 s t))

/-- MNORM (R138): `normalize` of bank 2's block into bank 3's, or its DivisionByZero, raised exactly when a diagonal
entry is zero, with that block unspecified. On unspecified bank 2 cells, that a diagonal entry is one byte for the whole
command and that bank 3's block is specified afterwards are the model's inferences, log entries 6 and 7. -/
def Obligations.MnormRunsNormalization : Prop :=
  (∀ n : Byte, decode (0x43#8 ++ 0#16 ++ n : Word) = .ok (.mnorm n)) ∧
  ∀ (s : State) (n : Byte), s.f = false →
    (n = 0 → ∃ t, exec (.mnorm n) s = .next t ∧ RaisesOnly .invalidArgument 0x43 s t) ∧
    (n ≠ 0 → ∃ M, ReadsBlock s 2 n.toNat M ∧
      ((∀ i, i < n.toNat → entry M i i ≠ 0) → ∃ W t, normalize M = .ok W ∧ exec (.mnorm n) s = .next t ∧
        HoldsBlock t 3 n.toNat W ∧ WritesCells (BlocksOf (· = 3) n.toNat) s t) ∧
      ((∃ i, i < n.toNat ∧ entry M i i = 0) →
        ∃ t, exec (.mnorm n) s = .next t ∧ RaisesForgetting (BlocksOf (· = 3) n.toNat) .divisionByZero 0x43 s t))

/-- MSOLVE (R139): the three stages in order from bank 0's block; it stops at the first stage that faults, the banks of
the stages that completed hold their results, the blocks of the others are unspecified, and FOP is 0x44.
That the banks written are specified even when bank 0's block is not is the model's inference, log entry 7. -/
def Obligations.MsolveRunsTheThreeStages : Prop :=
  (∀ n : Byte, decode (0x44#8 ++ 0#16 ++ n : Word) = .ok (.msolve n)) ∧
  ∀ (s : State) (n : Byte), s.f = false →
    (n = 0 → ∃ t, exec (.msolve n) s = .next t ∧ RaisesOnly .invalidArgument 0x44 s t) ∧
    (n ≠ 0 → ∃ M, ReadsBlock s 0 n.toNat M ∧
      (∀ W₁ W₂ W₃, fwdElim M n.toNat = .ok W₁ → backSubst W₁ n.toNat = .ok W₂ → normalize W₂ = .ok W₃ →
        ∃ t, exec (.msolve n) s = .next t ∧ HoldsBlock t 1 n.toNat W₁ ∧ HoldsBlock t 2 n.toNat W₂ ∧
          HoldsBlock t 3 n.toNat W₃ ∧ WritesCells (BlocksOf (· ≠ 0) n.toNat) s t) ∧
      (∀ k, fwdElim M n.toNat = .error k → k = .singularMatrix ∧ ∃ t, exec (.msolve n) s = .next t ∧
        RaisesForgetting (BlocksOf (· ≠ 0) n.toNat) .singularMatrix 0x44 s t) ∧
      (∀ W₁ k, fwdElim M n.toNat = .ok W₁ → backSubst W₁ n.toNat = .error k → k = .divisionByZero ∧
        ∃ t, exec (.msolve n) s = .next t ∧ Raises .divisionByZero 0x44 s t ∧ HoldsBlock t 1 n.toNat W₁ ∧
          CellsSameBut (BlocksOf (· ≠ 0) n.toNat) s t ∧ Forgotten (BlocksOf (fun b => b = 2 ∨ b = 3) n.toNat) t) ∧
      (∀ W₁ W₂ k, fwdElim M n.toNat = .ok W₁ → backSubst W₁ n.toNat = .ok W₂ → normalize W₂ = .error k →
        k = .divisionByZero ∧
        ∃ t, exec (.msolve n) s = .next t ∧ Raises .divisionByZero 0x44 s t ∧ HoldsBlock t 1 n.toNat W₁ ∧
          HoldsBlock t 2 n.toNat W₂ ∧ CellsSameBut (BlocksOf (· ≠ 0) n.toNat) s t ∧
          Forgotten (BlocksOf (· = 3) n.toNat) t))

/-- MEXT (R140): column n of bank 3, bottom row first, into COEF[0..n-1]. That `COEF[k]` is specified even when its bank 3
cell is not is the model's inference, log entry 7. -/
def Obligations.MextCopiesTheSolution : Prop :=
  (∀ n : Byte, decode (0x45#8 ++ 0#16 ++ n : Word) = .ok (.mext n)) ∧
  ∀ (s : State) (n : Byte), s.f = false →
    (n = 0 → ∃ t, exec (.mext n) s = .next t ∧ RaisesOnly .invalidArgument 0x45 s t) ∧
    (n ≠ 0 → ∃ (sol : Nat → Byte) (t : State),
      (∀ i, i < n.toNat → ∀ x, s.cell? (.mat 3) (matIndex i n.toNat) = some x → sol i = x) ∧
      exec (.mext n) s = .next t ∧ (∀ k, k < n.toNat → t.cell? .coef k = some (sol (n.toNat - 1 - k))) ∧
      WritesCells (fun sp a => sp = .coef ∧ a < n.toNat) s t)

/-- The stages complete on a written input without the defect each stage reports: a block `fwd_elim` succeeds on; a
block with nonzero diagonal for back_subst and normalize; and all three for MSOLVE. -/
def Obligations.StagesCompleteOnSoundInput : Prop :=
  ∀ (s : State) (n : Byte) (M : Mat), s.f = false → n ≠ 0 →
    (HoldsBlock s 0 n.toNat M → (∃ W, fwdElim M n.toNat = .ok W) →
      ∃ t, exec (.mfwd n) s = .next t ∧ t.f = false ∧ WritesCells (BlocksOf (· = 1) n.toNat) s t) ∧
    (HoldsBlock s 1 n.toNat M → (∀ i, i < n.toNat → entry M i i ≠ 0) →
      ∃ t, exec (.mback n) s = .next t ∧ t.f = false ∧ WritesCells (BlocksOf (· = 2) n.toNat) s t) ∧
    (HoldsBlock s 2 n.toNat M → (∀ i, i < n.toNat → entry M i i ≠ 0) →
      ∃ t, exec (.mnorm n) s = .next t ∧ t.f = false ∧ WritesCells (BlocksOf (· = 3) n.toNat) s t) ∧
    (HoldsBlock s 0 n.toNat M →
      (∃ W, fwdElim M n.toNat = .ok W ∧ ∀ i, i < n.toNat → entry W i i ≠ 0) →
      ∃ t, exec (.msolve n) s = .next t ∧ t.f = false ∧ WritesCells (BlocksOf (· ≠ 0) n.toNat) s t)

/-- `fwd_elim` (R133): its only failure is SingularMatrix; its result is upper triangular with nonzero diagonal entries
in rows 0..n-2; a matrix already of that form comes back unchanged. -/
def Obligations.ForwardEliminationTriangulates : Prop :=
  ∀ (M : Mat) (n : Nat), Shape M n → 1 ≤ n →
    (∀ k, fwdElim M n = .error k → k = .singularMatrix) ∧
    (∀ W, fwdElim M n = .ok W → Shape W n ∧ (∀ i j, i < j → j < n → entry W j i = 0) ∧
      ∀ i, i + 1 < n → entry W i i ≠ 0) ∧
    ((∀ i j, i < j → j < n → entry M j i = 0) → (∀ i, i + 1 < n → entry M i i ≠ 0) → fwdElim M n = .ok M)

/-- One pivot of `fwd_elim` (R133 and its point (a)), and the pivots in order: the pivot row stays when its diagonal entry
is nonzero, else it is swapped, whole, with the least row below that has a nonzero entry in its column; then every row
below loses its multiple `W[j][i]/W[i][i]` of the pivot row, in every column, and the other rows stay. -/
def Obligations.PivotTakesTheFirstRowAndClearsBelow : Prop :=
  ∀ (W : Mat) (n i : Nat), Shape W n → i < n →
    (entry W i i ≠ 0 → choosePivot n i W = .ok W) ∧
    (∀ p, entry W i i = 0 → i < p → p < n → entry W p i ≠ 0 → (∀ r, i < r → r < p → entry W r i = 0) →
      ∃ W', choosePivot n i W = .ok W' ∧ Shape W' n ∧ ∀ r c, r < n → c ≤ n →
        entry W' r c = if r = i then entry W p c else if r = p then entry W i c else entry W r c) ∧
    (choosePivot n i W = .error .singularMatrix ↔ ∀ r, i ≤ r → r < n → entry W r i = 0) ∧
    (entry W i i ≠ 0 → ∃ W', elimBelow i W = .ok W' ∧ Shape W' n ∧ ∀ r c, r < n → c ≤ n →
      (r ≤ i → entry W' r c = entry W r c) ∧
      (i < r → ∀ q, gfDiv (entry W r i) (entry W i i) = .ok q →
        entry W' r c = gfSub (entry W r c) (gfMul q (entry W i c)))) ∧
    fwdLoop n (List.range (i + 1)) W
      = (do let W ← fwdLoop n (List.range i) W; let W ← choosePivot n i W; elimBelow i W)

/-- When `fwd_elim`, and so MFWD on a written block, raises SingularMatrix (R133 point (c), R134, R162): exactly when for
some pivot column `i` in 0..n-2 the column is zero from row `i` down, which is exactly when columns 0..n-2 of the input
are linearly dependent. -/
def Obligations.ForwardEliminationFailsExactlyOnAZeroColumn : Prop :=
  (∀ (M : Mat) (n : Nat), Shape M n → 1 ≤ n →
    (fwdElim M n = .error .singularMatrix ↔ MeetsAZeroColumn M n) ∧ (MeetsAZeroColumn M n ↔ DependentColumns M n)) ∧
  ∀ (s : State) (n : Byte) (M : Mat), s.f = false → n ≠ 0 → HoldsBlock s 0 n.toNat M →
    (MeetsAZeroColumn M n.toNat → ∃ t, exec (.mfwd n) s = .next t ∧
      RaisesForgetting (BlocksOf (· = 1) n.toNat) .singularMatrix 0x41 s t) ∧
    (¬ MeetsAZeroColumn M n.toNat → ∃ W t, fwdElim M n.toNat = .ok W ∧ exec (.mfwd n) s = .next t ∧
      HoldsBlock t 1 n.toNat W ∧ WritesCells (BlocksOf (· = 1) n.toNat) s t)

/-- `fwd_elim` subtracts multiples of rows from rows and swaps rows, so it keeps the solutions of the system (R133). -/
def Obligations.ForwardEliminationKeepsTheSolutions : Prop :=
  ∀ (M W : Mat) (n : Nat) (v : Nat → Byte), Shape M n → fwdElim M n = .ok W →
    ((∀ i, i < n → (List.range n).foldl (fun acc c => gfAdd acc (gfMul (entry M i c) (v c))) 0 = entry M i n) ↔
      (∀ i, i < n → (List.range n).foldl (fun acc c => gfAdd acc (gfMul (entry W i c) (v c))) 0 = entry W i n))

/-- `back_subst` (R135): it raises DivisionByZero exactly when some diagonal entry is zero under a nonzero entry; else
the entries above the diagonal become zero, those on and below it stay, and in the last column row `j` loses, for each
row `i` below it, the multiple `M[j][i]/M[i][i]` of row `i`'s final entry (no multiple where `M[j][i]` is zero). So on an
upper triangular input with nonzero diagonal the solutions of the system stay. -/
def Obligations.BackwardSubstitutionClearsAbove : Prop :=
  ∀ (M : Mat) (n : Nat), Shape M n → 1 ≤ n →
    ((∃ k, backSubst M n = .error k) ↔ ∃ i j, j < i ∧ i < n ∧ entry M i i = 0 ∧ entry M j i ≠ 0) ∧
    (∀ k, backSubst M n = .error k → k = .divisionByZero) ∧
    (∀ W, backSubst M n = .ok W → Shape W n ∧
      (∀ j c, j < n → c < n → entry W j c = if j < c then 0 else entry M j c) ∧
      (∀ j, j < n → ∃ q : Nat → Byte,
        (∀ i, j < i → i < n →
          if entry M j i = 0 then q i = 0 else gfDiv (entry M j i) (entry M i i) = .ok (q i)) ∧
        entry W j n
          = (List.range' (j + 1) (n - 1 - j)).foldl (fun acc i => gfSub acc (gfMul (q i) (entry W i n))) (entry M j n)) ∧
      ((∀ i j, i < j → j < n → entry M j i = 0) → (∀ i, i < n → entry M i i ≠ 0) → ∀ v : Nat → Byte,
        ((∀ i, i < n → rowTimes M i n v = entry M i n) ↔ ∀ i, i < n → rowTimes W i n v = entry W i n)))

/-- `normalize` (R137): it raises DivisionByZero exactly when a diagonal entry is zero; else every entry times its row's
diagonal is the entry before, so a diagonal matrix becomes the identity. -/
def Obligations.NormalizationDividesByTheDiagonal : Prop :=
  ∀ (M : Mat) (n : Nat), Shape M n →
    ((∃ k, normalize M = .error k) ↔ ∃ i, i < n ∧ entry M i i = 0) ∧
    (∀ k, normalize M = .error k → k = .divisionByZero) ∧
    (∀ W, normalize M = .ok W → Shape W n ∧
      (∀ i c, i < n → c ≤ n → gfMul (entry W i c) (entry M i i) = entry M i c) ∧
      ((∀ i c, i < n → c < n → i ≠ c → entry M i c = 0) →
        ∀ i c, i < n → c < n → entry W i c = if i = c then 1 else 0))

/-- MSOLVE is `MFWD n; MBACK n; MNORM n` as one command: the same banks, registers and response when it completes, the
same fault code when a stage faults, with FOP 0x44 (R139). With bank 0's block unspecified the two runs agree by the
model's choice only: both meet the same free bytes, and keep what they computed from them (log entries 5 and 7). -/
def Obligations.MsolveIsTheThreeCommands : Prop :=
  ∀ (s t : State) (n : Byte), s.f = false → n ≠ 0 → execAll [.mfwd n, .mback n, .mnorm n] s = .next t →
    ∃ u, exec (.msolve n) s = .next u ∧ u.f = t.f ∧ u.fcode = t.fcode ∧ RegsSame t u ∧ u.rsp = t.rsp ∧
      (t.f = false → CellsSame t u ∧ u.fop = t.fop) ∧ (t.f = true → u.fop = 0x44)

/-- What a faulted matrix command leaves (R141): its block, and for MSOLVE the later stages' blocks, unspecified;
everything else but the fault registers as before; the banks of the stages that completed hold their results (R139). A
zero count writes nothing, and MBUILD and MEXT raise nothing else. That a completed stage's bank is specified even when
bank 0's block is not is the model's inference, log entry 7. -/
def Obligations.FaultedStageLeavesOnlyItsBlock : Prop :=
  ∀ (s t : State) (n : Byte), s.f = false → t.f = true →
    (n ≠ 0 → exec (.mfwd n) s = .next t →
      CellsSameBut (BlocksOf (· = 1) n.toNat) s t ∧ Forgotten (BlocksOf (· = 1) n.toNat) t ∧ RegsSame s t) ∧
    (n ≠ 0 → exec (.mback n) s = .next t →
      CellsSameBut (BlocksOf (· = 2) n.toNat) s t ∧ Forgotten (BlocksOf (· = 2) n.toNat) t ∧ RegsSame s t) ∧
    (n ≠ 0 → exec (.mnorm n) s = .next t →
      CellsSameBut (BlocksOf (· = 3) n.toNat) s t ∧ Forgotten (BlocksOf (· = 3) n.toNat) t ∧ RegsSame s t) ∧
    (n ≠ 0 → exec (.msolve n) s = .next t →
      CellsSameBut (BlocksOf (· ≠ 0) n.toNat) s t ∧ RegsSame s t ∧ Forgotten (BlocksOf (· = 3) n.toNat) t ∧
      ∃ M, ReadsBlock s 0 n.toNat M ∧
        ((∃ k, fwdElim M n.toNat = .error k) → Forgotten (BlocksOf (· ≠ 0) n.toNat) t) ∧
        (∀ W, fwdElim M n.toNat = .ok W → HoldsBlock t 1 n.toNat W ∧
          ((∃ k, backSubst W n.toNat = .error k) → Forgotten (BlocksOf (· = 2) n.toNat) t) ∧
          (∀ W', backSubst W n.toNat = .ok W' → HoldsBlock t 2 n.toNat W'))) ∧
    (exec (.mbuild n) s = .next t ∨ exec (.mext n) s = .next t → n = 0 ∧ CellsSame s t ∧ RegsSame s t) ∧
    (n = 0 → exec (.mfwd n) s = .next t ∨ exec (.mback n) s = .next t ∨ exec (.mnorm n) s = .next t ∨
      exec (.msolve n) s = .next t → CellsSame s t ∧ RegsSame s t)

/-- A stage's output is a function of its input bank's block and of nothing else: two states with the same written input
block give the same fault or the same output blocks, for MSOLVE those of all three banks (R130). -/
def Obligations.StagesReadOnlyTheirInputBlock : Prop :=
  ∀ (s₁ s₂ t₁ t₂ : State) (n : Byte) (M : Mat) (i : Instr) (src dst : Bank), s₁.f = false → s₂.f = false → n ≠ 0 →
    (i, src, dst) ∈ [(Instr.mfwd n, (0 : Bank), (1 : Bank)), (.mback n, 1, 2), (.mnorm n, 2, 3),
      (.msolve n, 0, 1), (.msolve n, 0, 2), (.msolve n, 0, 3)] →
    HoldsBlock s₁ src n.toNat M → HoldsBlock s₂ src n.toNat M → exec i s₁ = .next t₁ → exec i s₂ = .next t₂ →
    t₁.f = t₂.f ∧ (t₁.f = true → t₁.fcode = t₂.fcode) ∧
      ∀ r c, r < n.toNat → c ≤ n.toNat →
        t₁.cell? (.mat dst) (matIndex r c) = t₂.cell? (.mat dst) (matIndex r c)

/-! ## Faults over all commands -/

/-- A point count of zero raises InvalidArgument in the seven commands that take one, and nothing else raises it; PEVAL
with degree zero completes (R163). -/
def Obligations.ZeroCountRaisesInvalidArgument : Prop :=
  (∀ s : State, s.f = false →
    (∀ rd ra, ∃ t, exec (.linterp rd ra 0) s = .next t ∧ RaisesOnly .invalidArgument 0x31 s t) ∧
    (∃ t, exec (.mbuild 0) s = .next t ∧ RaisesOnly .invalidArgument 0x40 s t) ∧
    (∃ t, exec (.mfwd 0) s = .next t ∧ RaisesOnly .invalidArgument 0x41 s t) ∧
    (∃ t, exec (.mback 0) s = .next t ∧ RaisesOnly .invalidArgument 0x42 s t) ∧
    (∃ t, exec (.mnorm 0) s = .next t ∧ RaisesOnly .invalidArgument 0x43 s t) ∧
    (∃ t, exec (.msolve 0) s = .next t ∧ RaisesOnly .invalidArgument 0x44 s t) ∧
    (∃ t, exec (.mext 0) s = .next t ∧ RaisesOnly .invalidArgument 0x45 s t) ∧
    (∀ rd ra, ∃ t, exec (.peval rd ra 0) s = .next t ∧ t.f = false)) ∧
  (∀ (w : Word) (s t : State), runWord w s = .next t → s.f = false → t.f = true → t.fcode = 3 →
    ∃ i, decode w = .ok i ∧ ((∃ rd ra, i = .linterp rd ra 0) ∨ i = .mbuild 0 ∨ i = .mfwd 0 ∨ i = .mback 0 ∨
      i = .mnorm 0 ∨ i = .msolve 0 ∨ i = .mext 0))

/-- Which command raises which fault (the table of R160, with R161 to R164): every fault latched by a word has one of
the four codes, records the word's opcode byte, and comes from a command named for it, or from an illegal word. -/
def Obligations.OnlyTheNamedCommandsFault : Prop :=
  ∀ (w : Word) (s t : State), runWord w s = .next t → s.f = false → t.f = true →
    t.fop = opField w ∧
    ((t.fcode = 4 ∧ ¬ LegalWord w) ∨
      ∃ i, decode w = .ok i ∧
        ((t.fcode = 1 ∧ ((∃ rd ra rb, i = .fdiv rd ra rb ∧ s.reg rb = 0) ∨ (∃ rd ra n, i = .linterp rd ra n) ∨
            (∃ n, i = .mback n) ∨ (∃ n, i = .mnorm n) ∨ (∃ n, i = .msolve n))) ∨
          (t.fcode = 2 ∧ ((∃ n, i = .mfwd n) ∨ (∃ n, i = .msolve n))) ∨
          (t.fcode = 3 ∧ ((∃ rd ra, i = .linterp rd ra 0) ∨ i = .mbuild 0 ∨ i = .mfwd 0 ∨ i = .mback 0 ∨
            i = .mnorm 0 ∨ i = .msolve 0 ∨ i = .mext 0))))

/-! ## The whole solve -/

/-- From points with distinct x, `MBUILD n; MSOLVE n; MEXT n` raises no fault and leaves in COEF[0..n-1] the polynomial
through the points, which agrees with the interpolator at every x (R143). -/
def Obligations.SolveRebuildsThePolynomial : Prop :=
  ∀ (s : State) (n : Byte) (px py : Nat → Byte), s.f = false → n ≠ 0 →
    Written s .px n.toNat px → Written s .py n.toNat py → Distinct px n.toNat →
    ∃ t a, execAll [.mbuild n, .msolve n, .mext n] s = .next t ∧ t.f = false ∧ Written t .coef n.toNat a ∧
      (∀ i, i < n.toNat → polyEval a (n.toNat - 1) (px i) = py i) ∧
      (∀ x, lagrange px py n.toNat x = .ok (polyEval a (n.toNat - 1) x))

/-- From points that share an x, `MBUILD n; MSOLVE n` always faults, with SingularMatrix or DivisionByZero (R143). -/
def Obligations.DuplicatePointsNeverSolve : Prop :=
  ∀ (s t : State) (n : Byte) (px : Nat → Byte), s.f = false → n ≠ 0 →
    Written s .px n.toNat px → ¬ Distinct px n.toNat → execAll [.mbuild n, .msolve n] s = .next t →
    t.f = true ∧ (t.fcode = FaultCode.singularMatrix.code ∨ t.fcode = FaultCode.divisionByZero.code)
end

