-- ==== Sys2Proof/Laws/Decode.lean ====
section
/-!
SUPPORT. The fields of a word laid out from its four bytes, and of a byte laid out from a specifier.
-/
namespace Sys2Proof

/-- Bits of a word laid out from its four bytes, byte by byte from the least significant. -/
theorem mkWord_getLsbD (op a b c : Byte) (i : Nat) :
    (mkWord op a b c).getLsbD i
      = if i < 8 then c.getLsbD i else if i < 16 then b.getLsbD (i - 8)
        else if i < 24 then a.getLsbD (i - 16) else op.getLsbD (i - 24) := by
  simp only [mkWord, BitVec.getLsbD_append]
  split
  · rfl
  · split
    · rw [if_pos (by omega)]
    · split
      · rw [if_neg (by omega), if_pos (by omega), Nat.sub_sub]
      · rw [if_neg (by omega), if_neg (by omega), Nat.sub_sub, Nat.sub_sub]

@[simp] theorem opField_mkWord (op a b c : Byte) : opField (mkWord op a b c) = op := by
  ext i hi
  simp only [opField, BitVec.getElem_extractLsb', mkWord_getLsbD]
  rw [if_neg (by omega), if_neg (by omega), if_neg (by omega), Nat.add_sub_cancel_left, BitVec.getLsbD_eq_getElem hi]

@[simp] theorem aField_mkWord (op a b c : Byte) : aField (mkWord op a b c) = a := by
  ext i hi
  simp only [aField, BitVec.getElem_extractLsb', mkWord_getLsbD]
  rw [if_neg (by omega), if_neg (by omega), if_pos (by omega), Nat.add_sub_cancel_left, BitVec.getLsbD_eq_getElem hi]

@[simp] theorem bField_mkWord (op a b c : Byte) : bField (mkWord op a b c) = b := by
  ext i hi
  simp only [bField, BitVec.getElem_extractLsb', mkWord_getLsbD]
  rw [if_neg (by omega), if_pos (by omega), Nat.add_sub_cancel_left, BitVec.getLsbD_eq_getElem hi]

@[simp] theorem cField_mkWord (op a b c : Byte) : cField (mkWord op a b c) = c := by
  ext i hi
  simp only [cField, BitVec.getElem_extractLsb', mkWord_getLsbD]
  rw [if_pos (by omega), Nat.zero_add, BitVec.getLsbD_eq_getElem hi]

/-- The register specifier of `A` is the low half of `A`. -/
theorem aReg_eq (w : Word) : aReg w = (aField w).extractLsb' 0 4 := by
  ext i hi
  simp [aReg, aField, BitVec.getElem_extractLsb', show i < 8 by omega]

/-- The register specifier of `B` is the low half of `B`. -/
theorem bReg_eq (w : Word) : bReg w = (bField w).extractLsb' 0 4 := by
  ext i hi
  simp [bReg, bField, BitVec.getElem_extractLsb', show i < 8 by omega]

/-- The register specifier of `C` is the low half of `C`. -/
theorem cReg_eq (w : Word) : cReg w = (cField w).extractLsb' 0 4 := by
  ext i hi
  simp [cReg, cField, BitVec.getElem_extractLsb']

/-- The bank is the top two bits of `A`. -/
theorem bankField_eq (w : Word) : bankField w = (aField w).extractLsb' 6 2 := by
  ext i hi
  simp [bankField, aField, BitVec.getElem_extractLsb', show 6 + i < 8 by omega,
    ← Nat.add_assoc]

@[simp] theorem regByte_low (r : Reg) : (regByte r).extractLsb' 0 4 = r := by
  revert r; decide

@[simp] theorem bankByte_low (b : Bank) (r : Reg) : (bankByte b r).extractLsb' 0 4 = r := by
  revert b r; decide

@[simp] theorem bankByte_bank (b : Bank) (r : Reg) : (bankByte b r).extractLsb' 6 2 = b := by
  revert b r; decide

end Sys2Proof
end

