-- ==== Sys2Proof/Laws/State.lean ====
section
/-!
SUPPORT. One lemma per field of the state per update, so that no proof unfolds a record update.
-/
namespace Sys2Proof.Machine

/-! ### `setReg`: `r[i] <- v` -/

@[simp] theorem State.setReg_regs (s : State) (i : Reg) (v : Byte) : (s.setReg i v).regs = s.regs.set i.toNat v i.isLt := rfl
@[simp] theorem State.setReg_f (s : State) (i : Reg) (v : Byte) : (s.setReg i v).f = s.f := rfl
@[simp] theorem State.setReg_fcode (s : State) (i : Reg) (v : Byte) : (s.setReg i v).fcode = s.fcode := rfl
@[simp] theorem State.setReg_fop (s : State) (i : Reg) (v : Byte) : (s.setReg i v).fop = s.fop := rfl
@[simp] theorem State.setReg_coef (s : State) (i : Reg) (v : Byte) : (s.setReg i v).coef = s.coef := rfl
@[simp] theorem State.setReg_px (s : State) (i : Reg) (v : Byte) : (s.setReg i v).px = s.px := rfl
@[simp] theorem State.setReg_py (s : State) (i : Reg) (v : Byte) : (s.setReg i v).py = s.py := rfl
@[simp] theorem State.setReg_mats (s : State) (i : Reg) (v : Byte) : (s.setReg i v).mats = s.mats := rfl
@[simp] theorem State.setReg_rsp (s : State) (i : Reg) (v : Byte) : (s.setReg i v).rsp = s.rsp := rfl
@[simp] theorem State.setReg_inputs (s : State) (i : Reg) (v : Byte) : (s.setReg i v).inputs = s.inputs := rfl
@[simp] theorem State.setReg_freeCount (s : State) (i : Reg) (v : Byte) : (s.setReg i v).freeCount = s.freeCount := rfl

/-! ### `latch`: the fault latch -/

@[simp] theorem State.latch_regs (s : State) (k : FaultCode) (op : Byte) : (s.latch k op).regs = s.regs := rfl
@[simp] theorem State.latch_f (s : State) (k : FaultCode) (op : Byte) : (s.latch k op).f = true := rfl
@[simp] theorem State.latch_fcode (s : State) (k : FaultCode) (op : Byte) : (s.latch k op).fcode = k.code := rfl
@[simp] theorem State.latch_fop (s : State) (k : FaultCode) (op : Byte) : (s.latch k op).fop = op := rfl
@[simp] theorem State.latch_coef (s : State) (k : FaultCode) (op : Byte) : (s.latch k op).coef = s.coef := rfl
@[simp] theorem State.latch_px (s : State) (k : FaultCode) (op : Byte) : (s.latch k op).px = s.px := rfl
@[simp] theorem State.latch_py (s : State) (k : FaultCode) (op : Byte) : (s.latch k op).py = s.py := rfl
@[simp] theorem State.latch_mats (s : State) (k : FaultCode) (op : Byte) : (s.latch k op).mats = s.mats := rfl
@[simp] theorem State.latch_rsp (s : State) (k : FaultCode) (op : Byte) : (s.latch k op).rsp = s.rsp := rfl
@[simp] theorem State.latch_inputs (s : State) (k : FaultCode) (op : Byte) : (s.latch k op).inputs = s.inputs := rfl
@[simp] theorem State.latch_freeCount (s : State) (k : FaultCode) (op : Byte) : (s.latch k op).freeCount = s.freeCount := rfl

/-! ### `unlatch`: unlocking -/

@[simp] theorem State.unlatch_regs (s : State) : (s.unlatch).regs = s.regs := rfl
@[simp] theorem State.unlatch_f (s : State) : (s.unlatch).f = false := rfl
@[simp] theorem State.unlatch_fcode (s : State) : (s.unlatch).fcode = 0 := rfl
@[simp] theorem State.unlatch_fop (s : State) : (s.unlatch).fop = 0 := rfl
@[simp] theorem State.unlatch_coef (s : State) : (s.unlatch).coef = s.coef := rfl
@[simp] theorem State.unlatch_px (s : State) : (s.unlatch).px = s.px := rfl
@[simp] theorem State.unlatch_py (s : State) : (s.unlatch).py = s.py := rfl
@[simp] theorem State.unlatch_mats (s : State) : (s.unlatch).mats = s.mats := rfl
@[simp] theorem State.unlatch_rsp (s : State) : (s.unlatch).rsp = s.rsp := rfl
@[simp] theorem State.unlatch_inputs (s : State) : (s.unlatch).inputs = s.inputs := rfl
@[simp] theorem State.unlatch_freeCount (s : State) : (s.unlatch).freeCount = s.freeCount := rfl

/-! ### `answer`: answering -/

@[simp] theorem State.answer_regs (s : State) (r : Rsp) : (s.answer r).regs = s.regs := rfl
@[simp] theorem State.answer_f (s : State) (r : Rsp) : (s.answer r).f = s.f := rfl
@[simp] theorem State.answer_fcode (s : State) (r : Rsp) : (s.answer r).fcode = s.fcode := rfl
@[simp] theorem State.answer_fop (s : State) (r : Rsp) : (s.answer r).fop = s.fop := rfl
@[simp] theorem State.answer_coef (s : State) (r : Rsp) : (s.answer r).coef = s.coef := rfl
@[simp] theorem State.answer_px (s : State) (r : Rsp) : (s.answer r).px = s.px := rfl
@[simp] theorem State.answer_py (s : State) (r : Rsp) : (s.answer r).py = s.py := rfl
@[simp] theorem State.answer_mats (s : State) (r : Rsp) : (s.answer r).mats = s.mats := rfl
@[simp] theorem State.answer_rsp (s : State) (r : Rsp) : (s.answer r).rsp = some r := rfl
@[simp] theorem State.answer_inputs (s : State) (r : Rsp) : (s.answer r).inputs = s.inputs := rfl
@[simp] theorem State.answer_freeCount (s : State) (r : Rsp) : (s.answer r).freeCount = s.freeCount := rfl

/-! ### `deliver`: delivering the response -/

@[simp] theorem State.deliver_regs (s : State) : (s.deliver).regs = s.regs := rfl
@[simp] theorem State.deliver_f (s : State) : (s.deliver).f = s.f := rfl
@[simp] theorem State.deliver_fcode (s : State) : (s.deliver).fcode = s.fcode := rfl
@[simp] theorem State.deliver_fop (s : State) : (s.deliver).fop = s.fop := rfl
@[simp] theorem State.deliver_coef (s : State) : (s.deliver).coef = s.coef := rfl
@[simp] theorem State.deliver_px (s : State) : (s.deliver).px = s.px := rfl
@[simp] theorem State.deliver_py (s : State) : (s.deliver).py = s.py := rfl
@[simp] theorem State.deliver_mats (s : State) : (s.deliver).mats = s.mats := rfl
@[simp] theorem State.deliver_rsp (s : State) : (s.deliver).rsp = none := rfl
@[simp] theorem State.deliver_inputs (s : State) : (s.deliver).inputs = s.inputs := rfl
@[simp] theorem State.deliver_freeCount (s : State) : (s.deliver).freeCount = s.freeCount := rfl

/-! ### `drew`: a reading of the buffers -/

@[simp] theorem State.drew_regs (s : State) : (s.drew).regs = s.regs := rfl
@[simp] theorem State.drew_f (s : State) : (s.drew).f = s.f := rfl
@[simp] theorem State.drew_fcode (s : State) : (s.drew).fcode = s.fcode := rfl
@[simp] theorem State.drew_fop (s : State) : (s.drew).fop = s.fop := rfl
@[simp] theorem State.drew_coef (s : State) : (s.drew).coef = s.coef := rfl
@[simp] theorem State.drew_px (s : State) : (s.drew).px = s.px := rfl
@[simp] theorem State.drew_py (s : State) : (s.drew).py = s.py := rfl
@[simp] theorem State.drew_mats (s : State) : (s.drew).mats = s.mats := rfl
@[simp] theorem State.drew_rsp (s : State) : (s.drew).rsp = s.rsp := rfl
@[simp] theorem State.drew_inputs (s : State) : (s.drew).inputs = s.inputs := rfl
@[simp] theorem State.drew_freeCount (s : State) : (s.drew).freeCount = s.freeCount + 1 := rfl

/-! ### `resetBy`: reset -/

@[simp] theorem State.resetBy_regs (s : State) (rest : List HostInput) : (s.resetBy rest).regs = Vector.replicate 16 0 := rfl
@[simp] theorem State.resetBy_f (s : State) (rest : List HostInput) : (s.resetBy rest).f = false := rfl
@[simp] theorem State.resetBy_fcode (s : State) (rest : List HostInput) : (s.resetBy rest).fcode = 0 := rfl
@[simp] theorem State.resetBy_fop (s : State) (rest : List HostInput) : (s.resetBy rest).fop = 0 := rfl
@[simp] theorem State.resetBy_coef (s : State) (rest : List HostInput) : (s.resetBy rest).coef = [] := rfl
@[simp] theorem State.resetBy_px (s : State) (rest : List HostInput) : (s.resetBy rest).px = [] := rfl
@[simp] theorem State.resetBy_py (s : State) (rest : List HostInput) : (s.resetBy rest).py = [] := rfl
@[simp] theorem State.resetBy_mats (s : State) (rest : List HostInput) : (s.resetBy rest).mats = Vector.replicate 4 [] := rfl
@[simp] theorem State.resetBy_rsp (s : State) (rest : List HostInput) : (s.resetBy rest).rsp = none := rfl
@[simp] theorem State.resetBy_inputs (s : State) (rest : List HostInput) : (s.resetBy rest).inputs = rest := rfl
@[simp] theorem State.resetBy_freeCount (s : State) (rest : List HostInput) : (s.resetBy rest).freeCount = s.freeCount + 1 := rfl

/-! ### `present`: presenting a command word -/

@[simp] theorem State.present_regs (s : State) (w : Word) : (s.present w).regs = s.regs := rfl
@[simp] theorem State.present_f (s : State) (w : Word) : (s.present w).f = s.f := rfl
@[simp] theorem State.present_fcode (s : State) (w : Word) : (s.present w).fcode = s.fcode := rfl
@[simp] theorem State.present_fop (s : State) (w : Word) : (s.present w).fop = s.fop := rfl
@[simp] theorem State.present_coef (s : State) (w : Word) : (s.present w).coef = s.coef := rfl
@[simp] theorem State.present_px (s : State) (w : Word) : (s.present w).px = s.px := rfl
@[simp] theorem State.present_py (s : State) (w : Word) : (s.present w).py = s.py := rfl
@[simp] theorem State.present_mats (s : State) (w : Word) : (s.present w).mats = s.mats := rfl
@[simp] theorem State.present_rsp (s : State) (w : Word) : (s.present w).rsp = none := rfl
@[simp] theorem State.present_inputs (s : State) (w : Word) : (s.present w).inputs = .edge (some w) true :: s.inputs := rfl
@[simp] theorem State.present_freeCount (s : State) (w : Word) : (s.present w).freeCount = s.freeCount := rfl

/-! ### `setMem`: replacing the contents of one space -/

@[simp] theorem State.setMem_regs (s : State) (sp : Space) (m : Memory) : (s.setMem sp m).regs = s.regs := by
  cases sp <;> rfl
@[simp] theorem State.setMem_f (s : State) (sp : Space) (m : Memory) : (s.setMem sp m).f = s.f := by
  cases sp <;> rfl
@[simp] theorem State.setMem_fcode (s : State) (sp : Space) (m : Memory) : (s.setMem sp m).fcode = s.fcode := by
  cases sp <;> rfl
@[simp] theorem State.setMem_fop (s : State) (sp : Space) (m : Memory) : (s.setMem sp m).fop = s.fop := by
  cases sp <;> rfl
@[simp] theorem State.setMem_rsp (s : State) (sp : Space) (m : Memory) : (s.setMem sp m).rsp = s.rsp := by
  cases sp <;> rfl
@[simp] theorem State.setMem_inputs (s : State) (sp : Space) (m : Memory) : (s.setMem sp m).inputs = s.inputs := by
  cases sp <;> rfl
@[simp] theorem State.setMem_freeCount (s : State) (sp : Space) (m : Memory) : (s.setMem sp m).freeCount = s.freeCount := by
  cases sp <;> rfl

@[simp] theorem State.setMem_mem_same (s : State) (sp : Space) (m : Memory) : (s.setMem sp m).mem sp = m := by
  cases sp <;> simp [State.setMem, State.mem]

theorem State.setMem_mem_other (s : State) {sp sp' : Space} (m : Memory) (h : sp' ≠ sp) :
    (s.setMem sp m).mem sp' = s.mem sp' := by
  cases sp <;> cases sp' <;> first
    | rfl
    | exact absurd rfl h
    | (rename_i b b'
       have hb : b.toNat ≠ b'.toNat := fun e => h (by rw [BitVec.eq_of_toNat_eq e])
       simp [State.setMem, State.mem, hb])

/-! ### Registers read through the accessors -/

@[simp] theorem State.setReg_reg_same (s : State) (i : Reg) (v : Byte) : (s.setReg i v).reg i = v := by
  simp [State.reg, State.setReg]

theorem State.setReg_reg_other (s : State) {i j : Reg} (v : Byte) (h : j ≠ i) : (s.setReg i v).reg j = s.reg j := by
  have hij : i.toNat ≠ j.toNat := fun e => h (BitVec.eq_of_toNat_eq e.symm)
  simp [State.reg, State.setReg, hij]

@[simp] theorem State.latch_reg (s : State) (k : FaultCode) (op : Byte) (j : Reg) : (s.latch k op).reg j = s.reg j := rfl
@[simp] theorem State.unlatch_reg (s : State) (j : Reg) : (s.unlatch).reg j = s.reg j := rfl
@[simp] theorem State.answer_reg (s : State) (r : Rsp) (j : Reg) : (s.answer r).reg j = s.reg j := rfl
@[simp] theorem State.deliver_reg (s : State) (j : Reg) : (s.deliver).reg j = s.reg j := rfl
@[simp] theorem State.drew_reg (s : State) (j : Reg) : (s.drew).reg j = s.reg j := rfl
@[simp] theorem State.present_reg (s : State) (w : Word) (j : Reg) : (s.present w).reg j = s.reg j := rfl
@[simp] theorem State.setMem_reg (s : State) (sp : Space) (m : Memory) (j : Reg) : (s.setMem sp m).reg j = s.reg j := by
  simp [State.reg]
@[simp] theorem State.resetBy_reg (s : State) (rest : List HostInput) (j : Reg) : (s.resetBy rest).reg j = 0 := by
  simp [State.reg]

/-! ### Memory read through the accessor -/

@[simp] theorem State.setReg_mem (s : State) (i : Reg) (v : Byte) (sp : Space) : (s.setReg i v).mem sp = s.mem sp := by cases sp <;> rfl
@[simp] theorem State.setReg_cell? (s : State) (i : Reg) (v : Byte) (sp : Space) (x : Nat) : (s.setReg i v).cell? sp x = s.cell? sp x := by
  simp [State.cell?]
@[simp] theorem State.latch_mem (s : State) (k : FaultCode) (op : Byte) (sp : Space) : (s.latch k op).mem sp = s.mem sp := by cases sp <;> rfl
@[simp] theorem State.latch_cell? (s : State) (k : FaultCode) (op : Byte) (sp : Space) (x : Nat) : (s.latch k op).cell? sp x = s.cell? sp x := by
  simp [State.cell?]
@[simp] theorem State.unlatch_mem (s : State) (sp : Space) : (s.unlatch).mem sp = s.mem sp := by cases sp <;> rfl
@[simp] theorem State.unlatch_cell? (s : State) (sp : Space) (x : Nat) : (s.unlatch).cell? sp x = s.cell? sp x := by
  simp [State.cell?]
@[simp] theorem State.answer_mem (s : State) (r : Rsp) (sp : Space) : (s.answer r).mem sp = s.mem sp := by cases sp <;> rfl
@[simp] theorem State.answer_cell? (s : State) (r : Rsp) (sp : Space) (x : Nat) : (s.answer r).cell? sp x = s.cell? sp x := by
  simp [State.cell?]
@[simp] theorem State.deliver_mem (s : State) (sp : Space) : (s.deliver).mem sp = s.mem sp := by cases sp <;> rfl
@[simp] theorem State.deliver_cell? (s : State) (sp : Space) (x : Nat) : (s.deliver).cell? sp x = s.cell? sp x := by
  simp [State.cell?]
@[simp] theorem State.drew_mem (s : State) (sp : Space) : (s.drew).mem sp = s.mem sp := by cases sp <;> rfl
@[simp] theorem State.drew_cell? (s : State) (sp : Space) (x : Nat) : (s.drew).cell? sp x = s.cell? sp x := by
  simp [State.cell?]
@[simp] theorem State.present_mem (s : State) (w : Word) (sp : Space) : (s.present w).mem sp = s.mem sp := by cases sp <;> rfl
@[simp] theorem State.present_cell? (s : State) (w : Word) (sp : Space) (x : Nat) : (s.present w).cell? sp x = s.cell? sp x := by
  simp [State.cell?]
@[simp] theorem State.resetBy_mem (s : State) (rest : List HostInput) (sp : Space) : (s.resetBy rest).mem sp = [] := by
  cases sp <;> simp [State.mem]
@[simp] theorem State.resetBy_cell? (s : State) (rest : List HostInput) (sp : Space) (x : Nat) :
    (s.resetBy rest).cell? sp x = none := by
  simp [State.cell?, Memory.read?]

end Sys2Proof.Machine
end

