-- ==== Sys2Proof/Laws/Memory.lean ====
section
/-!
SUPPORT. Memory: reading after each operation, and that each operation keeps the canonical form.
-/
namespace Sys2Proof.Machine

/-! ### Reading back -/

@[simp] theorem Memory.read?_nil (a : Nat) : Memory.read? [] a = none := rfl

theorem Memory.read?_write (m : Memory) (a : Nat) (v : Byte) (b : Nat) :
    Memory.read? (Memory.write m a v) b = if b = a then some v else Memory.read? m b := by
  induction m with
  | nil => simp [Memory.write, Memory.read?, eq_comm]
  | cons c m ih =>
    obtain ⟨k, w⟩ := c
    simp only [Memory.write]
    split
    · simp [Memory.read?, eq_comm]
    · split
      · next hk =>
        subst hk
        by_cases h : b = k
        · simp [Memory.read?, h]
        · simp [Memory.read?, h, Ne.symm h]
      · next hk =>
        simp only [Memory.read?, ih]
        by_cases h : b = a
        · subst h; simp [hk]
        · simp [h]

theorem Memory.read?_write_same (m : Memory) (a : Nat) (v : Byte) : Memory.read? (Memory.write m a v) a = some v := by
  simp [Memory.read?_write]

theorem Memory.read?_write_other (m : Memory) (v : Byte) {a b : Nat} (h : b ≠ a) :
    Memory.read? (Memory.write m a v) b = Memory.read? m b := by
  simp [Memory.read?_write, h]

theorem Memory.read?_forget (m : Memory) (p : Nat → Bool) (a : Nat) :
    Memory.read? (Memory.forget m p) a = if p a then none else Memory.read? m a := by
  induction m with
  | nil => simp [Memory.forget]
  | cons c m ih =>
    obtain ⟨k, w⟩ := c
    simp only [Memory.forget] at ih ⊢
    by_cases hp : p k = true
    · by_cases hk : k = a
      · subst hk; simp [hp, ih]
      · simp [hp, Memory.read?, hk, ih]
    · by_cases hk : k = a
      · subst hk; simp [hp, Memory.read?]
      · simp [hp, Memory.read?, hk, ih]

/-- A list of stores leaves every index it does not name as it was. -/
theorem Memory.read?_writeAll_other (m : Memory) (cells : List Host.Cell) {a : Nat}
    (h : a ∉ cells.map Prod.fst) : Memory.read? (Memory.writeAll m cells) a = Memory.read? m a := by
  induction cells with
  | nil => rfl
  | cons c cells ih =>
    simp only [List.map_cons, List.mem_cons, not_or] at h
    simpa [Memory.writeAll, Memory.read?_write, h.1] using ih h.2

/-- An index that a list of stores names once reads as the byte named with it. -/
theorem Memory.read?_writeAll_mem (m : Memory) (cells : List Host.Cell) {a : Nat} {v : Byte}
    (hd : (cells.map Prod.fst).Nodup) (h : (a, v) ∈ cells) : Memory.read? (Memory.writeAll m cells) a = some v := by
  induction cells with
  | nil => simp at h
  | cons c cells ih =>
    simp only [List.map_cons, List.nodup_cons] at hd
    rcases List.mem_cons.mp h with rfl | h
    · simp [Memory.writeAll, Memory.read?_write]
    · have hne : a ≠ c.1 := fun e => hd.1 (e ▸ List.mem_map_of_mem h)
      simpa [Memory.writeAll, Memory.read?_write, hne] using ih hd.2 h

/-! ### The canonical form -/

theorem Memory.wf_cons {size k : Nat} {v : Byte} {m : Memory} :
    Memory.wf size ((k, v) :: m) = true ↔ k < size ∧ (∀ c ∈ m, k < c.1) ∧ Memory.wf size m = true := by
  simp [Memory.wf, and_assoc]

theorem Memory.mem_write {m : Memory} {a : Nat} {v : Byte} {c : Host.Cell} (h : c ∈ Memory.write m a v) :
    c = (a, v) ∨ c ∈ m := by
  induction m with
  | nil => simpa [Memory.write] using h
  | cons d m ih =>
    obtain ⟨k, w⟩ := d
    simp only [Memory.write] at h
    split at h
    · simpa using h
    · split at h
      · rcases List.mem_cons.mp h with h | h
        · exact .inl h
        · exact .inr (List.mem_cons_of_mem _ h)
      · rcases List.mem_cons.mp h with h | h
        · exact .inr (h ▸ List.mem_cons_self)
        · exact (ih h).imp_right (List.mem_cons_of_mem _)

theorem Memory.wf_write {size a : Nat} {m : Memory} (v : Byte) (ha : a < size) (h : Memory.wf size m = true) :
    Memory.wf size (Memory.write m a v) = true := by
  induction m with
  | nil => simp [Memory.write, Memory.wf, ha]
  | cons c m ih =>
    obtain ⟨k, w⟩ := c
    obtain ⟨hk, hm, hw⟩ := Memory.wf_cons.mp h
    simp only [Memory.write]
    split
    · next hlt =>
      refine Memory.wf_cons.mpr ⟨ha, fun c hc => ?_, h⟩
      rcases List.mem_cons.mp hc with rfl | hc
      · exact hlt
      · exact hlt.trans (hm c hc)
    · next hlt =>
      split
      · next e => exact Memory.wf_cons.mpr ⟨ha, e ▸ hm, hw⟩
      · next hne =>
        refine Memory.wf_cons.mpr ⟨hk, fun c hc => ?_, ih hw⟩
        rcases Memory.mem_write hc with rfl | hc
        · show k < a
          omega
        · exact hm c hc

theorem Memory.wf_forget {size : Nat} {m : Memory} (p : Nat → Bool) (h : Memory.wf size m = true) :
    Memory.wf size (Memory.forget m p) = true := by
  induction m with
  | nil => rfl
  | cons c m ih =>
    obtain ⟨k, w⟩ := c
    obtain ⟨hk, hm, hw⟩ := Memory.wf_cons.mp h
    simp only [Memory.forget, List.filter_cons] at ih ⊢
    split
    · exact Memory.wf_cons.mpr ⟨hk, fun c hc => hm c (List.mem_of_mem_filter hc), ih hw⟩
    · exact ih hw

theorem Memory.wf_writeAll {size : Nat} {m : Memory} {cells : List Host.Cell} (hc : ∀ c ∈ cells, c.1 < size)
    (h : Memory.wf size m = true) : Memory.wf size (Memory.writeAll m cells) = true := by
  induction cells with
  | nil => exact h
  | cons c cells ih =>
    exact Memory.wf_write _ (hc c List.mem_cons_self) (ih fun d hd => hc d (List.mem_cons_of_mem _ hd))

/-! ### The spaces of the state -/

theorem State.setMem_cell?_same (s : State) (sp : Space) (m : Memory) (a : Nat) :
    (s.setMem sp m).cell? sp a = Memory.read? m a := by
  simp [State.cell?]

theorem State.setMem_cell?_other (s : State) {sp sp' : Space} (m : Memory) (a : Nat) (h : sp' ≠ sp) :
    (s.setMem sp m).cell? sp' a = s.cell? sp' a := by
  simp [State.cell?, State.setMem_mem_other s m h]

/-- All that a store of one byte does to the cells: the cell named reads as the byte, every other as before. -/
theorem State.store_cell? (s : State) (sp : Space) (a : Nat) (v : Byte) (sp' : Space) (b : Nat) :
    (s.store sp a v).cell? sp' b = if sp' = sp ∧ b = a then some v else s.cell? sp' b := by
  by_cases h : sp' = sp
  · subst h
    simp [State.store, Memory.read?_write, State.cell?]
  · simp [State.store, State.setMem_cell?_other s _ _ h, h]

/-- A specified cell is read as its byte. -/
theorem State.view_of_cell? {s : State} {sp : Space} {a : Nat} {v : Byte} (h : s.cell? sp a = some v) :
    s.view sp a = v := by
  simp [State.view, h]

/-! ### Matrix blocks -/

theorem inBlock_matIndex {n i c : Nat} (hc : c < 256) : inBlock n (matIndex i c) = (decide (i < n) && decide (c ≤ n)) := by
  have h1 : (256 * i + c) / 256 = i := by omega
  have h2 : (256 * i + c) % 256 = c := by omega
  simp [inBlock, matIndex, h1, h2]

theorem mem_blockCells {n : Nat} {W : Mat} {c : Host.Cell} :
    c ∈ blockCells n W ↔ ∃ i < n, ∃ j < n + 1, c = (matIndex i j, entry W i j) := by
  simp [blockCells, eq_comm]

theorem blockCells_nodup {n : Nat} (W : Mat) (hn : n < 256) : ((blockCells n W).map Prod.fst).Nodup := by
  have hmap : (blockCells n W).map Prod.fst
      = (List.range n).flatMap fun i => (List.range (n + 1)).map fun c => matIndex i c := by
    simp only [blockCells, List.map_flatMap, List.map_map]
    rfl
  rw [hmap, List.nodup_flatMap]
  refine ⟨fun i _ => (List.nodup_range).map fun a b e => by simpa [matIndex] using e, ?_⟩
  refine List.Pairwise.imp ?_ List.nodup_range
  intro i j hij
  simp only [Function.onFun, List.disjoint_left, List.mem_map, List.mem_range, not_exists, not_and]
  rintro x ⟨c, hc, rfl⟩ d hd e
  simp only [matIndex] at e
  omega

/-- All that writing a block does to the cells: inside the block the entries of the matrix, elsewhere as before. -/
theorem State.writeBlock_cell? (s : State) (b : Bank) (n : Nat) (W : Mat) (hn : n < 256) (sp : Space) (a : Nat) :
    (s.writeBlock b n W).cell? sp a
      = if sp = .mat b ∧ inBlock n a = true then some (entry W (a / 256) (a % 256)) else s.cell? sp a := by
  by_cases h : sp = .mat b
  · subst h
    simp only [State.writeBlock, State.setMem_cell?_same, true_and]
    split
    · next hin =>
      simp only [inBlock, Bool.and_eq_true, decide_eq_true_eq] at hin
      refine Memory.read?_writeAll_mem _ _ (blockCells_nodup W hn) (mem_blockCells.mpr ⟨a / 256, hin.1, a % 256, by omega, ?_⟩)
      simp only [matIndex]
      rw [Nat.div_add_mod]
    · next hin =>
      rw [Memory.read?_writeAll_other, Memory.read?_forget, if_neg hin, State.cell?]
      simp only [List.mem_map, not_exists, not_and]
      rintro ⟨k, v⟩ hmem rfl
      obtain ⟨i, hi, j, hj, e⟩ := mem_blockCells.mp hmem
      simp only [Prod.mk.injEq] at e
      apply hin
      rw [e.1, inBlock_matIndex (by omega)]
      simp; omega
  · simp [State.writeBlock, State.setMem_cell?_other s _ _ h, h]

/-- All that forgetting a block does to the cells: inside the block unspecified, elsewhere as before. -/
theorem State.forgetBlock_cell? (s : State) (b : Bank) (n : Nat) (sp : Space) (a : Nat) :
    (s.forgetBlock b n).cell? sp a = if sp = .mat b ∧ inBlock n a = true then none else s.cell? sp a := by
  by_cases h : sp = .mat b
  · subst h
    simp [State.forgetBlock, Memory.read?_forget, State.cell?]
  · simp [State.forgetBlock, State.setMem_cell?_other s _ _ h, h]

/-- The entry a stage reads is the byte its cell is viewed as. -/
theorem State.entry_matView (s : State) (b : Bank) {n i c : Nat} (hi : i < n) (hc : c ≤ n) :
    entry (s.matView b n) i c = s.view (.mat b) (matIndex i c) := by
  have hc' : c < n + 1 := by omega
  simp [entry, State.matView, hi, hc']

end Sys2Proof.Machine
end

