-- ==== Sys2Proof/Laws/Ops.lean ====
section
/-!
SUPPORT. One lemma per shared operation that says once what it does; meanings are reasoned about through these.
-/
namespace Sys2Proof.Machine

theorem respond_eq (d : Byte) (s : State) : respond d s = .next (s.answer (response false s.fcode d)) := rfl

theorem raise_eq (op : Byte) (k : FaultCode) (s : State) :
    raise op k s = .next ((s.latch k op).answer (response true k.code 0)) := rfl

theorem refuse_eq (s : State) : refuse s = .next (s.answer (response true s.fcode 0)) := rfl

theorem clearFault_eq (s : State) : clearFault s = .next (s.unlatch.answer (response false 0 0)) := rfl

theorem writeBack_eq (rd : Reg) (v : Byte) (s : State) :
    writeBack rd v s = .next ((s.setReg rd v).answer (response false s.fcode v)) := rfl

theorem ifUnlocked_of_locked {s : State} (body : Result) (h : s.f = true) : ifUnlocked s body = refuse s := by
  simp [ifUnlocked, h]

theorem ifUnlocked_of_unlocked {s : State} (body : Result) (h : s.f = false) : ifUnlocked s body = body := by
  simp [ifUnlocked, h]

/-- A guarded command either met the lock and was refused, or its body answered. -/
theorem ifUnlocked_cases {s t : State} {body : Result} (h : ifUnlocked s body = .next t) :
    (s.f = true ∧ t = s.answer (response true s.fcode 0)) ∨ (s.f = false ∧ body = .next t) := by
  cases hf : s.f
  · exact .inr ⟨rfl, by rwa [ifUnlocked_of_unlocked body hf] at h⟩
  · rw [ifUnlocked_of_locked body hf, refuse_eq] at h
    exact .inl ⟨rfl, by injection h with h; exact h.symm⟩

theorem ifCount_zero (op : Byte) (s : State) (body : Result) : ifCount op 0#8 s body = raise op .invalidArgument s := by
  simp [ifCount]

theorem ifCount_pos {op n : Byte} {s : State} {body : Result} (h : n ≠ 0#8) : ifCount op n s body = body := by
  simp [ifCount, h]

/-- A command with a point count either raised InvalidArgument on a zero count, or its body answered. -/
theorem ifCount_cases {op n : Byte} {s t : State} {body : Result} (h : ifCount op n s body = .next t) :
    (n = 0#8 ∧ t = (s.latch .invalidArgument op).answer (response true FaultCode.invalidArgument.code 0)) ∨
      (n ≠ 0#8 ∧ body = .next t) := by
  by_cases hn : n = 0#8
  · subst hn
    rw [ifCount_zero, raise_eq] at h
    exact .inl ⟨rfl, by injection h with h; exact h.symm⟩
  · exact .inr ⟨hn, by rwa [ifCount_pos hn] at h⟩

/-- A fallible result was written back, or its fault was raised and the register left alone. -/
theorem writeBackOrRaise_cases {op : Byte} {rd : Reg} {v : Except FaultCode Byte} {s t : State}
    (h : writeBackOrRaise op rd v s = .next t) :
    (∃ x, v = .ok x ∧ t = (s.setReg rd x).answer (response false s.fcode x)) ∨
      (∃ k, v = .error k ∧ t = (s.latch k op).answer (response true k.code 0)) := by
  cases v with
  | ok x => exact .inl ⟨x, rfl, by injection h with h; exact h.symm⟩
  | error k => exact .inr ⟨k, rfl, by injection h with h; exact h.symm⟩

/-- A stage wrote its result, or raised its fault and left its block unspecified. -/
theorem runStage_cases {op : Byte} {src dst : Bank} {stage : Mat → Except FaultCode Mat} {n : Nat} {s t : State}
    (h : runStage op src dst stage n s = .next t) :
    (∃ W, stage (s.matView src n) = .ok W ∧
        t = (s.drew.writeBlock dst n W).answer (response false (s.drew.writeBlock dst n W).fcode 0)) ∨
      (∃ k, stage (s.matView src n) = .error k ∧
        t = ((s.drew.forgetBlock dst n).latch k op).answer (response true k.code 0)) := by
  unfold runStage at h
  split at h
  · next W hW => exact .inl ⟨W, hW, by injection h with h; exact h.symm⟩
  · next k hk => exact .inr ⟨k, hk, by injection h with h; exact h.symm⟩

/-! ### Blocks change no field but the banks -/

@[simp] theorem State.writeBlock_f (s : State) (b : Bank) (n : Nat) (W : Mat) : (s.writeBlock b n W).f = s.f := by
  simp [State.writeBlock]
@[simp] theorem State.writeBlock_fcode (s : State) (b : Bank) (n : Nat) (W : Mat) :
    (s.writeBlock b n W).fcode = s.fcode := by simp [State.writeBlock]
@[simp] theorem State.writeBlock_fop (s : State) (b : Bank) (n : Nat) (W : Mat) :
    (s.writeBlock b n W).fop = s.fop := by simp [State.writeBlock]
@[simp] theorem State.writeBlock_reg (s : State) (b : Bank) (n : Nat) (W : Mat) (r : Reg) :
    (s.writeBlock b n W).reg r = s.reg r := by simp [State.writeBlock]
@[simp] theorem State.writeBlock_inputs (s : State) (b : Bank) (n : Nat) (W : Mat) :
    (s.writeBlock b n W).inputs = s.inputs := by simp [State.writeBlock]
@[simp] theorem State.forgetBlock_f (s : State) (b : Bank) (n : Nat) : (s.forgetBlock b n).f = s.f := by
  simp [State.forgetBlock]
@[simp] theorem State.forgetBlock_fcode (s : State) (b : Bank) (n : Nat) :
    (s.forgetBlock b n).fcode = s.fcode := by simp [State.forgetBlock]
@[simp] theorem State.forgetBlock_fop (s : State) (b : Bank) (n : Nat) : (s.forgetBlock b n).fop = s.fop := by
  simp [State.forgetBlock]
@[simp] theorem State.forgetBlock_reg (s : State) (b : Bank) (n : Nat) (r : Reg) :
    (s.forgetBlock b n).reg r = s.reg r := by simp [State.forgetBlock]
@[simp] theorem State.forgetBlock_inputs (s : State) (b : Bank) (n : Nat) :
    (s.forgetBlock b n).inputs = s.inputs := by simp [State.forgetBlock]

/-! ### The canonical form, space by space -/

/-- The canonical form, as one fact about every space. -/
theorem State.memOk_iff (s : State) : s.memOk = true ↔ ∀ sp, Memory.wf sp.size (s.mem sp) = true := by
  constructor
  · intro h sp
    simp only [State.memOk, List.all_cons, List.all_nil, Bool.and_true, Bool.and_eq_true] at h
    obtain ⟨h0, h1, h2, h3, h4, h5, h6⟩ := h
    cases sp with
    | coef => exact h0
    | px => exact h1
    | py => exact h2
    | mat b =>
      have hb : b = 0 ∨ b = 1 ∨ b = 2 ∨ b = 3 := by revert b; decide
      rcases hb with rfl | rfl | rfl | rfl
      exacts [h3, h4, h5, h6]
  · intro h
    simp [State.memOk, h]

/-- Replacing one space by a memory in canonical form keeps every space so. -/
theorem State.setMem_memOk {s : State} {sp : Space} {m : Memory} (h : s.memOk = true)
    (hm : Memory.wf sp.size m = true) : (s.setMem sp m).memOk = true := by
  rw [State.memOk_iff] at h ⊢
  intro sp'
  by_cases e : sp' = sp
  · subst e; simpa using hm
  · rw [State.setMem_mem_other s m e]; exact h sp'

/-- A store inside its space keeps the canonical form. -/
theorem State.store_memOk {s : State} {sp : Space} {a : Nat} (v : Byte) (h : s.memOk = true) (ha : a < sp.size) :
    (s.store sp a v).memOk = true :=
  State.setMem_memOk h (Memory.wf_write v ha ((State.memOk_iff s).mp h sp))

/-- Writing a block keeps the canonical form. -/
theorem State.writeBlock_memOk {s : State} {n : Nat} (b : Bank) (W : Mat) (h : s.memOk = true) (hn : n < 256) :
    (s.writeBlock b n W).memOk = true := by
  refine State.setMem_memOk h (Memory.wf_writeAll ?_ (Memory.wf_forget _ ((State.memOk_iff s).mp h (.mat b))))
  intro c hc
  obtain ⟨i, hi, j, hj, rfl⟩ := mem_blockCells.mp hc
  simp only [matIndex, Space.size]
  omega

/-- Forgetting a block keeps the canonical form. -/
theorem State.forgetBlock_memOk {s : State} (b : Bank) (n : Nat) (h : s.memOk = true) :
    (s.forgetBlock b n).memOk = true :=
  State.setMem_memOk h (Memory.wf_forget _ ((State.memOk_iff s).mp h (.mat b)))

/-! ### The response word -/

/-- The bits of a response, field by field from the least significant. -/
theorem response_getLsbD (e : Bool) (c : BitVec 4) (d : Byte) (i : Nat) :
    (response e c d).getLsbD i
      = if i < 8 then d.getLsbD i else if i < 12 then c.getLsbD (i - 8) else decide (i = 15) && e := by
  simp only [response, BitVec.getLsbD_append]
  by_cases h8 : i < 8
  · simp only [if_pos h8]
  · by_cases h12 : i < 12
    · simp only [if_neg h8, if_pos h12, if_pos (show i - 8 < 4 by omega)]
    · rw [if_neg h8, if_neg h8, if_neg h12, if_neg (by omega)]
      by_cases h15 : i < 15
      · rw [if_pos (by omega), decide_eq_false (by omega)]; simp
      · rw [if_neg (by omega), BitVec.getLsbD_ofBool,
          decide_eq_decide.mpr (show i - 8 - 4 - 3 = 0 ↔ i = 15 by omega)]

@[simp] theorem rspErr_response (e : Bool) (c : BitVec 4) (d : Byte) : rspErr (response e c d) = e := by
  simp only [rspErr, response_getLsbD]; simp

@[simp] theorem rspReserved_response (e : Bool) (c : BitVec 4) (d : Byte) : rspReserved (response e c d) = 0 := by
  ext i hi
  simp only [rspReserved, BitVec.getElem_extractLsb', response_getLsbD]
  rw [if_neg (by omega), if_neg (by omega)]; simp; omega

@[simp] theorem rspFcode_response (e : Bool) (c : BitVec 4) (d : Byte) : rspFcode (response e c d) = c := by
  ext i hi
  simp only [rspFcode, BitVec.getElem_extractLsb', response_getLsbD]
  rw [if_neg (by omega), if_pos (by omega), Nat.add_sub_cancel_left, BitVec.getLsbD_eq_getElem hi]

@[simp] theorem rspData_response (e : Bool) (c : BitVec 4) (d : Byte) : rspData (response e c d) = d := by
  ext i hi
  simp only [rspData, BitVec.getElem_extractLsb', response_getLsbD]
  rw [if_pos (by omega), Nat.zero_add, BitVec.getLsbD_eq_getElem hi]

end Sys2Proof.Machine
end

