-- ==== Sys2Proof/Laws/PerInstr.lean ====
section
/-!
SUPPORT. Families of facts about every instruction as syntax, one lemma per constructor.
-/

/-- The word of an instruction has the instruction's opcode byte in bits 31:24 (R54). -/
def Sys2Proof.Laws.EncodedOpcode.Statement (i : Sys2Proof.Instr) : Prop :=
  Sys2Proof.opField (Sys2Proof.encode i) = i.opcode

theorem Sys2Proof.Laws.EncodedOpcode.nop :
    Sys2Proof.Laws.EncodedOpcode.Statement (.nop) := Sys2Proof.opField_mkWord _ _ _ _
theorem Sys2Proof.Laws.EncodedOpcode.csrr (csr : Sys2Proof.Byte) :
    Sys2Proof.Laws.EncodedOpcode.Statement (.csrr csr) := Sys2Proof.opField_mkWord _ _ _ _
theorem Sys2Proof.Laws.EncodedOpcode.clrf :
    Sys2Proof.Laws.EncodedOpcode.Statement (.clrf) := Sys2Proof.opField_mkWord _ _ _ _
theorem Sys2Proof.Laws.EncodedOpcode.rdr (ra : Sys2Proof.Reg) :
    Sys2Proof.Laws.EncodedOpcode.Statement (.rdr ra) := Sys2Proof.opField_mkWord _ _ _ _
theorem Sys2Proof.Laws.EncodedOpcode.ldi (rd : Sys2Proof.Reg) (imm8 : Sys2Proof.Byte) :
    Sys2Proof.Laws.EncodedOpcode.Statement (.ldi rd imm8) := Sys2Proof.opField_mkWord _ _ _ _
theorem Sys2Proof.Laws.EncodedOpcode.mov (rd : Sys2Proof.Reg) (ra : Sys2Proof.Reg) :
    Sys2Proof.Laws.EncodedOpcode.Statement (.mov rd ra) := Sys2Proof.opField_mkWord _ _ _ _
theorem Sys2Proof.Laws.EncodedOpcode.fadd (rd : Sys2Proof.Reg) (ra : Sys2Proof.Reg) (rb : Sys2Proof.Reg) :
    Sys2Proof.Laws.EncodedOpcode.Statement (.fadd rd ra rb) := Sys2Proof.opField_mkWord _ _ _ _
theorem Sys2Proof.Laws.EncodedOpcode.fsub (rd : Sys2Proof.Reg) (ra : Sys2Proof.Reg) (rb : Sys2Proof.Reg) :
    Sys2Proof.Laws.EncodedOpcode.Statement (.fsub rd ra rb) := Sys2Proof.opField_mkWord _ _ _ _
theorem Sys2Proof.Laws.EncodedOpcode.fmul (rd : Sys2Proof.Reg) (ra : Sys2Proof.Reg) (rb : Sys2Proof.Reg) :
    Sys2Proof.Laws.EncodedOpcode.Statement (.fmul rd ra rb) := Sys2Proof.opField_mkWord _ _ _ _
theorem Sys2Proof.Laws.EncodedOpcode.fdiv (rd : Sys2Proof.Reg) (ra : Sys2Proof.Reg) (rb : Sys2Proof.Reg) :
    Sys2Proof.Laws.EncodedOpcode.Statement (.fdiv rd ra rb) := Sys2Proof.opField_mkWord _ _ _ _
theorem Sys2Proof.Laws.EncodedOpcode.fexp (rd : Sys2Proof.Reg) (ra : Sys2Proof.Reg) :
    Sys2Proof.Laws.EncodedOpcode.Statement (.fexp rd ra) := Sys2Proof.opField_mkWord _ _ _ _
theorem Sys2Proof.Laws.EncodedOpcode.flog (rd : Sys2Proof.Reg) (ra : Sys2Proof.Reg) :
    Sys2Proof.Laws.EncodedOpcode.Statement (.flog rd ra) := Sys2Proof.opField_mkWord _ _ _ _
theorem Sys2Proof.Laws.EncodedOpcode.ldc (r : Sys2Proof.Reg) (idx8 : Sys2Proof.Byte) :
    Sys2Proof.Laws.EncodedOpcode.Statement (.ldc r idx8) := Sys2Proof.opField_mkWord _ _ _ _
theorem Sys2Proof.Laws.EncodedOpcode.stc (r : Sys2Proof.Reg) (idx8 : Sys2Proof.Byte) :
    Sys2Proof.Laws.EncodedOpcode.Statement (.stc r idx8) := Sys2Proof.opField_mkWord _ _ _ _
theorem Sys2Proof.Laws.EncodedOpcode.stci (idx8 : Sys2Proof.Byte) (imm8 : Sys2Proof.Byte) :
    Sys2Proof.Laws.EncodedOpcode.Statement (.stci idx8 imm8) := Sys2Proof.opField_mkWord _ _ _ _
theorem Sys2Proof.Laws.EncodedOpcode.ldx (r : Sys2Proof.Reg) (idx8 : Sys2Proof.Byte) :
    Sys2Proof.Laws.EncodedOpcode.Statement (.ldx r idx8) := Sys2Proof.opField_mkWord _ _ _ _
theorem Sys2Proof.Laws.EncodedOpcode.stx (r : Sys2Proof.Reg) (idx8 : Sys2Proof.Byte) :
    Sys2Proof.Laws.EncodedOpcode.Statement (.stx r idx8) := Sys2Proof.opField_mkWord _ _ _ _
theorem Sys2Proof.Laws.EncodedOpcode.stxi (idx8 : Sys2Proof.Byte) (imm8 : Sys2Proof.Byte) :
    Sys2Proof.Laws.EncodedOpcode.Statement (.stxi idx8 imm8) := Sys2Proof.opField_mkWord _ _ _ _
theorem Sys2Proof.Laws.EncodedOpcode.ldy (r : Sys2Proof.Reg) (idx8 : Sys2Proof.Byte) :
    Sys2Proof.Laws.EncodedOpcode.Statement (.ldy r idx8) := Sys2Proof.opField_mkWord _ _ _ _
theorem Sys2Proof.Laws.EncodedOpcode.sty (r : Sys2Proof.Reg) (idx8 : Sys2Proof.Byte) :
    Sys2Proof.Laws.EncodedOpcode.Statement (.sty r idx8) := Sys2Proof.opField_mkWord _ _ _ _
theorem Sys2Proof.Laws.EncodedOpcode.styi (idx8 : Sys2Proof.Byte) (imm8 : Sys2Proof.Byte) :
    Sys2Proof.Laws.EncodedOpcode.Statement (.styi idx8 imm8) := Sys2Proof.opField_mkWord _ _ _ _
theorem Sys2Proof.Laws.EncodedOpcode.ldm (r : Sys2Proof.Reg) (bank : Sys2Proof.Bank) (row8 : Sys2Proof.Byte) (col8 : Sys2Proof.Byte) :
    Sys2Proof.Laws.EncodedOpcode.Statement (.ldm r bank row8 col8) := Sys2Proof.opField_mkWord _ _ _ _
theorem Sys2Proof.Laws.EncodedOpcode.stm (r : Sys2Proof.Reg) (bank : Sys2Proof.Bank) (row8 : Sys2Proof.Byte) (col8 : Sys2Proof.Byte) :
    Sys2Proof.Laws.EncodedOpcode.Statement (.stm r bank row8 col8) := Sys2Proof.opField_mkWord _ _ _ _
theorem Sys2Proof.Laws.EncodedOpcode.peval (rd : Sys2Proof.Reg) (ra : Sys2Proof.Reg) (n : Sys2Proof.Byte) :
    Sys2Proof.Laws.EncodedOpcode.Statement (.peval rd ra n) := Sys2Proof.opField_mkWord _ _ _ _
theorem Sys2Proof.Laws.EncodedOpcode.linterp (rd : Sys2Proof.Reg) (ra : Sys2Proof.Reg) (n : Sys2Proof.Byte) :
    Sys2Proof.Laws.EncodedOpcode.Statement (.linterp rd ra n) := Sys2Proof.opField_mkWord _ _ _ _
theorem Sys2Proof.Laws.EncodedOpcode.mbuild (n : Sys2Proof.Byte) :
    Sys2Proof.Laws.EncodedOpcode.Statement (.mbuild n) := Sys2Proof.opField_mkWord _ _ _ _
theorem Sys2Proof.Laws.EncodedOpcode.mfwd (n : Sys2Proof.Byte) :
    Sys2Proof.Laws.EncodedOpcode.Statement (.mfwd n) := Sys2Proof.opField_mkWord _ _ _ _
theorem Sys2Proof.Laws.EncodedOpcode.mback (n : Sys2Proof.Byte) :
    Sys2Proof.Laws.EncodedOpcode.Statement (.mback n) := Sys2Proof.opField_mkWord _ _ _ _
theorem Sys2Proof.Laws.EncodedOpcode.mnorm (n : Sys2Proof.Byte) :
    Sys2Proof.Laws.EncodedOpcode.Statement (.mnorm n) := Sys2Proof.opField_mkWord _ _ _ _
theorem Sys2Proof.Laws.EncodedOpcode.msolve (n : Sys2Proof.Byte) :
    Sys2Proof.Laws.EncodedOpcode.Statement (.msolve n) := Sys2Proof.opField_mkWord _ _ _ _
theorem Sys2Proof.Laws.EncodedOpcode.mext (n : Sys2Proof.Byte) :
    Sys2Proof.Laws.EncodedOpcode.Statement (.mext n) := Sys2Proof.opField_mkWord _ _ _ _
end

