-- ==== Sys2Proof/Laws/Step.lean ====
section
/-!
SUPPORT. What one clock edge can do, case by case: everything `stepEdge` and `step` answer.
-/
namespace Sys2Proof.Machine

@[simp] theorem State.rspValid_of_none {s : State} (h : s.rsp = none) : s.rspValid = false := by simp [State.rspValid, h]
@[simp] theorem State.rspValid_of_some {s : State} {r : Rsp} (h : s.rsp = some r) : s.rspValid = true := by
  simp [State.rspValid, h]

/-- A word presented to a ready core is accepted. -/
theorem stepEdge_accept {s : State} (w : Word) (rdy : Bool) (h : s.rsp = none) : stepEdge (some w) rdy s = runWord w s := by
  simp [stepEdge, h]

/-- Nothing presented to a ready core: nothing happens. -/
theorem stepEdge_idle {s : State} (rdy : Bool) (h : s.rsp = none) : stepEdge none rdy s = .next s := by
  simp [stepEdge, h]

/-- A valid response meets `rsp_ready = 1`. -/
theorem stepEdge_deliver {s : State} {r : Rsp} (cmd : Option Word) (h : s.rsp = some r) :
    stepEdge cmd true s = .next s.deliver := by
  simp [stepEdge, h]

/-- A valid response meets `rsp_ready = 0`. -/
theorem stepEdge_hold {s : State} {r : Rsp} (cmd : Option Word) (h : s.rsp = some r) : stepEdge cmd false s = .next s := by
  simp [stepEdge, h]

/-- The four things a step can be: idling at the end of the inputs, a reset, an edge of a waiting response, an edge of a
ready core. -/
theorem step_cases (s : State) :
    (s.inputs = [] ∧ step s = .next s) ∨
    (∃ rest, s.inputs = .reset :: rest ∧ step s = .next (s.resetBy rest)) ∨
    (∃ cmd rdy rest, s.inputs = .edge cmd rdy :: rest ∧ s.rsp ≠ none ∧
      step s = .next (if rdy then State.deliver { s with inputs := rest } else { s with inputs := rest })) ∨
    (∃ rdy rest, s.inputs = .edge none rdy :: rest ∧ s.rsp = none ∧ step s = .next { s with inputs := rest }) ∨
    (∃ w rdy rest, s.inputs = .edge (some w) rdy :: rest ∧ s.rsp = none ∧ step s = runWord w { s with inputs := rest }) := by
  match h : s.inputs with
  | [] => exact .inl ⟨rfl, by simp [step, h]⟩
  | .reset :: rest => exact .inr (.inl ⟨rest, rfl, by simp [step, h]⟩)
  | .edge cmd rdy :: rest =>
    match hr : s.rsp with
    | some r => exact .inr (.inr (.inl ⟨cmd, rdy, rest, rfl, by simp, by simp [step, h, stepEdge, State.rspValid, hr]⟩))
    | none =>
      match cmd with
      | none => exact .inr (.inr (.inr (.inl ⟨rdy, rest, rfl, rfl, by simp [step, h, stepEdge, State.rspValid, hr]⟩)))
      | some w => exact .inr (.inr (.inr (.inr ⟨w, rdy, rest, rfl, rfl, by simp [step, h, stepEdge, State.rspValid, hr]⟩)))

end Sys2Proof.Machine
end

