-- ==== Sys2Proof/Tests/Slice0.lean ====
section
/-!
SUPPORT. Tests of the model, and for every statement with hypotheses a witness that they can be met. Expected words and
values are the spec's: the examples of the command rules and the vectors of 95_test_vectors.md (V<n>), and the listings
of 10_state.md section 5.
-/
namespace Sys2Proof.Tests

-- One test after another: in parallel the many small kernel evaluations each hold a thread.
set_option Elab.async false

open Sys2Proof Sys2Proof.Machine

/-! ## Helpers -/

/-- The outcome is a next state that `p` holds of. -/
def next (o : Result) (p : State → Bool) : Bool :=
  match o with
  | .next t => p t
  | _ => false

/-- The command answers `rsp` in a next state that `p` holds of. -/
def gives (i : Instr) (s : State) (rsp : Rsp) (p : State → Bool) : Bool :=
  next (exec i s) fun t => decide (t.rsp = some rsp) && p t

/-- The reset state with some registers set. -/
def regs (rs : List (Reg × Byte)) : State := rs.foldl (fun s r => s.setReg r.1 r.2) State.reset

/-- Bytes stored in the first cells of a space. -/
def cells (sp : Space) (bs : List Byte) (s : State) : State :=
  bs.zipIdx.foldl (fun s b => s.store sp b.2 b.1) s

/-- A matrix stored in a bank. -/
def bank (b : Bank) (W : Mat) (s : State) : State := s.writeBlock b W.length W

/-- The bytes of a bank's block, if all are specified and equal `W`. -/
def holds (b : Bank) (W : Mat) (s : State) : Bool :=
  decide ((List.range W.length).map (fun i => (List.range (W.length + 1)).map fun c => s.cell? (.mat b) (matIndex i c))
    = W.map fun row => row.map some)

/-- Locked by a division by zero in an FDIV. -/
def locked : State := { State.reset with f := true, fcode := 1, fop := 0x13 }

/-- The command `w` presented to a core in state `s` by a host that is not ready for a response. -/
def given (w : Word) (s : State) : State := { s with inputs := [.edge (some w) false] }

/-- The points (1, 3d), (2, ef): byte 0 of shares 1 and 2 of S8. -/
def twoPoints : State := cells .py [0x3d, 0xef] (cells .px [0x01, 0x02] State.reset)

/-- Two points with the same x. -/
def samePoints : State := cells .py [0x05, 0x09] (cells .px [0x01, 0x01] State.reset)

/-! ## Well-formed terms -/

/-- The one check of `Instr.wf`: CSRR names CSR 0, 1 or 2 (R56, R67). -/
theorem test_wf_csrr : (Instr.csrr 2).wf = true ∧ (Instr.csrr 3).wf = false ∧ (Instr.csrr 255).wf = false := by decide

/-! ## Decoding: a word for every constructor, written from the formats of R55 to R65 -/

/-- Formats N, S, R1, RI, R2 (V1.1 to V1.6). -/
theorem test_decode_system :
    decode 0x00000000 = .ok .nop ∧ decode 0x01000002 = .ok (.csrr 2) ∧ decode 0x02000000 = .ok .clrf ∧
    decode 0x03000f00 = .ok (.rdr 15) ∧ decode 0x080f00ff = .ok (.ldi 15 0xff) ∧
    decode 0x09020100 = .ok (.mov 2 1) := by decide

/-- Formats R3 and R2 (V1.7, V1.8, and the examples of R110 to R115). -/
theorem test_decode_field :
    decode 0x10030102 = .ok (.fadd 3 1 2) ∧ decode 0x11030102 = .ok (.fsub 3 1 2) ∧
    decode 0x12030102 = .ok (.fmul 3 1 2) ∧ decode 0x13040302 = .ok (.fdiv 4 3 2) ∧
    decode 0x140c0b00 = .ok (.fexp 12 11) ∧ decode 0x150d0c00 = .ok (.flog 13 12) := by decide

/-- Formats BX and BI (V1.11 to V1.15, V3). -/
theorem test_decode_buffers :
    decode 0x200200ff = .ok (.ldc 2 255) ∧ decode 0x21030001 = .ok (.stc 3 1) ∧
    decode 0x2200ff99 = .ok (.stci 255 0x99) ∧ decode 0x24050005 = .ok (.ldx 5 5) ∧
    decode 0x25050006 = .ok (.stx 5 6) ∧ decode 0x26000511 = .ok (.stxi 5 0x11) ∧
    decode 0x28070005 = .ok (.ldy 7 5) ∧ decode 0x29070000 = .ok (.sty 7 0) ∧
    decode 0x2a0001ef = .ok (.styi 1 0xef) := by decide

/-- Format M (V1.16 to V1.19). -/
theorem test_decode_matrix_cells :
    decode 0x2ccaffff = .ok (.ldm 10 3 255 255) ∧ decode 0x2d890102 = .ok (.stm 9 2 1 2) ∧
    decode 0x2cc40002 = .ok (.ldm 4 3 0 2) ∧ decode 0x2c410101 = .ok (.ldm 1 1 1 1) := by decide

/-- Formats RL and L (V1.9, V1.10, V1.20, and the examples of R132 to R140). -/
theorem test_decode_engines :
    decode 0x30020102 = .ok (.peval 2 1 2) ∧ decode 0x31000f02 = .ok (.linterp 0 15 2) ∧
    decode 0x40000002 = .ok (.mbuild 2) ∧ decode 0x41000002 = .ok (.mfwd 2) ∧ decode 0x42000002 = .ok (.mback 2) ∧
    decode 0x43000002 = .ok (.mnorm 2) ∧ decode 0x440000ff = .ok (.msolve 255) ∧
    decode 0x45000002 = .ok (.mext 2) := by decide

/-- Illegal words, clause (a) of R67 (V1.21 to V1.23). -/
theorem test_illegal_reserved_opcode :
    decode 0x04000000 = .illegal .reservedOpcode ∧ decode 0x46000000 = .illegal .reservedOpcode ∧
    decode 0xffffffff = .illegal .reservedOpcode ∧ decode 0x23000000 = .illegal .reservedOpcode := by decide

/-- Illegal words, clauses (b) and (c) of R67 (V1.24 to V1.34). -/
theorem test_illegal_bits :
    decode 0x00000001 = .illegal .mustBeZero ∧ decode 0x01000003 = .illegal .noSuchCsr ∧
    decode 0x03001000 = .illegal .mustBeZero ∧ decode 0x08010153 = .illegal .mustBeZero ∧
    decode 0x09010201 = .illegal .mustBeZero ∧ decode 0x10100102 = .illegal .mustBeZero ∧
    decode 0x30100100 = .illegal .mustBeZero ∧ decode 0x22010000 = .illegal .mustBeZero ∧
    decode 0x2c100000 = .illegal .mustBeZero ∧ decode 0x2dff0000 = .illegal .mustBeZero ∧
    decode 0x40000100 = .illegal .mustBeZero := by decide

/-- No word is of two rows of the opcode map (R67). -/
theorem test_rows_do_not_overlap :
    opcodeRows.Pairwise fun r q => (r.pattern ^^^ q.pattern) &&& r.mask &&& q.mask ≠ 0#32 := by decide

/-- The examples of R69. -/
theorem test_asm :
    (Instr.fmul 3 1 2).asm = "FMUL r3, r1, r2" ∧ (Instr.stxi 0 1).asm = "STXI 0, 1" ∧
    (Instr.ldm 4 3 0 2).asm = "LDM r4, 3, 0, 2" ∧ (Instr.linterp 0 15 2).asm = "LINTERP r0, r15, 2" ∧
    (Instr.msolve 2).asm = "MSOLVE 2" ∧ (Instr.csrr 1).asm = "CSRR 1" := by decide

/-- The host's two questions on one word (FMUL r3, r1, r2). -/
theorem test_table_word :
    decodeTableWord 32 0x12030102 = some (.fmul 3 1 2) ∧
    next (step (State.reset.withFetchWord 32 0x080f00ff)) (fun t => decide (t.rsp = some 0x00ff ∧ t.reg 15 = 0xff)) := by
  decide

/-! ## The ROM (10_state.md section 5) -/

/-- Cells of EXP named in 95_test_vectors.md section 2.4. -/
theorem test_exp_cells :
    (expRom 0, expRom 7, expRom 8, expRom 24, expRom 127, expRom 128, expRom 254, expRom 255)
      = (0x01, 0x80, 0x1d, 0x8f, 0xcc, 0x85, 0x8e, 0x01) := by decide +kernel

/-- Cells of LOG named there. -/
theorem test_log_cells :
    (logRom 1, logRom 2, logRom 3, logRom 0x53, logRom 0x8e, logRom 0xff) = (0, 1, 25, 206, 254, 175) := by
  decide +kernel

/-- LOG[0] is the open parameter (R13). -/
theorem test_log_zero : logRom 0#8 = Config.log0 := by
  have h : logSearch 0 Config.ord 0 1 = none := by decide +kernel
  simp [logRom, h]

/-- V4.12, V4.8, V4.17, V4.1. -/
theorem test_gf :
    gfMul 0x53 0xca = 0x8f ∧ gfMul 0x02 0x8e = 0x01 ∧ gfDiv 0x01 0xff = .ok 0xfd ∧ gfDiv 0 0 = .error .divisionByZero := by
  decide +kernel

/-! ## Single steps: system and register moves -/

theorem test_nop : gives .nop State.reset 0x0000 (fun _ => true) ∧ gives .nop locked 0x8100 (fun t => t.f) := by decide

theorem test_csrr_locked : gives (.csrr 2) locked 0x0113 (fun t => t.f) ∧ gives (.csrr 0) locked 0x0101 (fun _ => true) := by
  decide

theorem test_clrf : gives .clrf locked 0x0000 fun t => decide (t.f = false ∧ t.fop = 0 ∧ t.fcode = 0) := by decide

theorem test_rdr : gives (.rdr 5) (regs [(5, 0xa1)]) 0x00a1 (fun _ => true) := by decide

theorem test_ldi : gives (.ldi 1 0x53) State.reset 0x0053 fun t => decide (t.reg 1 = 0x53 ∧ t.reg 0 = 0) := by decide

theorem test_mov : gives (.mov 9 2) (regs [(2, 0x07)]) 0x0007 fun t => decide (t.reg 9 = 0x07 ∧ t.reg 2 = 0x07) := by decide

/-! ## Single steps: buffers (V3) -/

theorem test_stci : gives (.stci 255 0x99) State.reset 0x0000 fun t =>
    decide (t.cell? .coef 255 = some 0x99 ∧ t.cell? .coef 254 = none) := by decide

theorem test_stc : gives (.stc 3 1) (regs [(3, 7)]) 0x0000 fun t => decide (t.cell? .coef 1 = some 7) := by decide

theorem test_ldc : gives (.ldc 2 1) (cells .coef [0x2a, 0x07] State.reset) 0x0007 fun t => decide (t.reg 2 = 7) := by
  decide

theorem test_stxi : gives (.stxi 5 0x11) State.reset 0x0000 fun t =>
    decide (t.cell? .px 5 = some 0x11 ∧ t.cell? .py 5 = none) := by decide

theorem test_stx : gives (.stx 5 6) (regs [(5, 0x11)]) 0x0000 fun t => decide (t.cell? .px 6 = some 0x11) := by decide

theorem test_ldx : gives (.ldx 5 1) twoPoints 0x0002 fun t => decide (t.reg 5 = 2) := by decide

theorem test_styi : gives (.styi 1 0x3e) twoPoints 0x0000 fun t =>
    decide (t.cell? .py 1 = some 0x3e ∧ t.cell? .px 1 = some 0x02) := by decide

theorem test_sty : gives (.sty 4 1) (regs [(4, 0xef)]) 0x0000 fun t => decide (t.cell? .py 1 = some 0xef) := by decide

theorem test_ldy : gives (.ldy 7 1) twoPoints 0x00ef fun t => decide (t.reg 7 = 0xef) := by decide

theorem test_stm : gives (.stm 9 2 1 2) (regs [(9, 0xab)]) 0x0000 fun t =>
    decide (t.cell? (.mat 2) (matIndex 1 2) = some 0xab ∧ t.cell? (.mat 1) (matIndex 1 2) = none ∧
      t.cell? (.mat 2) (matIndex 2 1) = none) := by decide

theorem test_ldm : gives (.ldm 10 3 255 255) (State.reset.store (.mat 3) 65535 0xab) 0x00ab fun t =>
    decide (t.reg 10 = 0xab) := by decide

/-! ## Single steps: the field -/

theorem test_fadd : gives (.fadd 3 1 2) (regs [(1, 0x3d), (2, 0x73)]) 0x004e fun t => decide (t.reg 3 = 0x4e) := by decide

theorem test_fsub : gives (.fsub 3 1 2) (regs [(1, 0x3d), (2, 0x73)]) 0x004e fun t => decide (t.reg 3 = 0x4e) := by decide

theorem test_fmul : gives (.fmul 3 1 2) (regs [(1, 0xeb), (2, 0x02)]) 0x00cb fun t => decide (t.reg 3 = 0xcb) := by
  decide +kernel

theorem test_fdiv : gives (.fdiv 3 1 2) (regs [(1, 0xcb), (2, 0x02)]) 0x00eb fun t => decide (t.reg 3 = 0xeb) := by
  decide +kernel

theorem test_fdiv_by_zero : gives (.fdiv 3 1 2) (regs [(1, 0x53), (3, 0x77)]) 0x8100 fun t =>
    decide (t.f ∧ t.fcode = 1 ∧ t.fop = 0x13 ∧ t.reg 3 = 0x77) := by decide

theorem test_fexp : gives (.fexp 2 1) (regs [(1, 0x08)]) 0x001d (fun t => decide (t.reg 2 = 0x1d)) ∧
    gives (.fexp 2 1) (regs [(1, 0xff)]) 0x0001 (fun _ => true) := by decide +kernel

theorem test_flog : gives (.flog 2 1) (regs [(1, 0x1d)]) 0x0008 fun t => decide (t.reg 2 = 8) := by decide +kernel

/-- FLOG of zero answers the open parameter (R115). -/
theorem test_flog_of_zero :
    exec (.flog 0 0) State.reset = .next ((State.reset.setReg 0 Config.log0).answer (response false 0 Config.log0)) := by
  have h : State.reset.reg 0#4 = 0#8 := by decide
  have hf : State.reset.f = false := rfl
  have hc : State.reset.fcode = 0#4 := rfl
  simp [exec, execFlog, ifUnlocked, writeBack, respond, h, hf, hc, test_log_zero]

/-! ## Single steps: the polynomial engines (V5) -/

/-- The polynomial 2a + 07 x + c5 x^2 in COEF. -/
def quadratic : State := cells .coef [0x2a, 0x07, 0xc5] (regs [(1, 0x03)])

theorem test_peval : gives (.peval 2 1 2) quadratic 0x00d5 (fun t => decide (t.reg 2 = 0xd5)) ∧
    gives (.peval 1 1 1) quadratic 0x0023 (fun _ => true) := by decide +kernel

theorem test_linterp : gives (.linterp 0 15 2) twoPoints 0x0073 fun t => decide (t.reg 0 = 0x73) := by decide +kernel

theorem test_linterp_faults : gives (.linterp 0 15 2) samePoints 0x8100 (fun t => decide (t.fop = 0x31 ∧ t.reg 0 = 0)) ∧
    gives (.linterp 0 15 0) State.reset 0x8300 (fun t => decide (t.fop = 0x31)) := by decide +kernel

/-! ## Single steps: the matrix engine (V6) -/

theorem test_mbuild : gives (.mbuild 3) (cells .py [0xe8, 0x17, 0xd5] (cells .px [1, 2, 3] State.reset)) 0x0000
    (holds 0 [[1, 1, 1, 0xe8], [4, 2, 1, 0x17], [5, 3, 1, 0xd5]]) := by decide +kernel

/-- The example of R134 with a swap: points with x = 0, 1, 2. -/
theorem test_mfwd : gives (.mfwd 3) (bank 0 [[0, 0, 1, 0x2a], [1, 1, 1, 0xe8], [4, 2, 1, 0x17]] State.reset) 0x0000
    (holds 1 [[1, 1, 1, 0xe8], [0, 6, 5, 0x90], [0, 0, 1, 0x2a]]) := by decide +kernel

/-- V6.11: SingularMatrix leaves bank 1's block unspecified and the rest of the bank alone (R141). -/
theorem test_mfwd_singular :
    gives (.mfwd 2) ((bank 1 [[1, 0, 9], [0, 1, 9]] (bank 0 [[0, 1, 5], [0, 1, 9]] State.reset)).store (.mat 1) 3 0x77) 0x8200
      fun t => decide (t.fop = 0x41 ∧ t.cell? (.mat 1) 0 = none ∧ t.cell? (.mat 1) 258 = none ∧
        t.cell? (.mat 1) 3 = some 0x77) := by decide +kernel

/-- V6.2. -/
theorem test_mback : gives (.mback 2) (bank 1 [[2, 3, 5], [0, 4, 6]] State.reset) 0x0000
    (holds 2 [[2, 0, 0x89], [0, 4, 6]]) := by decide +kernel

/-- The second example of R136. -/
theorem test_mback_zero_diagonal : gives (.mback 2) (bank 1 [[1, 1, 5], [0, 0, 0x0c]] State.reset) 0x8100
    fun t => decide (t.fcode = 1 ∧ t.fop = 0x42) := by decide +kernel

/-- V6.3. -/
theorem test_mnorm : gives (.mnorm 2) (bank 2 [[2, 0, 0x89], [0, 4, 6]] State.reset) 0x0000
    (holds 3 [[1, 0, 0xca], [0, 1, 0x8f]]) := by decide +kernel

/-- V6.5. -/
theorem test_mnorm_zero_diagonal : gives (.mnorm 2) (bank 2 [[0, 0, 5], [0, 4, 6]] State.reset) 0x8100
    fun t => decide (t.fop = 0x43) := by decide +kernel

/-- The example of R139. -/
theorem test_msolve : gives (.msolve 2) (bank 0 [[1, 1, 0x3d], [2, 1, 0xef]] State.reset) 0x0000
    fun t => holds 1 [[1, 1, 0x3d], [0, 3, 0x95]] t && holds 2 [[1, 0, 0x4e], [0, 3, 0x95]] t &&
      holds 3 [[1, 0, 0x4e], [0, 1, 0x73]] t := by decide +kernel

/-- Program P5: points with x = 0, 0, 5, and R139's fault in stage 2 after a completed stage 1. -/
theorem test_msolve_faults :
    gives (.msolve 3) (bank 0 [[0, 0, 1, 1], [0, 0, 1, 2], [0x11, 5, 1, 3]] State.reset) 0x8200
      (fun t => decide (t.fop = 0x44)) ∧
    gives (.msolve 2) (bank 0 [[1, 1, 5], [1, 1, 9]] State.reset) 0x8100
      (fun t => decide (t.fop = 0x44) && holds 1 [[1, 1, 5], [0, 0, 0x0c]] t) := by decide +kernel

/-- The example of R140. -/
theorem test_mext : gives (.mext 2) (cells .coef [0, 0, 0x77] (bank 3 [[1, 0, 0x4e], [0, 1, 0x73]] State.reset)) 0x0000
    fun t => decide (t.cell? .coef 0 = some 0x73 ∧ t.cell? .coef 1 = some 0x4e ∧ t.cell? .coef 2 = some 0x77) := by
  decide

/-! ## Single steps: faults and the ports -/

/-- V1.33 and V7.2: an illegal word on an unlocked and on a locked core. -/
theorem test_illegal_word :
    next (step (given 0x2dff0000 State.reset)) (fun t => decide (t.rsp = some 0x8400 ∧ t.fcode = 4 ∧ t.fop = 0x2d)) ∧
    next (step (given 0x02000001 locked)) (fun t => decide (t.rsp = some 0x8100 ∧ t.f ∧ t.fop = 0x13)) := by decide

/-- V8.1: reset clears the lock and the registers and makes the buffers unspecified. -/
theorem test_reset_input :
    next (step { cells .coef [1] (regs [(1, 0x53)]) with f := true, fcode := 1, fop := 0x13, inputs := [.reset] })
      (fun t => decide (t.f = false ∧ t.fop = 0 ∧ t.reg 1 = 0 ∧ t.cell? .coef 0 = none)) := by decide

/-- With `cmd_valid = 1` and `rsp_ready = 0` the response is held and the word is not accepted (R51, R52). -/
theorem test_response_held : next (step { given 0x08010053 State.reset with rsp := some 0x0007 })
    (fun t => decide (t.rsp = some 0x0007 ∧ t.reg 1 = 0 ∧ t.inputs = [])) := by decide

/-- With `cmd_valid = 1` and `rsp_ready = 1` it is delivered, and the word is not accepted at that edge (R52). -/
theorem test_response_delivered :
    next (step { State.reset with rsp := some 0x0007, inputs := [.edge (some 0x08010053) true, .edge none false] })
      (fun t => decide (t.rsp = none ∧ t.reg 1 = 0 ∧ t.inputs = [.edge none false])) := by decide

/-- The canonical form holds at reset. -/
theorem test_reset_memory : State.reset.memOk = true := by decide

/-! ## Witnesses: the hypotheses of each statement can be met -/

/-- Bytes by index, zero past the end of the list. -/
def byteAt (bs : List Byte) (k : Nat) : Byte := bs.getD k 0

/-- A state with a written block in banks 0, 1 and 2, on which every stage completes. -/
def solvable : State :=
  bank 2 [[1, 0, 0x4e], [0, 3, 0x95]] (bank 1 [[1, 1, 0x3d], [0, 3, 0x95]] (bank 0 [[1, 1, 0x3d], [2, 1, 0xef]] twoPoints))

/-- Indices below two rows and up to column 2 are checked one by one. -/
theorem block_of_two (P : Nat → Nat → Prop) (h : ∀ i, i < 2 → ∀ c, c ≤ 2 → P i c) : ∀ i c, i < 2 → c ≤ 2 → P i c :=
  fun i c hi hc => h i hi c hc

/-- `twoPoints` has written, distinct x and written y. -/
theorem twoPoints_written : Written twoPoints .px 2 (byteAt [1, 2]) ∧ Written twoPoints .py 2 (byteAt [0x3d, 0xef]) ∧
    Distinct (byteAt [1, 2]) 2 := by
  refine ⟨?_, ?_, ?_⟩
  · unfold Written; decide
  · unfold Written; decide
  · have h : ∀ i, i < 2 → ∀ j, j < 2 → byteAt [1, 2] i = byteAt [1, 2] j → i = j := by decide
    exact fun i j hi hj => h i hi j hj

/-- `samePoints` has written x that are not distinct. -/
theorem samePoints_written : Written samePoints .px 2 (byteAt [1, 1]) ∧ ¬ Distinct (byteAt [1, 1]) 2 := by
  refine ⟨by unfold Written; decide, fun h => ?_⟩
  exact absurd (h 0 1 (by decide) (by decide) (by decide)) (by decide)

/-- The blocks of `solvable`. -/
theorem solvable_holds :
    HoldsBlock solvable 0 2 [[1, 1, 0x3d], [2, 1, 0xef]] ∧ HoldsBlock solvable 1 2 [[1, 1, 0x3d], [0, 3, 0x95]] ∧
    HoldsBlock solvable 2 2 [[1, 0, 0x4e], [0, 3, 0x95]] := by
  refine ⟨⟨by unfold Shape; decide, block_of_two _ (by decide)⟩, ⟨by unfold Shape; decide, block_of_two _ (by decide)⟩,
    ⟨by unfold Shape; decide, block_of_two _ (by decide)⟩⟩

/-- An illegal word of clause (a) and the boundary of clause (c) match no row. -/
theorem illegal_words_match_no_row : ¬ LegalWord 0x46000000 ∧ ¬ LegalWord 0x01000003 := by
  unfold LegalWord OpRow.matches; decide

theorem witness_DecodeOfEncodeIsTheCommand :
    (Instr.csrr 2).wf = true ∧ (Instr.ldm 15 3 255 255).wf = true := by decide

theorem witness_EncodeOfDecodeIsTheWord : decode 0x2dc9ffff = .ok (.stm 9 3 255 255) := by decide

theorem witness_StepRunsTheDecodedCommand :
    (given 0x2ccaffff State.reset).rsp = none ∧
    (given 0x2ccaffff State.reset).inputs = .edge (some 0x2ccaffff) false :: [] ∧ decode 0x2ccaffff = .ok (.ldm 10 3 255 255) := by
  decide

theorem witness_PortEventsFollowTheHandshake :
    State.reset.inputs = [] ∧
    ({ State.reset with inputs := [.edge none true] }.inputs = .edge none true :: [] ∧
      { State.reset with inputs := [.edge none true] }.rsp = none) ∧
    ({ State.reset with inputs := [.edge (some 0) true], rsp := some 0 }.inputs = .edge (some 0) true :: [] ∧
      { State.reset with inputs := [.edge (some 0) true], rsp := some 0 }.rsp ≠ none) ∧
    ({ given 0 State.reset with rsp := some 0 }.inputs = .edge (some 0) false :: [] ∧
      { given 0 State.reset with rsp := some 0 }.rsp ≠ none) ∧
    { locked with inputs := [.reset, .edge none true] }.inputs = .reset :: [.edge none true] := by decide

theorem witness_IllegalWordRaisesIllegalCommand :
    (∃ (s : State) (w : Word), s.rsp = none ∧ s.inputs = .edge (some w) false :: [] ∧ ¬ LegalWord w ∧ s.f = false) ∧
    (∃ (s : State) (w : Word), s.rsp = none ∧ s.inputs = .edge (some w) false :: [] ∧ ¬ LegalWord w ∧ s.f = true) :=
  ⟨⟨given 0x46000000 State.reset, 0x46000000, rfl, rfl, illegal_words_match_no_row.1, rfl⟩,
   ⟨given 0x01000003 locked, 0x01000003, rfl, rfl, illegal_words_match_no_row.2, rfl⟩⟩

/-- A legal command, an illegal word, and CSRR of the last CSR, each presented to a locked core. -/
theorem witness_LockedCoreRefusesAllButCsrrAndClrf :
    (given 0x08010009 locked).f = true ∧ (given 0x08010009 locked).rsp = none ∧
    (∀ i, decode 0x08010009 = .ok i → ¬ i.runsLocked) ∧ (∀ i, decode 0x01000003 = .ok i → ¬ i.runsLocked) ∧
    (decode 0x01000002 = .ok (.csrr 2) ∧ (Instr.csrr 2).runsLocked) := by
  refine ⟨rfl, rfl, fun i h => ?_, fun i h => ?_, by decide, ?_⟩
  · have : i = .ldi 1 9 := by
      have h' : decode 0x08010009 = .ok (.ldi 1 9) := by decide
      simpa using (h.symm.trans h')
    subst this; exact id
  · have h' : decode 0x01000003 = .illegal .noSuchCsr := by decide
    exact absurd (h.symm.trans h') (by simp)
  · show (2 : Byte).toNat ≤ 2; decide

theorem witness_OnlyClrfAndResetUnlock :
    { locked with inputs := [.reset] }.inputs = .reset :: [] ∧
    (∃ t, step (given 0x02000000 locked) = .next t ∧ (given 0x02000000 locked).f = true ∧ t.f = false) :=
  ⟨rfl, _, rfl, rfl, rfl⟩

theorem witness_FirstFaultIsKept :
    ∃ t, step (given 0xffffffff locked) = .next t ∧ (given 0xffffffff locked).f = true ∧ t.f = true :=
  ⟨_, rfl, rfl, by decide⟩

/-- A fault, a refusal, a command with a destination, RDR, CSRR and a store all answer. -/
theorem witness_ResponseWordOfEveryCommand :
    next (runWord 0x13030102 (regs [(1, 5)])) (fun t => t.f) ∧ next (runWord 0x08010009 locked) (fun t => t.f) ∧
    next (runWord 0x080f00ff State.reset) (fun t => decide (t.rsp.map rspErr = some false)) ∧
    (Instr.ldi 15 0xff).destReg = some 15 ∧
    next (runWord 0x03000500 (regs [(5, 0xa1)])) (fun t => decide (t.rsp.map rspErr = some false)) ∧
    next (runWord 0x01000002 locked) (fun t => decide (t.rsp.map rspErr = some false)) ∧
    (next (runWord 0x2200ff99 State.reset) (fun t => decide (t.rsp.map rspErr = some false)) ∧
      (Instr.stci 255 0x99).destReg = none) ∧ State.reset.inv = true := by decide

theorem witness_StepKeepsTheInvariant :
    (given 0x2200ff99 (cells .coef [1, 2] State.reset)).inv = true ∧
    next (step (given 0x2200ff99 (cells .coef [1, 2] State.reset))) (fun t => t.inv) ∧ locked.inv = true := by decide

theorem witness_ResetLeavesTheResetState :
    { cells .px [7] locked with inputs := [.reset, .edge (some 0) true] }.inputs = .reset :: [.edge (some 0) true] := rfl

/-- Each kind of write happens: cells of each space, a register, the fault registers. -/
theorem witness_OnlyTheNamedCommandsWrite :
    next (exec (.stci 255 9) State.reset) (fun t => decide (t.cell? .coef 255 ≠ State.reset.cell? .coef 255)) ∧
    next (exec (.stxi 0 9) State.reset) (fun t => decide (t.cell? .px 0 ≠ State.reset.cell? .px 0)) ∧
    next (exec (.styi 0 9) State.reset) (fun t => decide (t.cell? .py 0 ≠ State.reset.cell? .py 0)) ∧
    next (exec (.stm 0 3 255 255) State.reset)
      (fun t => decide (t.cell? (.mat 3) 65535 ≠ State.reset.cell? (.mat 3) 65535)) ∧
    next (exec (.ldi 15 9) State.reset) (fun t => decide (t.reg 15 ≠ State.reset.reg 15)) ∧
    next (exec (.mext 0) State.reset) (fun t => decide (t.f ≠ State.reset.f)) := by decide

theorem witness_NopAnswersZero : State.reset.f = false ∧ locked.f = true := ⟨rfl, rfl⟩

theorem witness_CsrrReadsTheCsr : State.reset.inv = true ∧ State.reset.f = false := by decide

theorem witness_ClrfClearsTheFaultRegisters : twoPoints.inv = true ∧ twoPoints.f = false := by decide

theorem witness_RegisterMoveResults : (regs [(5, 0xa1)]).f = false ∧ locked.f = true := by decide

/-- An unlocked core with a written first and last cell. -/
theorem witness_LoadsReadTheirCell :
    (State.reset.store (.mat 3) (matIndex 255 255) 0xab).f = false ∧
    (State.reset.store (.mat 3) (matIndex 255 255) 0xab).cell? (.mat 3) (matIndex 255 255) = some 0xab ∧
    twoPoints.cell? .px 0 = some 1 := by decide

theorem witness_RegisterStoresWriteTheirCell : (regs [(15, 0xab)]).f = false := by decide

theorem witness_ImmediateStoresWriteTheirCell : twoPoints.f = false := by decide

theorem witness_LoadReturnsTheLastStore :
    (regs [(9, 0xab)]).f = false ∧ ((1 : Bank), (1 : Byte), (2 : Byte)) ≠ (2, 1, 2) ∧
    ((0 : Bank), (255 : Byte), (255 : Byte)) ≠ (0, 255, 254) := by decide

theorem witness_RomIsTheConstruction : (254 : Byte) ≠ 255 ∧ (1 : Byte) ≠ 0 := by decide

theorem witness_FieldLaws : gfMul 0 7 = 0 ∧ (0x02 : Byte) ≠ 0 ∧ gfDiv 0x01 0x02 = .ok 0x8e := by decide +kernel

theorem witness_SourceFieldLaws : State.reset.f = false ∧ (0xff : Byte) ≠ 0 := by decide

theorem witness_FaddFsubXor : (regs [(1, 0x3d), (2, 0x73)]).f = false := by decide

theorem witness_FmulWritesTheProduct : (regs [(1, 0xeb), (2, 0x02)]).f = false ∧ (0x01 : Byte) ≠ 0 := by decide

/-- Nonzero divisor with a zero dividend and with both operands one register, and a zero divisor. -/
theorem witness_FdivDividesOrFaults :
    (regs [(2, 2)]).f = false ∧ (regs [(2, 2)]).reg 2 ≠ 0 ∧ (regs [(2, 2)]).reg 1 = 0 ∧ State.reset.reg 2 = 0 := by decide

theorem witness_RomPortsReadTheirCell :
    (regs [(1, 255), (2, 1)]).f = false ∧ (regs [(1, 255), (2, 1)]).reg 1 = 255 ∧
    (regs [(1, 255), (2, 1)]).reg 2 = 1 ∧ (regs [(1, 255), (2, 1)]).reg 3 = 0 := by decide

theorem witness_PevalEvaluates : quadratic.f = false := by decide

theorem witness_LagrangeFaultsExactlyOnDuplicates :
    (1 ≤ 2 ∧ Distinct (byteAt [1, 2]) 2) ∧ ¬ Distinct (byteAt [1, 1]) 2 ∧ (0 : Nat) < 2 :=
  ⟨⟨by decide, twoPoints_written.2.2⟩, samePoints_written.2, by decide⟩

/-- A zero count; two distinct points with the operand at one of them; two equal points. -/
theorem witness_LinterpInterpolatesOrFaults :
    twoPoints.f = false ∧ (2 : Byte) ≠ 0 ∧ Written twoPoints .px 2 (byteAt [1, 2]) ∧ Distinct (byteAt [1, 2]) 2 ∧
    samePoints.f = false ∧ Written samePoints .px 2 (byteAt [1, 1]) ∧ ¬ Distinct (byteAt [1, 1]) 2 :=
  ⟨by decide, by decide, twoPoints_written.1, twoPoints_written.2.2, by decide, samePoints_written.1,
    samePoints_written.2⟩

theorem witness_LinterpCompletesOnDistinctPoints :
    (twoPoints.setReg 1 2).f = false ∧ (2 : Byte) ≠ 0 ∧ Written twoPoints .px (2 : Byte).toNat (byteAt [1, 2]) ∧
    Distinct (byteAt [1, 2]) (2 : Byte).toNat ∧ (twoPoints.setReg 1 2).reg 1 = byteAt [1, 2] 1 ∧
    (twoPoints.setReg 1 2).cell? .py 1 = some 0xef :=
  ⟨by decide, by decide, twoPoints_written.1, twoPoints_written.2.2, by decide, by decide⟩

/-- The line 73 + 4e x at x = 1 and 2 (V5.1). -/
theorem witness_EnginesAgree :
    1 + 1 ≤ 2 ∧ Distinct (byteAt [1, 2]) 2 ∧ ∀ i, i < 2 → byteAt [0x3d, 0xef] i = polyEval (byteAt [0x73, 0x4e]) 1 (byteAt [1, 2] i) :=
  ⟨by decide, twoPoints_written.2.2, by decide +kernel⟩

/-- Two states that agree on the cells read and the operand and differ elsewhere, for PEVAL and for LINTERP. -/
theorem witness_PolynomialEnginesReadOnlyTheirCells :
    (Written quadratic .coef ((2 : Byte).toNat + 1) (byteAt [0x2a, 0x07, 0xc5]) ∧
      Written (quadratic.setReg 4 9) .coef ((2 : Byte).toNat + 1) (byteAt [0x2a, 0x07, 0xc5]) ∧
      quadratic.reg 1 = (quadratic.setReg 4 9).reg 1 ∧
      next (exec (.peval 2 1 2) quadratic) (fun _ => true) ∧
      next (exec (.peval 2 1 2) (quadratic.setReg 4 9)) (fun _ => true)) ∧
    (Written twoPoints .px (2 : Byte).toNat (byteAt [1, 2]) ∧ Written (cells .coef [5] twoPoints) .px 2 (byteAt [1, 2]) ∧
      Written twoPoints .py (2 : Byte).toNat (byteAt [0x3d, 0xef]) ∧
      Written (cells .coef [5] twoPoints) .py 2 (byteAt [0x3d, 0xef]) ∧
      next (exec (.linterp 0 15 2) twoPoints) (fun t => !t.f) ∧
      next (exec (.linterp 0 15 2) (cells .coef [5] twoPoints)) (fun t => !t.f)) ∧
    next (exec (.linterp 0 15 2) samePoints) (fun t => t.f) := by
  refine ⟨⟨?_, ?_, ?_, ?_, ?_⟩, ⟨twoPoints_written.1, ?_, twoPoints_written.2.1, ?_, ?_, ?_⟩, ?_⟩
  all_goals (try unfold Written)
  all_goals decide +kernel

theorem witness_MbuildBuildsTheSystem :
    twoPoints.f = false ∧ (255 : Byte) ≠ 0 ∧ next (exec (.mbuild 0) twoPoints) (fun t => t.f) ∧
    (0 : Nat) < (255 : Byte).toNat ∧ (254 : Nat) < (255 : Byte).toNat := by decide

/-- A block that eliminates and one that does not. -/
theorem witness_MfwdRunsForwardElimination :
    solvable.f = false ∧ (2 : Byte) ≠ 0 ∧ HoldsBlock solvable 0 2 [[1, 1, 0x3d], [2, 1, 0xef]] ∧
    fwdElim [[1, 1, 0x3d], [2, 1, 0xef]] 2 = .ok [[1, 1, 0x3d], [0, 3, 0x95]] ∧
    fwdElim [[0, 1, 5], [0, 1, 9]] 2 = .error .singularMatrix :=
  ⟨by decide, by decide, solvable_holds.1, by decide +kernel, by decide +kernel⟩

theorem witness_MbackRunsBackwardSubstitution :
    solvable.f = false ∧ (2 : Byte) ≠ 0 ∧ HoldsBlock solvable 1 2 [[1, 1, 0x3d], [0, 3, 0x95]] ∧
    backSubst [[1, 1, 0x3d], [0, 3, 0x95]] 2 = .ok [[1, 0, 0x4e], [0, 3, 0x95]] ∧
    backSubst [[1, 1, 5], [0, 0, 0x0c]] 2 = .error .divisionByZero :=
  ⟨by decide, by decide, solvable_holds.2.1, by decide +kernel, by decide +kernel⟩

theorem witness_MnormRunsNormalization :
    solvable.f = false ∧ (2 : Byte) ≠ 0 ∧ HoldsBlock solvable 2 2 [[1, 0, 0x4e], [0, 3, 0x95]] ∧
    (∀ i, i < (2 : Byte).toNat → entry [[1, 0, 0x4e], [0, 3, 0x95]] i i ≠ 0) ∧
    (∃ i, i < (2 : Byte).toNat ∧ entry [[1, 0, 5], [0, 0, 6]] i i = 0) :=
  ⟨by decide, by decide, solvable_holds.2.2, by decide, 1, by decide, by decide⟩

/-- A system for each outcome: all stages complete, stage 1, stage 2, stage 3 faults. -/
theorem witness_MsolveRunsTheThreeStages :
    solvable.f = false ∧ (2 : Byte) ≠ 0 ∧ HoldsBlock solvable 0 2 [[1, 1, 0x3d], [2, 1, 0xef]] ∧
    next (exec (.msolve 2) solvable) (fun t => !t.f) ∧
    fwdElim [[0, 1, 5], [0, 1, 9]] 2 = .error .singularMatrix ∧
    (fwdElim [[1, 1, 5], [1, 1, 9]] 2 = .ok [[1, 1, 5], [0, 0, 0x0c]] ∧
      backSubst [[1, 1, 5], [0, 0, 0x0c]] 2 = .error .divisionByZero) ∧
    (fwdElim [[1, 0, 5], [0, 0, 9]] 2 = .ok [[1, 0, 5], [0, 0, 9]] ∧
      backSubst [[1, 0, 5], [0, 0, 9]] 2 = .ok [[1, 0, 5], [0, 0, 9]] ∧
      normalize [[1, 0, 5], [0, 0, 9]] = .error .divisionByZero) := by
  refine ⟨by decide, by decide, solvable_holds.1, by decide +kernel, by decide +kernel, ⟨?_, ?_⟩, ?_, ?_, ?_⟩
  all_goals decide +kernel

theorem witness_MextCopiesTheSolution :
    solvable.f = false ∧ (255 : Byte) ≠ 0 ∧ next (exec (.mext 255) State.reset) (fun t => !t.f) ∧
    (bank 3 [[1, 0, 0x4e], [0, 1, 0x73]] State.reset).cell? (.mat 3) (matIndex 0 2) = some 0x4e := by decide +kernel

theorem witness_StagesCompleteOnSoundInput :
    solvable.f = false ∧ (2 : Byte) ≠ 0 ∧ HoldsBlock solvable 0 2 [[1, 1, 0x3d], [2, 1, 0xef]] ∧
    (∃ W, fwdElim [[1, 1, 0x3d], [2, 1, 0xef]] 2 = .ok W ∧ ∀ i, i < 2 → entry W i i ≠ 0) ∧
    (HoldsBlock solvable 1 2 [[1, 1, 0x3d], [0, 3, 0x95]] ∧
      ∀ i, i < 2 → entry [[1, 1, 0x3d], [0, 3, 0x95]] i i ≠ 0) ∧
    (HoldsBlock solvable 2 2 [[1, 0, 0x4e], [0, 3, 0x95]] ∧
      ∀ i, i < 2 → entry [[1, 0, 0x4e], [0, 3, 0x95]] i i ≠ 0) :=
  ⟨by decide, by decide, solvable_holds.1, ⟨[[1, 1, 0x3d], [0, 3, 0x95]], by decide +kernel, by decide⟩,
    ⟨solvable_holds.2.1, by decide⟩, solvable_holds.2.2, by decide⟩

/-- A square that eliminates, one that does not, and one already triangular. -/
theorem witness_ForwardEliminationTriangulates :
    Shape [[1, 1, 0x3d], [2, 1, 0xef]] 2 ∧ fwdElim [[1, 1, 0x3d], [2, 1, 0xef]] 2 = .ok [[1, 1, 0x3d], [0, 3, 0x95]] ∧
    (Shape [[0, 1, 5], [0, 1, 9]] 2 ∧ fwdElim [[0, 1, 5], [0, 1, 9]] 2 = .error .singularMatrix) ∧
    Shape [[7, 9]] 1 ∧ 1 ≤ 1 := by unfold Shape; decide +kernel

/-- A pivot found two rows below, a nonzero pivot with a row to clear below it, and a column that is zero. -/
theorem witness_PivotTakesTheFirstRowAndClearsBelow :
    (Shape [[0, 0, 1, 1], [0, 2, 1, 3], [5, 3, 1, 7]] 3 ∧ entry [[0, 0, 1, 1], [0, 2, 1, 3], [5, 3, 1, 7]] 0 0 = 0 ∧
      entry [[0, 0, 1, 1], [0, 2, 1, 3], [5, 3, 1, 7]] 2 0 ≠ 0 ∧
      ∀ r, 0 < r → r < 2 → entry [[0, 0, 1, 1], [0, 2, 1, 3], [5, 3, 1, 7]] r 0 = 0) ∧
    (Shape [[1, 1, 0x3d], [2, 1, 0xef]] 2 ∧ entry [[1, 1, 0x3d], [2, 1, 0xef]] 0 0 ≠ 0 ∧
      gfDiv (entry [[1, 1, 0x3d], [2, 1, 0xef]] 1 0) (entry [[1, 1, 0x3d], [2, 1, 0xef]] 0 0) = .ok 2) ∧
    ∀ r, 0 ≤ r → r < 2 → entry [[0, 1, 5], [0, 1, 9]] r 0 = 0 := by
  refine ⟨⟨by unfold Shape; decide, by decide, by decide, fun r h0 h2 => ?_⟩,
    ⟨by unfold Shape; decide, by decide, by decide +kernel⟩, fun r _ h => ?_⟩
  · obtain rfl : r = 1 := by omega
    decide
  · obtain rfl | rfl : r = 0 ∨ r = 1 := by omega
    all_goals decide

/-- A written bank 0 whose column 0 is zero, and one on which no pivot column is. -/
theorem witness_ForwardEliminationFailsExactlyOnAZeroColumn :
    (HoldsBlock (bank 0 [[0, 1, 5], [0, 1, 9]] State.reset) 0 2 [[0, 1, 5], [0, 1, 9]] ∧
      MeetsAZeroColumn [[0, 1, 5], [0, 1, 9]] 2) ∧
    (solvable.f = false ∧ (2 : Byte) ≠ 0 ∧ HoldsBlock solvable 0 2 [[1, 1, 0x3d], [2, 1, 0xef]] ∧
      ¬ MeetsAZeroColumn [[1, 1, 0x3d], [2, 1, 0xef]] 2) := by
  refine ⟨⟨⟨by unfold Shape; decide, block_of_two _ (by decide)⟩, 0, _, by decide, rfl, fun r _ h => ?_⟩,
    by decide, by decide, solvable_holds.1, ?_⟩
  · obtain rfl | rfl : r = 0 ∨ r = 1 := by omega
    all_goals decide
  · rintro ⟨i, W, hi, hW, h⟩
    obtain rfl : i = 0 := by omega
    obtain rfl : [[1, 1, 0x3d], [2, 1, 0xef]] = W := by simpa [fwdLoop] using hW
    exact absurd (h 0 (by decide) (by decide)) (by decide)

theorem witness_ForwardEliminationKeepsTheSolutions :
    Shape [[1, 1, 0x3d], [2, 1, 0xef]] 2 ∧ fwdElim [[1, 1, 0x3d], [2, 1, 0xef]] 2 = .ok [[1, 1, 0x3d], [0, 3, 0x95]] := by
  unfold Shape; decide +kernel

theorem witness_BackwardSubstitutionClearsAbove :
    Shape [[1, 1, 0x3d], [0, 3, 0x95]] 2 ∧ 1 ≤ 2 ∧
    backSubst [[1, 1, 0x3d], [0, 3, 0x95]] 2 = .ok [[1, 0, 0x4e], [0, 3, 0x95]] ∧
    (entry [[1, 1, 0x3d], [0, 3, 0x95]] 1 0 = 0 ∧ ∀ i, i < 2 → entry [[1, 1, 0x3d], [0, 3, 0x95]] i i ≠ 0) ∧
    (Shape [[1, 1, 5], [0, 0, 0x0c]] 2 ∧ backSubst [[1, 1, 5], [0, 0, 0x0c]] 2 = .error .divisionByZero) := by
  unfold Shape; decide +kernel

theorem witness_NormalizationDividesByTheDiagonal :
    Shape [[2, 0, 0x89], [0, 4, 6]] 2 ∧ normalize [[2, 0, 0x89], [0, 4, 6]] = .ok [[1, 0, 0xca], [0, 1, 0x8f]] ∧
    (entry [[2, 0, 0x89], [0, 4, 6]] 0 1 = 0 ∧ entry [[2, 0, 0x89], [0, 4, 6]] 1 0 = 0) ∧
    normalize [[0, 0, 5], [0, 4, 6]] = .error .divisionByZero := by unfold Shape; decide +kernel

theorem witness_MsolveIsTheThreeCommands :
    solvable.f = false ∧ (2 : Byte) ≠ 0 ∧ next (execAll [.mfwd 2, .mback 2, .mnorm 2] solvable) (fun t => !t.f) ∧
    next (execAll [.mfwd 2, .mback 2, .mnorm 2] (bank 0 [[1, 1, 5], [1, 1, 9]] State.reset)) (fun t => t.f) := by
  decide +kernel

/-- Every fault case of the six matrix commands happens. -/
theorem witness_FaultedStageLeavesOnlyItsBlock :
    next (exec (.mfwd 2) (bank 0 [[0, 1, 5], [0, 1, 9]] State.reset)) (fun t => t.f) ∧
    next (exec (.mback 2) (bank 1 [[1, 1, 5], [0, 0, 0x0c]] State.reset)) (fun t => t.f) ∧
    next (exec (.mnorm 2) (bank 2 [[0, 0, 5], [0, 4, 6]] State.reset)) (fun t => t.f) ∧
    next (exec (.msolve 2) (bank 0 [[0, 1, 5], [0, 1, 9]] State.reset)) (fun t => t.f) ∧
    next (exec (.msolve 2) (bank 0 [[1, 1, 5], [1, 1, 9]] State.reset)) (fun t => t.f) ∧
    next (exec (.msolve 2) (bank 0 [[1, 0, 5], [0, 0, 9]] State.reset)) (fun t => t.f) ∧
    next (exec (.mbuild 0) State.reset) (fun t => t.f) ∧ next (exec (.mext 0) State.reset) (fun t => t.f) ∧
    next (exec (.mfwd 0) State.reset) (fun t => t.f) := by decide +kernel

theorem witness_StagesReadOnlyTheirInputBlock :
    solvable.f = false ∧ (solvable.setReg 4 9).f = false ∧ (2 : Byte) ≠ 0 ∧
    HoldsBlock solvable 0 2 [[1, 1, 0x3d], [2, 1, 0xef]] ∧
    HoldsBlock (solvable.setReg 4 9) 0 2 [[1, 1, 0x3d], [2, 1, 0xef]] ∧
    next (exec (.msolve 2) solvable) (fun _ => true) ∧ next (exec (.msolve 2) (solvable.setReg 4 9)) (fun _ => true) :=
  ⟨by decide, by decide, by decide, solvable_holds.1, ⟨by unfold Shape; decide, block_of_two _ (by decide)⟩,
    by decide +kernel, by decide +kernel⟩

theorem witness_ZeroCountRaisesInvalidArgument :
    State.reset.f = false ∧
    next (runWord 0x45000000 State.reset) (fun t => decide (t.f = true ∧ t.fcode = 3)) := by decide

/-- Each of the four codes is raised. -/
theorem witness_OnlyTheNamedCommandsFault :
    next (runWord 0x13030102 State.reset) (fun t => decide (t.f = true ∧ t.fcode = 1)) ∧
    next (runWord 0x41000002 (bank 0 [[0, 1, 5], [0, 1, 9]] State.reset)) (fun t => decide (t.f = true ∧ t.fcode = 2)) ∧
    next (runWord 0x31000000 State.reset) (fun t => decide (t.f = true ∧ t.fcode = 3)) ∧
    next (runWord 0xffffffff State.reset) (fun t => decide (t.f = true ∧ t.fcode = 4)) := by decide +kernel

theorem witness_SolveRebuildsThePolynomial :
    twoPoints.f = false ∧ (2 : Byte) ≠ 0 ∧ Written twoPoints .px (2 : Byte).toNat (byteAt [1, 2]) ∧
    Written twoPoints .py (2 : Byte).toNat (byteAt [0x3d, 0xef]) ∧ Distinct (byteAt [1, 2]) (2 : Byte).toNat :=
  ⟨by decide, by decide, twoPoints_written⟩

theorem witness_DuplicatePointsNeverSolve :
    samePoints.f = false ∧ (2 : Byte) ≠ 0 ∧ Written samePoints .px (2 : Byte).toNat (byteAt [1, 1]) ∧
    ¬ Distinct (byteAt [1, 1]) (2 : Byte).toNat ∧ next (execAll [.mbuild 2, .msolve 2] samePoints) (fun _ => true) :=
  ⟨by decide, by decide, samePoints_written.1, samePoints_written.2, by decide +kernel⟩

end Sys2Proof.Tests
end

section
/-!
PROOFS. What a command can answer, said once for all 31 commands, and the statements of 10_state.md that follow from it:
the invariant every step keeps, who writes what, and what reset leaves.
-/
namespace Sys2Proof

/-- The address spaces a command writes (the "written by" column of R10). -/
def Instr.destSpaces : Instr → List Space
  | .stc _ _ | .stci _ _ | .mext _ => [.coef]
  | .stx _ _ | .stxi _ _ => [.px]
  | .sty _ _ | .styi _ _ => [.py]
  | .stm _ bank _ _ => [.mat bank]
  | .mbuild _ => [.mat 0]
  | .mfwd _ => [.mat 1]
  | .mback _ => [.mat 2]
  | .mnorm _ => [.mat 3]
  | .msolve _ => [.mat 1, .mat 2, .mat 3]
  | .nop | .csrr _ | .clrf | .rdr _ | .ldi _ _ | .mov _ _ => []
  | .fadd _ _ _ | .fsub _ _ _ | .fmul _ _ _ | .fdiv _ _ _ | .fexp _ _ | .flog _ _ => []
  | .ldc _ _ | .ldx _ _ | .ldy _ _ | .ldm _ _ _ _ | .peval _ _ _ | .linterp _ _ _ => []

theorem Instr.coef_mem_destSpaces {i : Instr} (h : .coef ∈ i.destSpaces) :
    (∃ ra k, i = .stc ra k) ∨ (∃ k v, i = .stci k v) ∨ (∃ n, i = .mext n) := by
  cases i <;> simp_all [destSpaces]

theorem Instr.px_mem_destSpaces {i : Instr} (h : .px ∈ i.destSpaces) :
    (∃ ra k, i = .stx ra k) ∨ (∃ k v, i = .stxi k v) := by
  cases i <;> simp_all [destSpaces]

theorem Instr.py_mem_destSpaces {i : Instr} (h : .py ∈ i.destSpaces) :
    (∃ ra k, i = .sty ra k) ∨ (∃ k v, i = .styi k v) := by
  cases i <;> simp_all [destSpaces]

theorem Instr.mat_mem_destSpaces {i : Instr} {b : Bank} (h : .mat b ∈ i.destSpaces) :
    (∃ ra r c, i = .stm ra b r c) ∨ (b = 0 ∧ ∃ n, i = .mbuild n) ∨ (b = 1 ∧ ∃ n, i = .mfwd n) ∨
      (b = 2 ∧ ∃ n, i = .mback n) ∨ (b = 3 ∧ ∃ n, i = .mnorm n) ∨ (b ≠ 0 ∧ ∃ n, i = .msolve n) := by
  cases i
  case msolve n =>
    have hb : b = 1 ∨ b = 2 ∨ b = 3 := by simpa [destSpaces] using h
    have hb0 : b ≠ 0 := by rcases hb with rfl | rfl | rfl <;> decide
    simpa using hb0
  all_goals simp_all [destSpaces]

end Sys2Proof

namespace Sys2Proof.Machine

/-! ### What a command edits before it answers -/

/-- The states the body of command `i` can build from `s` before it answers: it reads buffers, writes its destination
register, and gives its destination spaces new contents that keep the canonical form. -/
inductive Edits (i : Instr) (s : State) : State → Prop
  | refl : Edits i s s
  | drew {u : State} (hu : Edits i s u) : Edits i s u.drew
  | setReg {u : State} {rd : Reg} (v : Byte) (hu : Edits i s u) (hrd : i.destReg = some rd) : Edits i s (u.setReg rd v)
  | setMem {u : State} {sp : Space} {m : Memory} (hu : Edits i s u) (hsp : sp ∈ i.destSpaces)
      (hm : u.memOk = true → (u.setMem sp m).memOk = true) : Edits i s (u.setMem sp m)

namespace Edits

variable {i : Instr} {s u : State}

theorem store {sp : Space} {a : Nat} (v : Byte) (hu : Edits i s u) (hsp : sp ∈ i.destSpaces) (ha : a < sp.size) :
    Edits i s (u.store sp a v) :=
  hu.setMem hsp fun h => State.store_memOk v h ha

theorem writeBlock {b : Bank} {n : Nat} (W : Mat) (hu : Edits i s u) (hb : .mat b ∈ i.destSpaces) (hn : n < 256) :
    Edits i s (u.writeBlock b n W) :=
  hu.setMem hb fun h => State.writeBlock_memOk b W h hn

theorem forgetBlock {b : Bank} (n : Nat) (hu : Edits i s u) (hb : .mat b ∈ i.destSpaces) :
    Edits i s (u.forgetBlock b n) :=
  hu.setMem hb fun h => State.forgetBlock_memOk b n h

theorem faultRegsSame (hu : Edits i s u) : FaultRegsSame s u := by
  induction hu with
  | refl => exact ⟨rfl, rfl, rfl⟩
  | drew _ ih | setReg _ _ _ ih | setMem _ _ _ ih => simpa [FaultRegsSame] using ih

theorem reg_eq {r : Reg} (hu : Edits i s u) (hr : i.destReg ≠ some r) : u.reg r = s.reg r := by
  induction hu with
  | refl => rfl
  | drew _ ih | setMem _ _ _ ih => simpa using ih
  | setReg v _ hrd ih => exact (State.setReg_reg_other _ v fun e => hr (by rw [e, hrd])).trans ih

theorem mem_eq {sp : Space} (hu : Edits i s u) (hsp : sp ∉ i.destSpaces) : u.mem sp = s.mem sp := by
  induction hu with
  | refl => rfl
  | drew _ ih | setReg _ _ _ ih => simpa using ih
  | setMem _ hmem _ ih => exact (State.setMem_mem_other _ _ fun e => hsp (by rwa [e])).trans ih

end Edits

/-! ### What a command can answer -/

/-- The four ways command `i` answers: refused by the lock (R168), completed, a fault latched with `i`'s opcode byte
(R166), or CLRF's clearing of the fault registers (R82). -/
inductive Answers (i : Instr) (s : State) : Result → Prop
  | refused (hf : s.f = true) : Answers i s (.next (s.answer (response true s.fcode 0)))
  | completed {u : State} (d : Byte) (hu : Edits i s u) : Answers i s (.next (u.answer (response false u.fcode d)))
  | raised {u : State} (k : FaultCode) (hf : s.f = false) (hu : Edits i s u) :
      Answers i s (.next ((u.latch k i.opcode).answer (response true k.code 0)))
  | cleared (hi : i = .clrf) : Answers i s (.next (s.unlatch.answer (response false 0 0)))

namespace Answers

variable {i : Instr} {s u : State} {body : Result}

theorem ifUnlocked (h : s.f = false → Answers i s body) : Answers i s (ifUnlocked s body) := by
  cases hf : s.f with
  | false => rw [ifUnlocked_of_unlocked body hf]; exact h hf
  | true => rw [ifUnlocked_of_locked body hf]; exact .refused hf

theorem ifCount {n : Byte} (hf : s.f = false) (h : Answers i s body) : Answers i s (ifCount i.opcode n s body) := by
  by_cases hn : n = 0#8
  · rw [hn, ifCount_zero]; exact .raised _ hf .refl
  · rwa [ifCount_pos hn]

/-- A command with a point count, guarded by the lock and by the count. -/
theorem ifUnlocked_ifCount {n : Byte} (h : s.f = false → Answers i s body) :
    Answers i s (Machine.ifUnlocked s (Machine.ifCount i.opcode n s body)) :=
  .ifUnlocked fun hf => .ifCount hf (h hf)

theorem writeBack {rd : Reg} (v : Byte) (hu : Edits i s u) (hrd : i.destReg = some rd) :
    Answers i s (writeBack rd v u) :=
  .completed v (hu.setReg v hrd)

theorem writeBackOrRaise {rd : Reg} (v : Except FaultCode Byte) (hf : s.f = false) (hu : Edits i s u)
    (hrd : i.destReg = some rd) : Answers i s (writeBackOrRaise i.opcode rd v u) := by
  cases v with
  | ok v => exact .writeBack v hu hrd
  | error k => exact .raised k hf hu

theorem loadCell {rd : Reg} (sp : Space) (a : Nat) (hrd : i.destReg = some rd) : Answers i s (loadCell rd sp a s) :=
  .ifUnlocked fun _ => .writeBack _ (.drew .refl) hrd

theorem storeCell {sp : Space} {a : Nat} (v : Byte) (hsp : sp ∈ i.destSpaces) (ha : a < sp.size) :
    Answers i s (storeCell sp a v s) :=
  .ifUnlocked fun _ => .completed 0 (.store v .refl hsp ha)

theorem runStage {dst : Bank} {n : Nat} (src : Bank) (stage : Mat → Except FaultCode Mat) (hf : s.f = false)
    (hdst : .mat dst ∈ i.destSpaces) (hn : n < 256) : Answers i s (runStage i.opcode src dst stage n s) := by
  unfold Machine.runStage
  split
  · exact .completed 0 (.writeBlock _ (.drew .refl) hdst hn)
  · exact .raised _ hf (.forgetBlock n (.drew .refl) hdst)

theorem solveStages {n : Nat} (hf : s.f = false) (h1 : .mat 1 ∈ i.destSpaces) (h2 : .mat 2 ∈ i.destSpaces)
    (h3 : .mat 3 ∈ i.destSpaces) (hn : n < 256) : Answers i s (solveStages i.opcode n s) := by
  have hs : Edits i s s.drew := .drew .refl
  unfold Machine.solveStages
  split
  · exact .raised _ hf (((hs.forgetBlock n h1).forgetBlock n h2).forgetBlock n h3)
  · next W1 _ =>
    have hs := hs.writeBlock W1 h1 hn
    split
    · exact .raised _ hf ((hs.forgetBlock n h2).forgetBlock n h3)
    · next W2 _ =>
      have hs := hs.writeBlock W2 h2 hn
      split
      · exact .raised _ hf (hs.forgetBlock n h3)
      · next W3 _ => exact .completed 0 (hs.writeBlock W3 h3 hn)

theorem execIllegal : Answers i s (execIllegal i.opcode s) :=
  .ifUnlocked fun hf => .raised _ hf .refl

theorem execCsrr (csr : Byte) : Answers (.csrr csr) s (execCsrr csr s) := by
  unfold Machine.execCsrr
  split
  · next v _ => exact .completed v .refl
  · exact .execIllegal

theorem execMext (n : Byte) : Answers (.mext n) s (execMext n s) := by
  refine .ifUnlocked_ifCount fun _ => .completed 0 (.setMem (.drew .refl) (List.mem_singleton_self _) fun h => ?_)
  refine State.setMem_memOk h (Memory.wf_writeAll (fun c hc => ?_) ((State.memOk_iff s.drew).mp h .coef))
  obtain ⟨k, hk, rfl⟩ := List.mem_map.mp hc
  exact (List.mem_range.mp hk).trans n.isLt

end Answers

theorem matIndex_lt_size (b : Bank) (r c : Byte) : matIndex r.toNat c.toNat < (Space.mat b).size := by
  simp only [matIndex, Space.size]
  omega

/-- Every command answers in one of the four ways. -/
theorem exec_answers (i : Instr) (s : State) : Answers i s (exec i s) := by
  cases i with
  | nop => exact .ifUnlocked fun _ => .completed 0 .refl
  | csrr csr => exact .execCsrr csr
  | clrf => exact .cleared rfl
  | rdr ra => exact .ifUnlocked fun _ => .completed _ .refl
  | ldi | mov | fadd | fsub | fmul | fexp | flog => exact .ifUnlocked fun _ => .writeBack _ .refl rfl
  | fdiv => exact .ifUnlocked fun hf => .writeBackOrRaise _ hf .refl rfl
  | peval => exact .ifUnlocked fun _ => .writeBack _ (.drew .refl) rfl
  | linterp => exact .ifUnlocked_ifCount fun hf => .writeBackOrRaise _ hf (.drew .refl) rfl
  | ldc | ldx | ldy | ldm => exact .loadCell _ _ rfl
  | stc _ k | stci k | stx _ k | stxi k | sty _ k | styi k => exact .storeCell _ (List.mem_singleton_self _) k.isLt
  | stm _ b r c => exact .storeCell _ (List.mem_singleton_self _) (matIndex_lt_size b r c)
  | mbuild n =>
    exact .ifUnlocked_ifCount fun _ =>
      .completed 0 (.writeBlock _ (.drew .refl) (List.mem_singleton_self _) n.isLt)
  | mfwd n | mback n | mnorm n =>
    exact .ifUnlocked_ifCount fun hf => .runStage _ _ hf (List.mem_singleton_self _) n.isLt
  | msolve n =>
    exact .ifUnlocked_ifCount fun hf => .solveStages hf (by simp [Instr.destSpaces]) (by simp [Instr.destSpaces])
      (by simp [Instr.destSpaces]) n.isLt
  | mext n => exact .execMext n

/-! ### The invariant -/

theorem State.inv_iff (s : State) : s.inv = true ↔ s.memOk = true ∧ s.faultRegsOk = true ∧ s.rspOk = true := by
  simp [State.inv, and_assoc]

/-- Any answer that carries the present FCODE, and ERR only from a locked core and without data, meets the invariant. -/
theorem State.answer_inv {s : State} {e : Bool} {d : Byte} (hm : s.memOk = true) (hf : s.faultRegsOk = true)
    (he : e = true → s.f = true ∧ d = 0) : (s.answer (response e s.fcode d)).inv = true := by
  refine (State.inv_iff _).mpr ⟨hm, hf, ?_⟩
  cases e with
  | false => simp [State.rspOk]
  | true => simp [State.rspOk, he rfl]

theorem State.latch_faultRegsOk (s : State) (k : FaultCode) (op : Byte) : (s.latch k op).faultRegsOk = true := by
  cases k <;> rfl

theorem State.unlatch_faultRegsOk (s : State) : s.unlatch.faultRegsOk = true := rfl

theorem State.faultRegsOk_congr {s t : State} (h : FaultRegsSame s t) : t.faultRegsOk = s.faultRegsOk := by
  obtain ⟨hf, hcode, hop⟩ := h
  simp [State.faultRegsOk, hf, hcode, hop]

theorem State.refused_inv {s : State} (h : s.inv = true) (hf : s.f = true) :
    (s.answer (response true s.fcode 0)).inv = true := by
  obtain ⟨hm, hr, -⟩ := (State.inv_iff s).mp h
  exact State.answer_inv hm hr fun _ => ⟨hf, rfl⟩

theorem State.raised_inv {s : State} (k : FaultCode) (op : Byte) (hm : s.memOk = true) :
    ((s.latch k op).answer (response true k.code 0)).inv = true :=
  State.answer_inv (s := s.latch k op) hm (s.latch_faultRegsOk k op) fun _ => ⟨rfl, rfl⟩

theorem Edits.memOk {i : Instr} {s u : State} (hu : Edits i s u) (h : s.memOk = true) : u.memOk = true := by
  induction hu with
  | refl => exact h
  | drew _ ih | setReg _ _ _ ih => simpa [State.memOk_iff] using ih
  | setMem _ _ hm ih => exact hm ih

theorem exec_inv {i : Instr} {s t : State} (h : s.inv = true) (ht : exec i s = .next t) : t.inv = true := by
  obtain ⟨hm, hr, -⟩ := (State.inv_iff s).mp h
  have ha := ht ▸ exec_answers i s
  cases ha with
  | refused hf => exact State.refused_inv h hf
  | completed d hu => exact State.answer_inv (hu.memOk hm) (State.faultRegsOk_congr hu.faultRegsSame ▸ hr) nofun
  | raised k _ hu => exact State.raised_inv k i.opcode (hu.memOk hm)
  | cleared => exact State.answer_inv (s := s.unlatch) hm s.unlatch_faultRegsOk nofun

theorem execIllegal_inv {op : Byte} {s t : State} (h : s.inv = true) (ht : execIllegal op s = .next t) :
    t.inv = true := by
  rcases ifUnlocked_cases ht with ⟨hf, rfl⟩ | ⟨-, hraise⟩
  · exact State.refused_inv h hf
  · obtain rfl := Host.Outcome.next.inj hraise
    exact State.raised_inv _ op ((State.inv_iff s).mp h).1

theorem runWord_inv {w : Word} {s t : State} (h : s.inv = true) (ht : runWord w s = .next t) : t.inv = true := by
  unfold runWord at ht
  split at ht
  · exact exec_inv h ht
  · exact execIllegal_inv h ht

theorem State.deliver_inv {s : State} (h : s.inv = true) : s.deliver.inv = true := by
  obtain ⟨hm, hr, -⟩ := (State.inv_iff s).mp h
  exact (State.inv_iff _).mpr ⟨hm, hr, rfl⟩

/-- The host's inputs are no part of the invariant. -/
theorem State.withInputs_inv {s : State} (rest : List HostInput) (h : s.inv = true) :
    State.inv { s with inputs := rest } = true := h

theorem State.reset_inv : State.reset.inv = true := by decide

/-- The invariant reads neither of the two fields in which a reset differs from `State.reset`. -/
theorem State.resetBy_inv (s : State) (rest : List HostInput) : (s.resetBy rest).inv = true := State.reset_inv

/-- Settles O13: a command or illegal word answers in one of the four ways of `Answers`, each of which meets the
invariant; delivering, holding and idling change no field it reads but the response, and reset starts it afresh. -/
theorem stepKeepsTheInvariant : Obligations.StepKeepsTheInvariant := by
  intro s t h ht
  rcases step_cases s with ⟨-, hs⟩ | ⟨rest, -, hs⟩ | ⟨cmd, rdy, rest, -, -, hs⟩ | ⟨rdy, rest, -, -, hs⟩ |
    ⟨w, rdy, rest, -, -, hs⟩ <;> rw [hs] at ht
  · cases ht
    exact h
  · cases ht
    exact State.resetBy_inv s rest
  · cases ht
    cases rdy with
    | false => exact State.withInputs_inv rest h
    | true => exact State.deliver_inv (State.withInputs_inv rest h)
  · cases ht
    exact State.withInputs_inv rest h
  · exact runWord_inv (State.withInputs_inv rest h) ht

/-- Settles O14, by evaluating the invariant on the one state. -/
theorem resetMeetsTheInvariant : Obligations.ResetMeetsTheInvariant := State.reset_inv

/-! ### Who writes what -/

section
variable {i : Instr} {s t : State}

/-- A command leaves the spaces that are not its own as they were. -/
theorem exec_mem_eq {sp : Space} (h : exec i s = .next t) (hsp : sp ∉ i.destSpaces) : t.mem sp = s.mem sp := by
  have ha := h ▸ exec_answers i s
  cases ha with
  | refused | cleared => simp
  | completed _ hu | raised _ _ hu => simpa using hu.mem_eq hsp

/-- A command leaves the registers that are not its destination as they were. -/
theorem exec_reg_eq {r : Reg} (h : exec i s = .next t) (hr : i.destReg ≠ some r) : t.reg r = s.reg r := by
  have ha := h ▸ exec_answers i s
  cases ha with
  | refused | cleared => simp
  | completed _ hu | raised _ _ hu => simpa using hu.reg_eq hr

/-- The fault registers stay, but for CLRF and for a fault raised on an unlocked core. -/
theorem exec_faultRegs (h : exec i s = .next t) :
    FaultRegsSame s t ∨ i = .clrf ∨ (s.f = false ∧ t.f = true ∧ t.fop = i.opcode) := by
  have ha := h ▸ exec_answers i s
  cases ha with
  | refused => exact .inl ⟨rfl, rfl, rfl⟩
  | completed _ hu => exact .inl hu.faultRegsSame
  | raised _ hf _ => exact .inr (.inr ⟨hf, rfl, rfl⟩)
  | cleared hi => exact .inr (.inl hi)

/-- A cell that changed lies in a space of the command. -/
theorem exec_changed_cell {sp : Space} (h : exec i s = .next t) (hc : ∃ a, t.cell? sp a ≠ s.cell? sp a) :
    sp ∈ i.destSpaces := by
  obtain ⟨a, ha⟩ := hc
  by_contra hsp
  exact ha (congrArg (Memory.read? · a) (exec_mem_eq h hsp))

end

/-- Settles O16: a space that changed is one of the command's `destSpaces`, which are the ones R10 names. -/
theorem onlyTheNamedCommandsWrite : Obligations.OnlyTheNamedCommandsWrite := by
  intro i s t h
  refine ⟨fun hc => Instr.coef_mem_destSpaces (exec_changed_cell h hc),
    fun hc => Instr.px_mem_destSpaces (exec_changed_cell h hc),
    fun hc => Instr.py_mem_destSpaces (exec_changed_cell h hc),
    fun b hc => Instr.mat_mem_destSpaces (exec_changed_cell h hc), fun r hr => ?_, (exec_faultRegs h).resolve_left⟩
  by_contra hd
  exact hr (exec_reg_eq h hd)

/-! ### Reset -/

theorem State.reset_reg (r : Reg) : State.reset.reg r = 0 := by simp [State.reg, State.reset]

theorem State.reset_cell? (sp : Space) (a : Nat) : State.reset.cell? sp a = none := by
  have hmem : State.reset.mem sp = [] := by cases sp <;> simp [State.mem, State.reset]
  simp [State.cell?, hmem]

theorem State.fstat_eq_zero {s : State} (h : s.f = false) : s.fstat = 0 := by rw [fstat, h]; rfl

theorem State.fcodeByte_eq_zero {s : State} (h : s.fcode = 0) : s.fcodeByte = 0 := by rw [fcodeByte, h]; rfl

/-- Settles O15, for the step at a reset input and for `State.reset`. -/
theorem resetLeavesTheResetState : Obligations.ResetLeavesTheResetState := by
  constructor
  · intro s rest hin
    have hstep : step s = .next (s.resetBy rest) := by simp [step, hin]
    exact ⟨_, hstep, s.resetBy_reg rest, State.fstat_eq_zero rfl, State.fcodeByte_eq_zero rfl, rfl, rfl, rfl, rfl,
      s.resetBy_cell? rest⟩
  · exact ⟨State.reset_reg, State.fstat_eq_zero rfl, State.fcodeByte_eq_zero rfl, rfl, rfl, rfl, rfl, State.reset_cell?⟩

end Sys2Proof.Machine
end

section
/-!
PROOFS. The table ROM (R11 to R13): EXP is the powers of x, with period 255, and LOG its inverse.
-/
namespace Sys2Proof.Machine

/-! ### EXP -/

theorem doubleStep_lt {v : Nat} (hv : v < 256) : doubleStep v < 256 := by
  unfold doubleStep
  split
  · exact Nat.lt_of_le_of_lt Nat.and_le_right (by decide)
  · omega

theorem expValue_lt (n : Nat) : expValue n < 256 := by
  induction n with
  | zero => decide
  | succ n ih => exact doubleStep_lt ih

theorem expRom_toNat (e : Byte) : (expRom e).toNat = expValue e.toNat := by
  rw [expRom, BitVec.toNat_ofNat, Nat.mod_eq_of_lt (expValue_lt _)]

/-- The doubling step of R11, with its mask written as a remainder. -/
theorem doubleStep_eq (v : Nat) : doubleStep v = if 256 ≤ 2 * v then (2 * v ^^^ 0x11D) % 256 else 2 * v := by
  rw [doubleStep, Nat.mul_comm v 2, show (0xFF : Nat) = 2 ^ 8 - 1 from rfl, Nat.and_two_pow_sub_one_eq_mod]
  rfl

/-- The doubling step of R11 is the multiplication by x of R109. -/
theorem ofNat_doubleStep {v : Nat} (hv : v < 256) : BitVec.ofNat 8 (doubleStep v) = mulX (BitVec.ofNat 8 v) := by
  have hall : ∀ x : Byte, BitVec.ofNat 8 (doubleStep x.toNat) = mulX x := by decide +kernel
  have h := hall (BitVec.ofNat 8 v)
  rwa [BitVec.toNat_ofNat, Nat.mod_eq_of_lt hv] at h

theorem ofNat_expValue (n : Nat) : BitVec.ofNat 8 (expValue n) = mulX^[n] 1 := by
  induction n with
  | zero => rfl
  | succ n ih => rw [expValue, ofNat_doubleStep (expValue_lt n), ih, Function.iterate_succ_apply']

theorem expRom_eq_iterate_mulX (e : Byte) : expRom e = mulX^[e.toNat] 1 := ofNat_expValue e.toNat

theorem toNat_lt_ord {e : Byte} (he : e ≠ 255) : e.toNat < Config.ord := by
  have h : e.toNat ≠ 255 := fun h => he (BitVec.eq_of_toNat_eq h)
  show e.toNat < 255
  omega

theorem expRom_succ {e : Byte} (he : e ≠ 255) :
    (expRom (e + 1)).toNat
      = if 256 ≤ 2 * (expRom e).toNat then ((2 * (expRom e).toNat) ^^^ 0x11D) % 256 else 2 * (expRom e).toNat := by
  have hlt : e.toNat < 255 := toNat_lt_ord he
  have hsucc : (e + 1).toNat = e.toNat + 1 := by
    rw [BitVec.toNat_add]
    exact Nat.mod_eq_of_lt (by simpa using Nat.succ_lt_succ hlt)
  rw [expRom_toNat, expRom_toNat, hsucc, ← doubleStep_eq, expValue]

/-! ### The search for an exponent -/

theorem expValue_of_logSearch {w steps i j : Nat} (h : logSearch w steps i (expValue i) = some j) :
    j < i + steps ∧ expValue j = w := by
  induction steps generalizing i with
  | zero => cases h
  | succ steps ih =>
    unfold logSearch at h
    split at h
    · next hi =>
      obtain rfl := Option.some.inj h
      exact ⟨by omega, hi⟩
    · obtain ⟨hj, hw⟩ := ih h
      exact ⟨by omega, hw⟩

/-- Every exponent below 255 is found from its power: x has order 255, so no smaller exponent has the same power. -/
theorem logSearch_expValue : ∀ e < Config.ord, logSearch (expValue e) Config.ord 0 1 = some e := by decide +kernel

/-- Every nonzero byte is a power of x. -/
theorem logSearch_isSome : ∀ v : Byte, v ≠ 0 → (logSearch v.toNat Config.ord 0 1).isSome = true := by decide +kernel

theorem logSearch_zero : logSearch 0 Config.ord 0 1 = none := by decide +kernel

/-- The exponents of R12's loop have distinct powers. -/
theorem expValue_inj {i j : Nat} (hi : i < Config.ord) (hj : j < Config.ord) (h : expValue i = expValue j) : i = j := by
  have hs := logSearch_expValue i hi
  rw [h, logSearch_expValue j hj] at hs
  exact (Option.some.inj hs).symm

theorem expValue_ne_zero {e : Nat} (he : e < Config.ord) : expValue e ≠ 0 := fun h => by
  simpa [h, logSearch_zero] using logSearch_expValue e he

theorem exists_expValue_eq {v : Byte} (hv : v ≠ 0) : ∃ e < Config.ord, expValue e = v.toNat := by
  obtain ⟨e, he⟩ := Option.isSome_iff_exists.mp (logSearch_isSome v hv)
  obtain ⟨hlt, heq⟩ := expValue_of_logSearch he
  exact ⟨e, by omega, heq⟩

/-! ### LOG -/

theorem logRom_of_expValue {e : Nat} {v : Byte} (he : e < Config.ord) (h : expValue e = v.toNat) :
    logRom v = BitVec.ofNat 8 e := by
  rw [logRom, ← h, logSearch_expValue e he]

theorem logRom_zero : logRom 0 = Config.log0 := by
  rw [logRom, show (0 : Byte).toNat = 0 from rfl, logSearch_zero]

theorem logRom_expRom {e : Byte} (he : e ≠ 255) : logRom (expRom e) = e := by
  rw [logRom_of_expValue (toNat_lt_ord he) (expRom_toNat e).symm, BitVec.ofNat_toNat, BitVec.setWidth_eq]

theorem expRom_ne_zero {e : Byte} (he : e ≠ 255) : expRom e ≠ 0 := fun h =>
  expValue_ne_zero (toNat_lt_ord he) (by rw [← expRom_toNat, h]; rfl)

/-- The logarithm of a nonzero byte is an exponent below 255 that has it as its power. -/
theorem expRom_logRom {v : Byte} (hv : v ≠ 0) : expRom (logRom v) = v ∧ (logRom v).toNat < Config.ord := by
  obtain ⟨e, he, heq⟩ := exists_expValue_eq hv
  have hlog : (logRom v).toNat = e := by
    rw [logRom_of_expValue he heq, BitVec.toNat_ofNat]
    exact Nat.mod_eq_of_lt (Nat.lt_succ_of_lt he)
  refine ⟨BitVec.eq_of_toNat_eq ?_, hlog ▸ he⟩
  rw [expRom_toNat, hlog, heq]

/-! ### The table R12's loop writes -/

/-- The LOG table after the first `n` rounds of R12's loop. -/
def logTableUpTo (n : Nat) : List Byte :=
  (List.range n).foldl (fun t i => t.set (expValue i) (BitVec.ofNat 8 i)) (List.replicate 256 Config.log0)

theorem logTable_eq : logTable = logTableUpTo Config.ord := rfl

theorem logTableUpTo_zero : logTableUpTo 0 = List.replicate 256 Config.log0 := rfl

theorem logTableUpTo_succ (n : Nat) :
    logTableUpTo (n + 1) = (logTableUpTo n).set (expValue n) (BitVec.ofNat 8 n) := by
  rw [logTableUpTo, List.range_succ, List.foldl_append]
  rfl

theorem length_logTableUpTo (n : Nat) : (logTableUpTo n).length = 256 := by
  induction n with
  | zero => rw [logTableUpTo_zero, List.length_replicate]
  | succ n ih => rw [logTableUpTo_succ, List.length_set, ih]

/-- A cell whose index is no power so far holds `LOG0` still. -/
theorem logTableUpTo_unwritten {n k : Nat} (hk : k < 256) (h : ∀ j < n, expValue j ≠ k) :
    (logTableUpTo n)[k]? = some Config.log0 := by
  induction n with
  | zero => rw [logTableUpTo_zero, List.getElem?_replicate_of_lt hk]
  | succ n ih =>
    rw [logTableUpTo_succ, List.getElem?_set_ne (h n n.lt_succ_self), ih fun j hj => h j (Nat.lt_succ_of_lt hj)]

/-- A cell once written keeps its exponent, since the powers are distinct. -/
theorem logTableUpTo_written {n j : Nat} (hn : n ≤ Config.ord) (hj : j < n) :
    (logTableUpTo n)[expValue j]? = some (BitVec.ofNat 8 j) := by
  induction n with
  | zero => cases hj
  | succ n ih =>
    rw [logTableUpTo_succ]
    rcases Nat.lt_succ_iff_lt_or_eq.mp hj with hlt | rfl
    · have hne : expValue n ≠ expValue j := fun e => by
        have := expValue_inj hn (by omega) e
        omega
      rw [List.getElem?_set_ne hne, ih (by omega) hlt]
    · rw [List.getElem?_set_self (by rw [length_logTableUpTo]; exact expValue_lt j)]

theorem logTable_getElem? (v : Byte) : logTable[v.toNat]? = some (logRom v) := by
  rw [logTable_eq]
  by_cases hv : v = 0
  · subst hv
    rw [logRom_zero]
    exact logTableUpTo_unwritten (by decide) fun _ hj => expValue_ne_zero hj
  · obtain ⟨e, he, heq⟩ := exists_expValue_eq hv
    rw [← heq, logTableUpTo_written le_rfl he, logRom_of_expValue he heq]

/-- Settles O25: all but EXP[255] rests on the doubling step being `mulX` and on x having order 255. -/
theorem romIsTheConstruction : Obligations.RomIsTheConstruction := by
  have h255 : expRom 255 = 1 := by decide +kernel
  refine ⟨⟨rfl, fun e he => expRom_succ he⟩, expRom_eq_iterate_mulX, h255, logTable_getElem?, fun v hv => ?_,
    fun e he => ⟨expRom_ne_zero he, logRom_expRom he⟩, logRom_zero, logRom_expRom (e := 0) (by decide),
    logRom_expRom (e := 1) (by decide)⟩
  obtain ⟨hexp, hlt⟩ := expRom_logRom hv
  exact ⟨hexp, Nat.le_of_lt_succ hlt⟩

end Sys2Proof.Machine
end

section
/-!
PROOFS. The buffers as memory (R30, R38, R39): a store then a load of one cell, in every writable space; and that the
polynomial engines read the cells they name and no other.
-/
namespace Sys2Proof.Machine

/-! ### A store, then a load -/

theorem matIndex_inj {r c r' c' : Byte} (h : matIndex r.toNat c.toNat = matIndex r'.toNat c'.toNat) :
    r = r' ∧ c = c' := by
  unfold matIndex at h
  exact ⟨BitVec.eq_of_toNat_eq (by omega), BitVec.eq_of_toNat_eq (by omega)⟩

@[simp] theorem State.store_f (s : State) (sp : Space) (a : Nat) (v : Byte) : (s.store sp a v).f = s.f := by
  simp [State.store]

/-- All that a buffer store does on an unlocked core. -/
theorem storeCell_unlocked {s : State} (hf : s.f = false) (sp : Space) (a : Nat) (v : Byte) :
    storeCell sp a v s = .next ((s.store sp a v).answer (response false (s.store sp a v).fcode 0)) :=
  ifUnlocked_of_unlocked _ hf

/-- All that a buffer load does on an unlocked core. -/
theorem loadCell_unlocked {s : State} (hf : s.f = false) (rd : Reg) (sp : Space) (a : Nat) :
    loadCell rd sp a s = .next ((s.drew.setReg rd (s.view sp a)).answer (response false s.fcode (s.view sp a))) :=
  ifUnlocked_of_unlocked _ hf

/-- A store and a load of one cell, whichever commands they are. -/
theorem storeThenLoad_of_cell {s : State} {store load : Instr} {sp : Space} {a : Nat} {v : Byte} {rd : Reg}
    (hf : s.f = false) (hstore : exec store s = storeCell sp a v s) (hload : ∀ t, exec load t = loadCell rd sp a t) :
    StoreThenLoad store load sp a v rd s := by
  refine ⟨_, _, hstore.trans (storeCell_unlocked hf sp a v), (hload _).trans (loadCell_unlocked (by simpa) rd sp a),
    ?_, fun sp' a' hne => ?_⟩
  · exact (State.setReg_reg_same _ rd _).trans (State.view_of_cell? (by simp [State.store_cell?]))
  · simp [State.store_cell?, hne]

/-- Settles O24: each pair of commands is a store and a load of one cell; that the other cells a command can name are
other cells is the injectivity of the indices and the distinctness of the spaces. -/
theorem loadReturnsTheLastStore : Obligations.LoadReturnsTheLastStore := by
  refine ⟨fun _ _ => BitVec.eq_of_toNat_eq, fun _ _ _ _ => matIndex_inj, fun s ra rd k v hf => ?_⟩
  refine ⟨?_, ?_, ?_, ?_, ?_, ?_, fun b r c => ?mat⟩
  case mat =>
    have hmat : StoreThenLoad (.stm ra b r c) (.ldm rd b r c) (.mat b) (matIndex r.toNat c.toNat) (s.reg ra) rd s :=
      storeThenLoad_of_cell hf rfl fun _ => rfl
    have ⟨t, u, ht, hu, _, hcells⟩ := hmat
    refine ⟨hmat, t, u, ht, hu, fun b' r' c' hne => hcells _ _ ?_,
      fun a => ⟨hcells _ _ ?_, hcells _ _ ?_, hcells _ _ ?_⟩⟩
    · rintro ⟨hb, hindex⟩
      obtain ⟨rfl, rfl⟩ := matIndex_inj hindex
      exact hne (by rw [Space.mat.inj hb])
    all_goals simp
  all_goals exact storeThenLoad_of_cell hf rfl fun _ => rfl

/-! ### The engines read no other cell -/

theorem hornerLoop_congr {a b : Nat → Byte} {m : Nat} (x acc : Byte) (h : ∀ k < m, a k = b k) :
    hornerLoop a x m acc = hornerLoop b x m acc := by
  induction m generalizing acc with
  | zero => rfl
  | succ m ih =>
    simp only [hornerLoop, h m (Nat.lt_succ_self m)]
    exact ih _ fun k hk => h k (Nat.lt_succ_of_lt hk)

theorem polyEval_congr {a b : Nat → Byte} {d : Nat} (x : Byte) (h : ∀ k < d + 1, a k = b k) :
    polyEval a d x = polyEval b d x := by
  unfold polyEval
  rw [h d (Nat.lt_succ_self d), hornerLoop_congr x _ fun k hk => h k (Nat.lt_succ_of_lt hk)]

section
variable {px px' py py' : Nat → Byte}

theorem lagrangeWeight_congr {i : Nat} {js : List Nat} (x w : Byte) (hi : px i = px' i) (h : ∀ j ∈ js, px j = px' j) :
    lagrangeWeight px x i js w = lagrangeWeight px' x i js w := by
  induction js generalizing w with
  | nil => rfl
  | cons j js ih =>
    have hjs (w : Byte) := ih w fun j hj => h j (List.mem_cons_of_mem _ hj)
    simp only [lagrangeWeight, hi, h j List.mem_cons_self, hjs]

theorem lagrangeLoop_congr {n : Nat} {is : List Nat} (x acc : Byte) (hpx : ∀ k < n, px k = px' k)
    (hpy : ∀ k < n, py k = py' k) (his : ∀ i ∈ is, i < n) :
    lagrangeLoop px py n x is acc = lagrangeLoop px' py' n x is acc := by
  induction is generalizing acc with
  | nil => rfl
  | cons i is ih =>
    have hi : i < n := his i List.mem_cons_self
    have hweight := lagrangeWeight_congr x 1#8 (hpx i hi) fun j hj => hpx j (List.mem_range.mp hj)
    have hrest (acc : Byte) := ih acc fun i hi => his i (List.mem_cons_of_mem _ hi)
    simp only [lagrangeLoop, hweight, hpy i hi, hrest]

theorem lagrange_congr {n : Nat} (x : Byte) (hpx : ∀ k < n, px k = px' k) (hpy : ∀ k < n, py k = py' k) :
    lagrange px py n x = lagrange px' py' n x :=
  lagrangeLoop_congr x 0#8 hpx hpy fun _ => List.mem_range.mp

end

theorem Written.view_eq {s : State} {sp : Space} {m : Nat} {a : Nat → Byte} (h : Written s sp m a) :
    ∀ k < m, s.view sp k = a k := fun k hk => State.view_of_cell? (h k hk)

/-- What the host sees of a computation's result `r`: its byte in `rd`, or its fault's code on a locked core. -/
def Yields (rd : Reg) (r : Except FaultCode Byte) (t : State) : Prop :=
  match r with
  | .ok v => t.f = false ∧ t.reg rd = v
  | .error k => t.f = true ∧ t.fcode = k.code

theorem yields_of_writeBackOrRaise {op : Byte} {rd : Reg} {r : Except FaultCode Byte} {u t : State} (hf : u.f = false)
    (h : writeBackOrRaise op rd r u = .next t) : Yields rd r t := by
  rcases writeBackOrRaise_cases h with ⟨v, rfl, rfl⟩ | ⟨k, rfl, rfl⟩
  · exact ⟨hf, State.setReg_reg_same u rd v⟩
  · exact ⟨rfl, rfl⟩

/-- Two states that one result yields show the same fault, or the same byte. -/
theorem Yields.agree {rd : Reg} {r : Except FaultCode Byte} {t₁ t₂ : State} (h₁ : Yields rd r t₁)
    (h₂ : Yields rd r t₂) :
    t₁.f = t₂.f ∧ (t₁.f = false → t₁.reg rd = t₂.reg rd) ∧ (t₁.f = true → t₁.fcode = t₂.fcode) := by
  cases r with
  | ok v =>
    obtain ⟨hf₁, hv₁⟩ := h₁
    obtain ⟨hf₂, hv₂⟩ := h₂
    exact ⟨hf₁.trans hf₂.symm, fun _ => hv₁.trans hv₂.symm, by simp [hf₁]⟩
  | error k =>
    obtain ⟨hf₁, hk₁⟩ := h₁
    obtain ⟨hf₂, hk₂⟩ := h₂
    exact ⟨hf₁.trans hf₂.symm, by simp [hf₁], fun _ => hk₁.trans hk₂.symm⟩

/-- PEVAL on written coefficients: the value depends on them and on `r[ra]` alone. -/
theorem peval_reg {s t : State} {rd ra : Reg} {d : Byte} {a : Nat → Byte} (hf : s.f = false)
    (ha : Written s .coef (d.toNat + 1) a) (h : exec (.peval rd ra d) s = .next t) :
    t.reg rd = polyEval a d.toNat (s.reg ra) := by
  have hbody := (ifUnlocked_of_unlocked _ hf).symm.trans h
  rw [polyEval_congr _ ha.view_eq] at hbody
  cases hbody
  simp

/-- LINTERP on written points: the result depends on them and on `r[ra]` alone. -/
theorem linterp_yields {s t : State} {rd ra : Reg} {n : Byte} {px py : Nat → Byte} (hf : s.f = false)
    (hpx : Written s .px n.toNat px) (hpy : Written s .py n.toNat py) (h : exec (.linterp rd ra n) s = .next t) :
    Yields rd (if n = 0#8 then .error .invalidArgument else lagrange px py n.toNat (s.reg ra)) t := by
  have hcount := (ifUnlocked_of_unlocked _ hf).symm.trans h
  rcases ifCount_cases hcount with ⟨hn, rfl⟩ | ⟨hn, hbody⟩
  · rw [if_pos hn]
    exact ⟨rfl, rfl⟩
  · rw [if_neg hn, ← lagrange_congr _ hpx.view_eq hpy.view_eq]
    exact yields_of_writeBackOrRaise (u := s.drew) hf hbody

/-- Settles O39: each engine's result is a function of the cells written and the operand register. -/
theorem polynomialEnginesReadOnlyTheirCells : Obligations.PolynomialEnginesReadOnlyTheirCells := by
  constructor
  · intro s₁ s₂ t₁ t₂ rd ra d a hf₁ hf₂ ha₁ ha₂ hra h₁ h₂
    rw [peval_reg hf₁ ha₁ h₁, peval_reg hf₂ ha₂ h₂, hra]
  · intro s₁ s₂ t₁ t₂ rd ra n px py hf₁ hf₂ hpx₁ hpx₂ hpy₁ hpy₂ hra h₁ h₂
    have hy₁ := linterp_yields hf₁ hpx₁ hpy₁ h₁
    rw [hra] at hy₁
    exact hy₁.agree (linterp_yields hf₂ hpx₂ hpy₂ h₂)

end Sys2Proof.Machine
end

section
/-!
PROOFS. The command word as an encoding (R54 to R67): a word is laid out from its four bytes, a format accepts exactly
the words of its layout, and so decoding and encoding are inverse; the opcode map's match and mask columns say the same.
-/
namespace Sys2Proof

/-! ### A word as four bytes -/

/-- A word is its four bytes (R54). -/
theorem mkWord_fields (w : Word) : mkWord (opField w) (aField w) (bField w) (cField w) = w := by
  ext i hi
  rw [← BitVec.getLsbD_eq_getElem, mkWord_getLsbD, ← BitVec.getLsbD_eq_getElem]
  simp only [opField, aField, bField, cField, BitVec.getLsbD_extractLsb']
  grind

theorem mkWord_eq_iff {op a b c : Byte} {w : Word} :
    mkWord op a b c = w ↔ op = opField w ∧ a = aField w ∧ b = bField w ∧ c = cField w := by
  constructor
  · rintro rfl
    simp
  · rintro ⟨rfl, rfl, rfl, rfl⟩
    exact mkWord_fields w

/-- A mask acts byte by byte. -/
theorem and_mkWord (w : Word) (op a b c : Byte) :
    w &&& mkWord op a b c = mkWord (opField w &&& op) (aField w &&& a) (bField w &&& b) (cField w &&& c) := by
  have h := fun start => BitVec.extractLsb'_and (x := w) (y := mkWord op a b c) (start := start) (len := 8)
  refine (mkWord_eq_iff.mpr ⟨?_, ?_, ?_, ?_⟩).symm
  · exact (congrArg (opField w &&& ·) (opField_mkWord op a b c)).symm.trans (h 24).symm
  · exact (congrArg (aField w &&& ·) (aField_mkWord op a b c)).symm.trans (h 16).symm
  · exact (congrArg (bField w &&& ·) (bField_mkWord op a b c)).symm.trans (h 8).symm
  · exact (congrArg (cField w &&& ·) (cField_mkWord op a b c)).symm.trans (h 0).symm

/-- A match and mask test, byte by byte. -/
theorem and_mkWord_eq_iff {w : Word} {op a b c op' a' b' c' : Byte} :
    w &&& mkWord op a b c = mkWord op' a' b' c' ↔
      opField w &&& op = op' ∧ aField w &&& a = a' ∧ bField w &&& b = b' ∧ cField w &&& c = c' := by
  simp [and_mkWord, mkWord_eq_iff]

/-! ### A format accepts the words of its layout -/

/-- A byte with its high half zero is a register specifier's byte. -/
theorem and_highHalf_eq_zero_iff : ∀ a : Byte, a &&& 0xF0#8 = 0#8 ↔ regByte (a.extractLsb' 0 4) = a := by decide

/-- A byte with bits 5:4 zero is a bank and a register specifier (R64). -/
theorem and_middle_eq_zero_iff :
    ∀ a : Byte, a &&& 0x30#8 = 0#8 ↔ bankByte (a.extractLsb' 6 2) (a.extractLsb' 0 4) = a := by decide

theorem and_ones_eq_zero_iff (a : Byte) : a &&& 0xFF#8 = 0#8 ↔ 0#8 = a := by
  rw [show a &&& 0xFF#8 = a from BitVec.and_allOnes, eq_comm]

theorem ifZero_ok_iff {zeros w : Word} {i j : Instr} : ifZero zeros w j = .ok i ↔ j = i ∧ w &&& zeros = 0#32 := by
  unfold ifZero
  split <;> simp_all

/-- A must-be-zero test, byte by byte. -/
theorem and_zeros_iff {w : Word} {a b c : Byte} :
    w &&& mkWord 0 a b c = 0#32 ↔ aField w &&& a = 0#8 ∧ bField w &&& b = 0#8 ∧ cField w &&& c = 0#8 := by
  refine (and_mkWord_eq_iff (op' := 0) (a' := 0) (b' := 0) (c' := 0)).trans ?_
  simp

section
variable {w : Word} {i : Instr}

theorem formatN_ok_iff {j : Instr} :
    formatN j w = .ok i ↔ j = i ∧ mkWord (opField w) 0 0 0 = w := by
  rw [formatN, ifZero_ok_iff, show 0x00FFFFFF#32 = mkWord 0 0xFF 0xFF 0xFF from rfl, and_zeros_iff, mkWord_eq_iff]
  simp [and_ones_eq_zero_iff]

theorem formatR1_ok_iff {mk : Reg → Instr} :
    formatR1 mk w = .ok i ↔ mk (bReg w) = i ∧ mkWord (opField w) 0 (regByte (bReg w)) 0 = w := by
  rw [formatR1, ifZero_ok_iff, show 0x00FFF0FF#32 = mkWord 0 0xFF 0xF0 0xFF from rfl, and_zeros_iff, mkWord_eq_iff]
  simp [and_ones_eq_zero_iff, and_highHalf_eq_zero_iff, bReg_eq]

theorem formatRI_ok_iff {mk : Reg → Byte → Instr} :
    formatRI mk w = .ok i ↔ mk (aReg w) (cField w) = i ∧ mkWord (opField w) (regByte (aReg w)) 0 (cField w) = w := by
  rw [formatRI, ifZero_ok_iff, show 0x00F0FF00#32 = mkWord 0 0xF0 0xFF 0 from rfl, and_zeros_iff, mkWord_eq_iff]
  simp [and_ones_eq_zero_iff, and_highHalf_eq_zero_iff, aReg_eq]

theorem formatBX_ok_iff {mk : Reg → Byte → Instr} :
    formatBX mk w = .ok i ↔ mk (aReg w) (cField w) = i ∧ mkWord (opField w) (regByte (aReg w)) 0 (cField w) = w :=
  formatRI_ok_iff

theorem formatR2_ok_iff {mk : Reg → Reg → Instr} :
    formatR2 mk w = .ok i ↔
      mk (aReg w) (bReg w) = i ∧ mkWord (opField w) (regByte (aReg w)) (regByte (bReg w)) 0 = w := by
  rw [formatR2, ifZero_ok_iff, show 0x00F0F0FF#32 = mkWord 0 0xF0 0xF0 0xFF from rfl, and_zeros_iff, mkWord_eq_iff]
  simp [and_ones_eq_zero_iff, and_highHalf_eq_zero_iff, aReg_eq, bReg_eq]

theorem formatR3_ok_iff {mk : Reg → Reg → Reg → Instr} :
    formatR3 mk w = .ok i ↔
      mk (aReg w) (bReg w) (cReg w) = i ∧
        mkWord (opField w) (regByte (aReg w)) (regByte (bReg w)) (regByte (cReg w)) = w := by
  rw [formatR3, ifZero_ok_iff, show 0x00F0F0F0#32 = mkWord 0 0xF0 0xF0 0xF0 from rfl, and_zeros_iff, mkWord_eq_iff]
  simp [and_highHalf_eq_zero_iff, aReg_eq, bReg_eq, cReg_eq]

theorem formatRL_ok_iff {mk : Reg → Reg → Byte → Instr} :
    formatRL mk w = .ok i ↔
      mk (aReg w) (bReg w) (cField w) = i ∧
        mkWord (opField w) (regByte (aReg w)) (regByte (bReg w)) (cField w) = w := by
  rw [formatRL, ifZero_ok_iff, show 0x00F0F000#32 = mkWord 0 0xF0 0xF0 0 from rfl, and_zeros_iff, mkWord_eq_iff]
  simp [and_highHalf_eq_zero_iff, aReg_eq, bReg_eq]

theorem formatBI_ok_iff {mk : Byte → Byte → Instr} :
    formatBI mk w = .ok i ↔ mk (bField w) (cField w) = i ∧ mkWord (opField w) 0 (bField w) (cField w) = w := by
  rw [formatBI, ifZero_ok_iff, show 0x00FF0000#32 = mkWord 0 0xFF 0 0 from rfl, and_zeros_iff, mkWord_eq_iff]
  simp [and_ones_eq_zero_iff]

theorem formatM_ok_iff {mk : Reg → Bank → Byte → Byte → Instr} :
    formatM mk w = .ok i ↔
      mk (aReg w) (bankField w) (bField w) (cField w) = i ∧
        mkWord (opField w) (bankByte (bankField w) (aReg w)) (bField w) (cField w) = w := by
  rw [formatM, ifZero_ok_iff, show 0x00300000#32 = mkWord 0 0x30 0 0 from rfl, and_zeros_iff, mkWord_eq_iff]
  simp [and_middle_eq_zero_iff, aReg_eq, bankField_eq]

theorem formatL_ok_iff {mk : Byte → Instr} :
    formatL mk w = .ok i ↔ mk (cField w) = i ∧ mkWord (opField w) 0 0 (cField w) = w := by
  rw [formatL, ifZero_ok_iff, show 0x00FFFF00#32 = mkWord 0 0xFF 0xFF 0 from rfl, and_zeros_iff, mkWord_eq_iff]
  simp [and_ones_eq_zero_iff]

/-- Format S is format L with a bound on its operand. -/
theorem formatS_ok_iff {mk : Byte → Instr} :
    formatS mk w = .ok i ↔
      (mk (cField w) = i ∧ mkWord (opField w) 0 0 (cField w) = w) ∧ (cField w).toNat ≤ 2 := by
  rw [← formatL_ok_iff, formatL, ifZero_ok_iff, formatS]
  split_ifs <;> simp_all

end

/-! ### Decoding and encoding are inverse -/

/-- What decodes is well-formed and encodes to the word: `split` runs through the 32 arms of `decode`, and in each the
format's layout is the command's. -/
theorem decode_sound {w : Word} {i : Instr} (h : decode w = .ok i) : i.wf = true ∧ encode i = w := by
  unfold decode at h
  split at h
  case h_2 hop =>
    obtain ⟨⟨rfl, hw⟩, hcsr⟩ := formatS_ok_iff.mp h
    exact ⟨decide_eq_true hcsr, by rwa [hop] at hw⟩
  case h_32 => cases h
  all_goals
    rename_i hop
    simp only [formatN_ok_iff, formatR1_ok_iff, formatRI_ok_iff, formatR2_ok_iff, formatR3_ok_iff, formatRL_ok_iff,
      formatBX_ok_iff, formatBI_ok_iff, formatM_ok_iff, formatL_ok_iff, hop] at h
    obtain ⟨rfl, hw⟩ := h
    exact ⟨rfl, hw⟩

/-- The opcode byte of a command's word (R54). -/
theorem opField_encode (i : Instr) : opField (encode i) = i.opcode := by
  cases i <;> exact opField_mkWord _ _ _ _

/-- A command's word has the command's opcode, which selects its arm of `decode`, and the layout of that arm's
format. -/
theorem decode_encode {i : Instr} (h : i.wf = true) : decode (encode i) = .ok i := by
  unfold decode
  rw [opField_encode]
  cases i
  case csrr csr =>
    have hcsr : csr.toNat ≤ 2 := of_decide_eq_true h
    exact formatS_ok_iff.mpr (by simpa [encode, Instr.opcode] using hcsr)
  all_goals
    simp [Instr.opcode, encode, formatN_ok_iff, formatR1_ok_iff, formatRI_ok_iff, formatR2_ok_iff, formatR3_ok_iff,
      formatRL_ok_iff, formatBX_ok_iff, formatBI_ok_iff, formatM_ok_iff, formatL_ok_iff, aReg_eq, bReg_eq, cReg_eq,
      bankField_eq]

/-- Settles O1: each format reads back the operands its layout holds. -/
theorem decodeOfEncodeIsTheCommand : Obligations.DecodeOfEncodeIsTheCommand := fun _ => decode_encode

/-- Settles O2: a format accepts a word only when the word is the layout of the operands it reads. -/
theorem encodeOfDecodeIsTheWord : Obligations.EncodeOfDecodeIsTheWord := fun _ _ => decode_sound

/-- Settles O4, by decoding the eleven words. -/
theorem sampleWordsDecode : Obligations.SampleWordsDecode := by
  unfold Obligations.SampleWordsDecode
  decide

/-! ### The opcode map -/

/-- The row of the opcode map a command belongs to: its match has the opcode, its mask the opcode and the must-be-zero
bits of the command's format (30_encoding.md section 3). -/
def Instr.row (i : Instr) : OpRow :=
  ⟨i.mnemonic, mkWord i.opcode 0 0 0,
    match i with
    | .nop | .clrf => mkWord 0xFF 0xFF 0xFF 0xFF
    | .rdr _ => mkWord 0xFF 0xFF 0xF0 0xFF
    | .ldi _ _ | .ldc _ _ | .stc _ _ | .ldx _ _ | .stx _ _ | .ldy _ _ | .sty _ _ => mkWord 0xFF 0xF0 0xFF 0
    | .mov _ _ | .fexp _ _ | .flog _ _ => mkWord 0xFF 0xF0 0xF0 0xFF
    | .fadd _ _ _ | .fsub _ _ _ | .fmul _ _ _ | .fdiv _ _ _ => mkWord 0xFF 0xF0 0xF0 0xF0
    | .peval _ _ _ | .linterp _ _ _ => mkWord 0xFF 0xF0 0xF0 0
    | .stci _ _ | .stxi _ _ | .styi _ _ => mkWord 0xFF 0xFF 0 0
    | .ldm _ _ _ _ | .stm _ _ _ _ => mkWord 0xFF 0x30 0 0
    | .csrr _ | .mbuild _ | .mfwd _ | .mback _ | .mnorm _ | .msolve _ | .mext _ => mkWord 0xFF 0xFF 0xFF 0⟩

theorem Instr.row_mem (i : Instr) : i.row ∈ opcodeRows := by
  cases i <;> simp +decide [Instr.row, opcodeRows, Instr.mnemonic, Instr.opcode]

/-- No mnemonic stands in two rows. -/
theorem opcodeRows_mnemonic_inj {r r' : OpRow} (h : r ∈ opcodeRows) (h' : r' ∈ opcodeRows)
    (hm : r.mnemonic = r'.mnemonic) : r = r' :=
  List.inj_on_of_nodup_map (f := OpRow.mnemonic) (by decide) h h' hm

@[simp] theorem regByte_and_highHalf : ∀ r : Reg, regByte r &&& 0xF0#8 = 0#8 := by decide

@[simp] theorem bankByte_and_middle : ∀ (b : Bank) (r : Reg), bankByte b r &&& 0x30#8 = 0#8 := by decide

/-- A well-formed command's word passes the test of the command's row. -/
theorem encode_matches_row {i : Instr} (h : i.wf = true) : i.row.matches (encode i) := by
  constructor
  · cases i <;> simp +decide [Instr.row, encode, Instr.opcode, and_mkWord]
  · intro hm
    cases i
    case csrr csr => simpa [encode] using of_decide_eq_true h
    all_goals simp [Instr.row, Instr.mnemonic] at hm

/-- What a row's test says of a word's fields: the row's opcode, and zero where the mask asks for it. -/
theorem opcodeRows_fields {w : Word} {r : OpRow} (hr : r ∈ opcodeRows) (h : w &&& r.mask = r.pattern) :
    opField w = opField r.pattern ∧ w &&& (r.mask &&& 0x00FFFFFF#32) = 0#32 := by
  have hrows : ∀ r ∈ opcodeRows, opField r.mask = 0xFF#8 ∧ r.pattern &&& 0x00FFFFFF#32 = 0#32 := by decide
  obtain ⟨hmask, hlow⟩ := hrows r hr
  constructor
  · calc opField w = opField w &&& opField r.mask := by rw [hmask]; exact BitVec.and_allOnes.symm
      _ = opField (w &&& r.mask) := BitVec.extractLsb'_and.symm
      _ = opField r.pattern := by rw [h]
  · rw [← BitVec.and_assoc, h, hlow]

/-- A word that passes a row's test decodes to the row's command: the opcode selects the arm of `decode`, and the mask
holds the must-be-zero bits of that arm's format. -/
theorem decode_of_matches {w : Word} {r : OpRow} (hr : r ∈ opcodeRows) (h : r.matches w) :
    ∃ i, decode w = .ok i ∧ i.mnemonic = r.mnemonic := by
  obtain ⟨hmask, hcsr⟩ := h
  obtain ⟨hop, hzeros⟩ := opcodeRows_fields hr hmask
  unfold decode
  rw [hop]
  unfold opcodeRows at hr
  fin_cases hr
  -- The second row is CSRR, the one row with the further test of R67 (c).
  pick_goal 2
  · exact ⟨_, (if_pos hzeros).trans (if_pos (hcsr rfl)), rfl⟩
  all_goals exact ⟨_, if_pos hzeros, rfl⟩

theorem row_matches_of_decode {w : Word} {i : Instr} (h : decode w = .ok i) : i.row.matches w := by
  obtain ⟨hwf, rfl⟩ := decode_sound h
  exact encode_matches_row hwf

/-- Settles O3: a word that decodes passes the test of its command's row, which alone has that mnemonic; and a word that
passes a row's test decodes to that row's command. -/
theorem legalWordsAreTheOpcodeMap : Obligations.LegalWordsAreTheOpcodeMap := by
  refine fun w => ⟨fun r hr => ⟨?_, decode_of_matches hr⟩, ?_, ?_⟩
  · rintro ⟨i, hi, hm⟩
    rw [← opcodeRows_mnemonic_inj i.row_mem hr hm]
    exact row_matches_of_decode hi
  · rintro ⟨i, hi⟩
    exact ⟨i.row, i.row_mem, row_matches_of_decode hi⟩
  · rintro ⟨r, hr, h⟩
    obtain ⟨i, hi, -⟩ := decode_of_matches hr h
    exact ⟨i, hi⟩

end Sys2Proof
end

section
/-!
PROOFS. The response word of every accepted word (R68): ERR and FCODE from the ways a command answers, DATA from the
command's own arm; and the events at the ports (R51, R52).
-/
namespace Sys2Proof.Machine

/-! ### A command on a locked core -/

section
variable {i : Instr} {s t : State}

/-- CSRR of CSR 0, 1 or 2 answers, locked or not (R81). -/
theorem execCsrr_of_le {csr : Byte} (h : csr.toNat ≤ 2) (s : State) : ∃ v, execCsrr csr s = respond v s := by
  have hcsr : csr = 0#8 ∨ csr = 1#8 ∨ csr = 2#8 := by
    simp only [← BitVec.toNat_inj, BitVec.toNat_ofNat]
    omega
  rcases hcsr with rfl | rfl | rfl <;> exact ⟨_, rfl⟩

/-- There is no CSR above 2 (R24). -/
theorem State.csr?_of_gt {csr : Byte} (h : ¬ csr.toNat ≤ 2) (s : State) : s.csr? csr = none := by
  have h0 : csr ≠ 0#8 := by rintro rfl; exact h (by decide)
  have h1 : csr ≠ 1#8 := by rintro rfl; exact h (by decide)
  have h2 : csr ≠ 2#8 := by rintro rfl; exact h (by decide)
  simp [State.csr?, h0, h1, h2]

/-- A locked core refuses every command but the two of R168. -/
theorem exec_locked (hf : s.f = true) (hi : ¬ i.runsLocked) : exec i s = refuse s := by
  cases i
  case csrr csr =>
    simp only [exec, execCsrr, State.csr?_of_gt hi]
    exact ifUnlocked_of_locked _ hf
  case clrf => exact absurd trivial hi
  all_goals exact ifUnlocked_of_locked _ hf

/-- The two commands of R168 complete without fault, on a locked core too. -/
theorem exec_runsLocked (hi : i.runsLocked) (s : State) :
    ∃ d u, exec i s = respond d u ∧ (u.f = true → s.f = true) := by
  cases i
  case csrr csr =>
    obtain ⟨v, hv⟩ := execCsrr_of_le hi s
    exact ⟨v, s, hv, id⟩
  case clrf => exact ⟨0, s.unlatch, rfl, nofun⟩
  all_goals exact hi.elim

/-! ### ERR and FCODE -/

/-- The response of a word that a locked core executes exactly when `runs` holds: FCODE after the command, ERR exactly
when a fault was latched or the word refused, no data with ERR (R68). -/
def Reports (runs : Prop) (s t : State) : Prop :=
  ∃ e d, t.rsp = some (response e t.fcode d) ∧ (e = true → d = 0) ∧
    (e = true ↔ (s.f = false ∧ t.f = true) ∨ (s.f = true ∧ ¬ runs))

theorem Reports.refused {runs : Prop} (hf : s.f = true) (hr : ¬ runs) :
    Reports runs s (s.answer (response true s.fcode 0)) :=
  ⟨true, 0, rfl, fun _ => rfl, by simp [hf, hr]⟩

theorem Reports.raised {runs : Prop} {u : State} (k : FaultCode) (op : Byte) (hf : s.f = false) :
    Reports runs s ((u.latch k op).answer (response true k.code 0)) :=
  ⟨true, 0, rfl, fun _ => rfl, by simp [hf]⟩

theorem Reports.completed {runs : Prop} {u : State} (d : Byte) (hr : s.f = true → runs) (hu : u.f = true → s.f = true) :
    Reports runs s (u.answer (response false u.fcode d)) := by
  refine ⟨false, d, rfl, nofun, ?_⟩
  cases hs : s.f <;> simp_all

/-- The commands of R168 complete; every other is refused when locked, and answers without the lock when not. -/
theorem exec_reports (h : exec i s = .next t) : Reports i.runsLocked s t := by
  by_cases hi : i.runsLocked
  · obtain ⟨d, u, hu, hf⟩ := exec_runsLocked hi s
    cases hu.symm.trans h
    exact .completed d (fun _ => hi) hf
  · cases hf : s.f with
    | true =>
      cases (exec_locked hf hi).symm.trans h
      exact .refused hf hi
    | false =>
      have ha := h ▸ exec_answers i s
      cases ha with
      | refused hlock => simp [hf] at hlock
      | completed d hu => exact .completed d (by simp [hf]) (by rw [hu.faultRegsSame.1]; exact id)
      | raised k => exact .raised k _ hf
      | cleared hclrf => exact absurd (hclrf ▸ trivial) hi

theorem execIllegal_reports {op : Byte} (h : execIllegal op s = .next t) : Reports False s t := by
  rcases ifUnlocked_cases h with ⟨hf, rfl⟩ | ⟨hf, hraise⟩
  · exact .refused hf id
  · cases hraise
    exact .raised _ op hf

/-- ERR and FCODE of every accepted word, legal or not. -/
theorem runWord_reports {w : Word} (h : runWord w s = .next t) :
    Reports (∃ i, decode w = .ok i ∧ i.runsLocked) s t := by
  unfold runWord at h
  split at h
  · next i hi => simpa [hi] using exec_reports h
  · next why hw => simpa [hw] using execIllegal_reports h

end

/-! ### DATA -/

/-- The DATA field of a command that executes without fault from `s` to `t` (R68): the new value of its destination
register, the register RDR reads, the CSR that CSRR reads, and zero for every other command. -/
def dataOf (i : Instr) (s t : State) : Option Byte :=
  match i with
  | .rdr ra => some (s.reg ra)
  | .csrr csr => s.csr? csr
  | i => some (i.destReg.elim 0 t.reg)

section
variable {i : Instr} {s t : State}

theorem dataOf_of_destReg {rd : Reg} (h : i.destReg = some rd) : dataOf i s t = some (t.reg rd) := by
  cases i <;> simp_all [dataOf, Instr.destReg]

theorem dataOf_of_no_destReg (h : i.destReg = none) (hrdr : ∀ ra, i ≠ .rdr ra) (hcsrr : ∀ csr, i ≠ .csrr csr) :
    dataOf i s t = some 0 := by
  cases i <;> simp_all [dataOf, Instr.destReg]

theorem dataOf_answer (i : Instr) (s u : State) (r : Rsp) : dataOf i s (u.answer r) = dataOf i s u := by
  cases i <;> rfl

end

/-- An outcome of command `i` whose response, when it has ERR = 0, carries the command's DATA. -/
def TellsData (i : Instr) (s : State) (body : Result) : Prop :=
  ∀ t r, body = .next t → t.rsp = some r → rspErr r = false → dataOf i s t = some (rspData r)

namespace TellsData

variable {i : Instr} {s u : State} {body : Result}

theorem respond {d : Byte} (h : dataOf i s u = some d) : TellsData i s (respond d u) := by
  rintro t r ht hr -
  cases ht
  cases hr
  rw [dataOf_answer, h, rspData_response]

/-- A response with ERR = 1 is none of `TellsData`'s concern. -/
theorem of_err {c : BitVec 4} {d : Byte} : TellsData i s (.next (u.answer (response true c d))) := by
  intro t r ht hr he
  cases ht
  cases hr
  simp at he

theorem raise {op : Byte} {k : FaultCode} : TellsData i s (raise op k u) := of_err

theorem ifUnlocked (h : TellsData i s body) : TellsData i s (ifUnlocked s body) := by
  cases hf : s.f with
  | false => rwa [ifUnlocked_of_unlocked body hf]
  | true => rw [ifUnlocked_of_locked body hf]; exact of_err

theorem ifUnlocked_ifCount {op n : Byte} (h : TellsData i s body) :
    TellsData i s (Machine.ifUnlocked s (ifCount op n s body)) := by
  refine .ifUnlocked ?_
  by_cases hn : n = 0#8
  · rw [hn, ifCount_zero]; exact raise
  · rwa [ifCount_pos hn]

theorem writeBack {rd : Reg} {v : Byte} (hrd : i.destReg = some rd) : TellsData i s (writeBack rd v u) :=
  .respond (by rw [dataOf_of_destReg hrd, State.setReg_reg_same])

theorem writeBackOrRaise {op : Byte} {rd : Reg} {v : Except FaultCode Byte} (hrd : i.destReg = some rd) :
    TellsData i s (writeBackOrRaise op rd v u) := by
  cases v with
  | ok v => exact writeBack hrd
  | error k => exact raise

theorem runStage {op : Byte} {src dst : Bank} {stage : Mat → Except FaultCode Mat} {n : Nat}
    (h : ∀ t, dataOf i s t = some 0) : TellsData i s (runStage op src dst stage n s) := by
  unfold Machine.runStage
  split
  · exact .respond (h _)
  · exact raise

theorem solveStages {op : Byte} {n : Nat} (h : ∀ t, dataOf i s t = some 0) :
    TellsData i s (solveStages op n s) := by
  unfold Machine.solveStages
  split
  · exact raise
  · split
    · exact raise
    · split
      · exact raise
      · exact .respond (h _)

theorem execCsrr (csr : Byte) : TellsData (.csrr csr) s (execCsrr csr s) := by
  unfold Machine.execCsrr
  split
  · next v hv => exact .respond hv
  · exact .ifUnlocked raise

end TellsData

/-- Every command's arm answers the DATA of `dataOf`. -/
theorem exec_tellsData (i : Instr) (s : State) : TellsData i s (exec i s) := by
  cases i with
  | nop | rdr => exact .ifUnlocked (.respond rfl)
  | csrr csr => exact .execCsrr csr
  | clrf => exact .respond rfl
  | ldi | mov | fadd | fsub | fmul | fexp | flog | ldc | ldx | ldy | ldm | peval => exact .ifUnlocked (.writeBack rfl)
  | fdiv => exact .ifUnlocked (.writeBackOrRaise rfl)
  | linterp => exact .ifUnlocked_ifCount (.writeBackOrRaise rfl)
  | stc | stci | stx | stxi | sty | styi | stm => exact .ifUnlocked (.respond rfl)
  | mbuild | mext => exact .ifUnlocked_ifCount (.respond rfl)
  | mfwd | mback | mnorm => exact .ifUnlocked_ifCount (.runStage fun _ => rfl)
  | msolve => exact .ifUnlocked_ifCount (.solveStages fun _ => rfl)

/-- FCODE is zero on an unlocked core (R22). -/
theorem State.fcode_of_unlocked {s : State} (h : s.inv = true) (hf : s.f = false) : s.fcode = 0 := by
  obtain ⟨-, hr, -⟩ := (State.inv_iff s).mp h
  have hzero : s.fcode = 0 ∧ s.fop = 0 := by simpa [State.faultRegsOk, hf] using hr
  exact hzero.1

theorem runWord_of_decode {w : Word} {i : Instr} (h : decode w = .ok i) (s : State) : runWord w s = exec i s := by
  simp [runWord, h]

/-- Settles O12: ERR, FCODE and the zero DATA of a fault are `runWord_reports`, the other DATA is `exec_tellsData`. -/
theorem responseWordOfEveryCommand : Obligations.ResponseWordOfEveryCommand := by
  intro w s t h
  obtain ⟨e, d, hrsp, hdata, herr⟩ := runWord_reports h
  refine ⟨_, hrsp, rspReserved_response .., rspFcode_response .., fun hinv hf => ?_, ?_, ?_, fun he i hi => ?_⟩
  · rw [rspFcode_response, State.fcode_of_unlocked (runWord_inv hinv h) hf]
  · rw [rspErr_response, herr]
    simp only [not_exists, not_and]
  · rw [rspErr_response, rspData_response]
    exact hdata
  · have htell := exec_tellsData i s t _ (runWord_of_decode hi s ▸ h) hrsp he
    refine ⟨fun rd hrd => ?_, ?_, ?_, fun hrd hrdr hcsrr => ?_⟩
    · rw [dataOf_of_destReg hrd] at htell
      exact (Option.some.inj htell).symm
    · rintro ra rfl
      exact (Option.some.inj htell).symm
    · rintro csr rfl
      exact htell
    · rw [dataOf_of_no_destReg hrd hrdr hcsrr] at htell
      exact (Option.some.inj htell).symm

/-! ### The ports -/

theorem step_edge {s : State} {cmd : Option Word} {rdy : Bool} {rest : List HostInput}
    (h : s.inputs = .edge cmd rdy :: rest) : step s = stepEdge cmd rdy { s with inputs := rest } := by
  simp [step, h]

/-- Settles O5: the edge is consumed, the ready core accepts the word, and the word is its command. -/
theorem stepRunsTheDecodedCommand : Obligations.StepRunsTheDecodedCommand := by
  intro s w rdy rest i hrsp hin hdec
  calc step s = stepEdge (some w) rdy { s with inputs := rest } := step_edge hin
    _ = runWord w { s with inputs := rest } := stepEdge_accept w rdy hrsp
    _ = exec i { s with inputs := rest } := runWord_of_decode hdec _

/-- Settles O6: each event is one case of `stepEdge`, or of `step` where there is no edge. -/
theorem portEventsFollowTheHandshake : Obligations.PortEventsFollowTheHandshake := by
  refine ⟨fun s hin => ?idle, fun s rdy rest hin hrsp => ?nothing, fun s cmd rest hin hrsp => ?deliver,
    fun s cmd rest hin hrsp => ?hold, fun s rest hin => ?reset⟩
  case idle => simp [step, hin]
  case nothing => exact (step_edge hin).trans (stepEdge_idle rdy hrsp)
  case deliver =>
    obtain ⟨r, hr⟩ := Option.ne_none_iff_exists'.mp hrsp
    exact ⟨_, (step_edge hin).trans (stepEdge_deliver cmd hr), fun _ => rfl, ⟨rfl, rfl, rfl⟩, fun _ _ => rfl, rfl, rfl⟩
  case hold =>
    obtain ⟨r, hr⟩ := Option.ne_none_iff_exists'.mp hrsp
    exact ⟨_, (step_edge hin).trans (stepEdge_hold cmd hr), fun _ => rfl, ⟨rfl, rfl, rfl⟩, fun _ _ => rfl, rfl, rfl⟩
  case reset => exact ⟨s.resetBy rest, by simp [step, hin], rfl, rfl⟩

end Sys2Proof.Machine
end

section
/-!
PROOFS. The system and register-move commands (R80 to R85): the words they are, and the two shapes their effects have,
an answer that changes nothing and a register write.
-/
namespace Sys2Proof

/-! ### The words of a command -/

/-- A well-formed command has exactly one word (R54, R67). -/
theorem decode_eq_ok_iff {i : Instr} (h : i.wf = true) (w : Word) : decode w = .ok i ↔ w = encode i := by
  constructor
  · exact fun hw => (decode_sound hw).2.symm
  · rintro rfl
    exact decode_encode h

/-- A register specifier written out after its four zero bits (R54). -/
theorem append_regByte {n : Nat} (x : BitVec n) (r : Reg) : x ++ 0#4 ++ r = x ++ regByte r := by
  rw [BitVec.append_assoc]
  rfl

/-- Format S with its must-be-zero bytes zero: the test of the CSR number is left (R56, R67). -/
theorem formatS_mkWord (mk : Byte → Instr) (op c : Byte) :
    formatS mk (mkWord op 0 0 c) = if c.toNat ≤ 2 then .ok (mk c) else .illegal .noSuchCsr := by
  have hzeros : mkWord op 0 0 c &&& 0x00FFFF00#32 = 0#32 :=
    and_zeros_iff (a := 0xFF) (b := 0xFF) (c := 0) |>.mpr (by simp)
  rw [formatS, if_pos hzeros, cField_mkWord]

theorem decode_csrr (csr : Byte) :
    decode (mkWord 0x01 0 0 csr) = if csr.toNat ≤ 2 then .ok (.csrr csr) else .illegal .noSuchCsr := by
  unfold decode
  rw [opField_mkWord]
  exact formatS_mkWord .csrr 0x01 csr

end Sys2Proof

namespace Sys2Proof.Machine

/-! ### The shapes of an effect -/

section
variable {i : Instr} {s u : State}

/-- Answering alone changes nothing. -/
theorem respond_answersOnly (d : Byte) (s : State) : ∃ t, respond d s = .next t ∧ AnswersOnly d s t :=
  ⟨_, respond_eq d s, fun _ => rfl, ⟨rfl, rfl, rfl⟩, fun _ _ => State.answer_cell? .., rfl, rfl⟩

/-- A locked core refuses every command but the two of R168, and changes nothing. -/
theorem exec_refused (hf : s.f = true) (hi : ¬ i.runsLocked) : ∃ t, exec i s = .next t ∧ Refused s t :=
  ⟨_, exec_locked hf hi, fun _ => rfl, ⟨rfl, rfl, rfl⟩, fun _ _ => State.answer_cell? .., rfl, rfl⟩

theorem Edits.inputs_eq (hu : Edits i s u) : u.inputs = s.inputs := by
  induction hu with
  | refl => rfl
  | drew _ ih | setReg _ _ _ ih | setMem _ _ _ ih => simpa using ih

/-- Writing back the value to the destination register is all that a command without destination spaces does, whatever
it read before. -/
theorem Edits.writeBack_writesReg {rd : Reg} (v : Byte) (hu : Edits i s u) (hrd : i.destReg = some rd)
    (hsp : i.destSpaces = []) : ∃ t, writeBack rd v u = .next t ∧ WritesReg rd v s t := by
  have ht : Edits i s (u.setReg rd v) := hu.setReg v hrd
  refine ⟨_, writeBack_eq rd v u, State.setReg_reg_same u rd v, fun r hr => ?_, ht.faultRegsSame, fun sp a => ?_, rfl,
    ht.inputs_eq⟩
  · exact ht.reg_eq (by simpa [hrd] using hr.symm)
  · exact congrArg (Memory.read? · a) (ht.mem_eq (by simp [hsp]))

end

/-! ### The fault registers -/

/-- FOP is zero on an unlocked core (R23). -/
theorem State.fop_of_unlocked {s : State} (h : s.inv = true) (hf : s.f = false) : s.fop = 0 := by
  obtain ⟨-, hr, -⟩ := (State.inv_iff s).mp h
  have hzero : s.fcode = 0 ∧ s.fop = 0 := by simpa [State.faultRegsOk, hf] using hr
  exact hzero.2

theorem State.fstat_eq (s : State) : s.fstat = if s.f then 1 else 0 := by
  unfold State.fstat
  cases s.f <;> rfl

/-! ### The commands -/

/-- Settles O17: NOP's word is its encoding, and its body answers only. -/
theorem nopAnswersZero : Obligations.NopAnswersZero := by
  refine ⟨decode_eq_ok_iff rfl, fun s => ⟨fun hf => ?_, fun hf => exec_refused hf id⟩⟩
  rw [show exec .nop s = respond 0 s from ifUnlocked_of_unlocked _ hf]
  exact respond_answersOnly 0 s

/-- Settles O18: the statement's sixteen zero bits are the bytes `A` and `B` of format S, and CSRR meets no lock test,
so on every state it answers the CSR only. -/
theorem csrrReadsTheCsr : Obligations.CsrrReadsTheCsr := by
  refine ⟨decode_csrr, fun s => ⟨?_, respond_answersOnly _ s, respond_answersOnly _ s, fun hinv hf => ?_⟩⟩
  · rw [← State.fstat_eq]
    exact respond_answersOnly s.fstat s
  · exact ⟨State.fcodeByte_eq_zero (State.fcode_of_unlocked hinv hf), State.fop_of_unlocked hinv hf⟩

/-- Settles O19: CLRF meets no lock test, and the fault registers it clears are zero already on an unlocked core. -/
theorem clrfClearsTheFaultRegisters : Obligations.ClrfClearsTheFaultRegisters := by
  refine ⟨decode_eq_ok_iff rfl, fun s => ⟨_, clearFault_eq s, rfl, rfl, rfl, rfl, fun _ => rfl, fun sp a => ?_,
    rfl, rfl,
    fun hinv hf => ⟨hf.symm, (State.fcode_of_unlocked hinv hf).symm, (State.fop_of_unlocked hinv hf).symm⟩⟩⟩
  simp

/-- Settles O20: the words are the encodings with the specifiers' zero bits written out; RDR's body answers only, LDI's
and MOV's write back. -/
theorem registerMoveResults : Obligations.RegisterMoveResults := by
  refine ⟨fun ra => ?rdrWord, fun rd imm8 => ?ldiWord, fun rd ra => ?movWord, fun s =>
    ⟨fun hf => ⟨fun ra => ?rdr, fun rd imm8 => ?ldi, fun rd ra => ?mov⟩, fun hf ra => exec_refused hf id⟩⟩
  case rdrWord => exact (decode_eq_ok_iff rfl _).mpr (by rw [append_regByte]; rfl)
  case ldiWord => exact (decode_eq_ok_iff rfl _).mpr (by rw [append_regByte]; rfl)
  case movWord => exact (decode_eq_ok_iff rfl _).mpr (by rw [append_regByte, append_regByte]; rfl)
  case rdr =>
    rw [show exec (.rdr ra) s = respond (s.reg ra) s from ifUnlocked_of_unlocked _ hf]
    exact respond_answersOnly (s.reg ra) s
  case ldi =>
    rw [show exec (.ldi rd imm8) s = writeBack rd imm8 s from ifUnlocked_of_unlocked _ hf]
    exact Edits.writeBack_writesReg (i := .ldi rd imm8) imm8 .refl rfl rfl
  case mov =>
    rw [show exec (.mov rd ra) s = writeBack rd (s.reg ra) s from ifUnlocked_of_unlocked _ hf]
    exact Edits.writeBack_writesReg (i := .mov rd ra) (s.reg ra) .refl rfl rfl

end Sys2Proof.Machine
end

section
/-!
PROOFS. The buffer access commands (R91 to R101): their words in the three formats they have, and the two effects they
have, a load of one cell and a store to one cell.
-/
namespace Sys2Proof

/-! ### The words of the buffer commands -/

/-- A bank and a register specifier written out with the two zero bits between them (R64). -/
theorem append_bankByte {n : Nat} (x : BitVec n) (b : Bank) (r : Reg) : x ++ b ++ 0#2 ++ r = x ++ bankByte b r := by
  rw [bankByte, BitVec.append_assoc, BitVec.append_assoc, BitVec.append_assoc (x₁ := b)]
  rfl

/-- A command of format BX with the layout's zero bits written out (R62). -/
theorem decode_registerIndex {i : Instr} {r : Reg} {k : Byte} (hwf : i.wf = true)
    (hi : encode i = mkWord i.opcode (regByte r) 0 k) : decode (i.opcode ++ 0#4 ++ r ++ 0#8 ++ k : Word) = .ok i :=
  (decode_eq_ok_iff hwf _).mpr (by rw [append_regByte, hi]; rfl)

/-- A command of format M with the layout's zero bits written out (R64). -/
theorem decode_bankRowColumn {i : Instr} {r : Reg} {b : Bank} {row col : Byte} (hwf : i.wf = true)
    (hi : encode i = mkWord i.opcode (bankByte b r) row col) :
    decode (i.opcode ++ b ++ 0#2 ++ r ++ row ++ col : Word) = .ok i :=
  (decode_eq_ok_iff hwf _).mpr (by rw [append_bankByte, hi]; rfl)

end Sys2Proof

namespace Sys2Proof.Machine

/-! ### A load and a store -/

/-- A load on an unlocked core writes back what the cell reads as, and changes no cell by reading it. -/
theorem loadCell_writesReg {s : State} (hf : s.f = false) (rd : Reg) (sp : Space) (a : Nat) :
    ∃ v t, (∀ x, s.cell? sp a = some x → v = x) ∧ loadCell rd sp a s = .next t ∧ WritesReg rd v s t := by
  refine ⟨s.view sp a, _, fun _ => State.view_of_cell?, loadCell_unlocked hf rd sp a, State.setReg_reg_same _ rd _,
    fun r hr => State.setReg_reg_other _ _ hr, ⟨rfl, rfl, rfl⟩, fun sp' a' => ?_, rfl, rfl⟩
  simp

/-- A store on an unlocked core puts the byte in its cell, and changes nothing else. -/
theorem storeCell_storesCell {s : State} (hf : s.f = false) (sp : Space) (a : Nat) (v : Byte) :
    ∃ t, storeCell sp a v s = .next t ∧ StoresCell sp a v s t := by
  refine ⟨_, storeCell_unlocked hf sp a v, ?cell, fun sp' a' hne => ?otherCell, fun r => State.setMem_reg s _ _ r,
    ⟨State.setMem_f .., State.setMem_fcode .., State.setMem_fop ..⟩, rfl, State.setMem_inputs ..⟩
  case cell => simp [State.store_cell?]
  case otherCell => simp [State.store_cell?, hne]

/-! ### The commands -/

/-- Settles O21: three loads have format BX and LDM has format M, and each loads the one cell its operands name. -/
theorem loadsReadTheirCell : Obligations.LoadsReadTheirCell := by
  refine ⟨fun rd k => ⟨?ldcWord, ?ldxWord, ?ldyWord⟩, fun rd b r c => ?ldmWord, fun s hf rd => ?effects⟩
  case ldcWord => exact decode_registerIndex (i := .ldc rd k) rfl rfl
  case ldxWord => exact decode_registerIndex (i := .ldx rd k) rfl rfl
  case ldyWord => exact decode_registerIndex (i := .ldy rd k) rfl rfl
  case ldmWord => exact decode_bankRowColumn (i := .ldm rd b r c) rfl rfl
  case effects =>
    exact ⟨fun k => loadCell_writesReg hf rd .coef k.toNat, fun k => loadCell_writesReg hf rd .px k.toNat,
      fun k => loadCell_writesReg hf rd .py k.toNat,
      fun b r c => loadCell_writesReg hf rd (.mat b) (matIndex r.toNat c.toNat)⟩

/-- Settles O22: three register stores have format BX and STM has format M, and each stores to the one cell its operands
name. -/
theorem registerStoresWriteTheirCell : Obligations.RegisterStoresWriteTheirCell := by
  refine ⟨fun ra k => ⟨?stcWord, ?stxWord, ?styWord⟩, fun ra b r c => ?stmWord, fun s hf ra => ?effects⟩
  case stcWord => exact decode_registerIndex (i := .stc ra k) rfl rfl
  case stxWord => exact decode_registerIndex (i := .stx ra k) rfl rfl
  case styWord => exact decode_registerIndex (i := .sty ra k) rfl rfl
  case stmWord => exact decode_bankRowColumn (i := .stm ra b r c) rfl rfl
  case effects =>
    exact ⟨fun k => storeCell_storesCell hf .coef k.toNat (s.reg ra),
      fun k => storeCell_storesCell hf .px k.toNat (s.reg ra),
      fun k => storeCell_storesCell hf .py k.toNat (s.reg ra),
      fun b r c => storeCell_storesCell hf (.mat b) (matIndex r.toNat c.toNat) (s.reg ra)⟩

/-- Settles O23: format BI has no specifier to write out, so the words are the encodings as they stand, and each command
stores its immediate to the one cell its index names. -/
theorem immediateStoresWriteTheirCell : Obligations.ImmediateStoresWriteTheirCell := by
  refine ⟨fun k v => ⟨?stciWord, ?stxiWord, ?styiWord⟩, fun s hf k v => ?effects⟩
  case stciWord => exact decode_encode (i := .stci k v) rfl
  case stxiWord => exact decode_encode (i := .stxi k v) rfl
  case styiWord => exact decode_encode (i := .styi k v) rfl
  case effects =>
    exact ⟨storeCell_storesCell hf .coef k.toNat v, storeCell_storesCell hf .px k.toNat v,
      storeCell_storesCell hf .py k.toNat v⟩

end Sys2Proof.Machine
end

section
/-!
PROOFS. The field (R105 to R109, R116) and its commands (R110 to R115). Every nonzero byte is a power of x, and
multiplying by the i-th power is doubling i times; so the product through the tables is the carry-less product, and the
field laws are laws of exponents and the additivity of doubling.
-/
namespace Sys2Proof

/-! ### The words of the field commands -/

/-- A command of format R3 with the layout's zero bits written out (R60). -/
theorem decode_threeRegisters {i : Instr} {rd ra rb : Reg} (hwf : i.wf = true)
    (hi : encode i = mkWord i.opcode (regByte rd) (regByte ra) (regByte rb)) :
    decode (i.opcode ++ 0#4 ++ rd ++ 0#4 ++ ra ++ 0#4 ++ rb : Word) = .ok i :=
  (decode_eq_ok_iff hwf _).mpr (by rw [append_regByte, append_regByte, append_regByte, hi]; rfl)

/-- A command of format R2 with the layout's zero bits written out (R59). -/
theorem decode_twoRegisters {i : Instr} {rd ra : Reg} (hwf : i.wf = true)
    (hi : encode i = mkWord i.opcode (regByte rd) (regByte ra) 0) :
    decode (i.opcode ++ 0#4 ++ rd ++ 0#4 ++ ra ++ 0#8 : Word) = .ok i :=
  (decode_eq_ok_iff hwf _).mpr (by rw [append_regByte, append_regByte, hi]; rfl)

/-! ### Multiplication by x -/

theorem mulX_xor (x y : Byte) : mulX (x ^^^ y) = mulX x ^^^ mulX y := by
  have hcarry : (if (x ^^^ y).getLsbD 7 then 0x1D#8 else 0#8)
      = (if x.getLsbD 7 then 0x1D#8 else 0#8) ^^^ (if y.getLsbD 7 then 0x1D#8 else 0#8) := by
    rw [BitVec.getLsbD_xor]
    cases x.getLsbD 7 <;> cases y.getLsbD 7 <;> rfl
  rw [mulX, mulX, mulX, BitVec.shiftLeft_xor_distrib, hcarry]
  ac_rfl

theorem iterate_mulX_xor (n : Nat) (x y : Byte) : mulX^[n] (x ^^^ y) = mulX^[n] x ^^^ mulX^[n] y :=
  Function.Semiconj₂.iterate mulX_xor n x y

@[simp] theorem iterate_mulX_zero (n : Nat) : mulX^[n] 0#8 = 0#8 := Function.iterate_fixed rfl n

theorem mulX_ne_zero : ∀ x : Byte, x ≠ 0 → mulX x ≠ 0 := by decide +kernel

theorem iterate_mulX_one_ne_zero (n : Nat) : mulX^[n] 1 ≠ 0 := by
  induction n with
  | zero => decide
  | succ n ih => rw [Function.iterate_succ_apply']; exact mulX_ne_zero _ ih

/-! ### The carry-less product -/

theorem polyMul_zero_left (y : Byte) (k : Nat) : polyMul 0#8 y k = 0#8 := by
  induction k with
  | zero => rfl
  | succ k ih => rw [polyMul, ih, iterate_mulX_zero, ite_self]; rfl

theorem polyMul_iterate_mulX (i : Nat) (x y : Byte) (k : Nat) :
    polyMul (mulX^[i] x) y k = mulX^[i] (polyMul x y k) := by
  induction k with
  | zero => exact (iterate_mulX_zero i).symm
  | succ k ih =>
    rw [polyMul, polyMul, ih, iterate_mulX_xor, apply_ite mulX^[i], Function.Commute.iterate_iterate_self mulX k i x,
      iterate_mulX_zero]

/-- The sum of `x^j` over the set bits `j` of a byte is the byte. -/
theorem polyMul_one_left : ∀ y : Byte, polyMul 1 y 8 = y := by decide +kernel

end Sys2Proof

namespace Sys2Proof.Machine

/-! ### Powers of x and their exponents -/

/-- The order of x divides 255 (R109). -/
theorem isPeriodicPt_mulX : Function.IsPeriodicPt mulX Config.ord 1 := by
  obtain ⟨-, -, h255, -⟩ := romIsTheConstruction
  exact (expRom_eq_iterate_mulX 255).symm.trans h255

/-- EXP at an exponent reduced modulo 255 is the power by the exponent itself. -/
theorem expRom_mod_ord (n : Nat) : expRom (BitVec.ofNat 8 (n % Config.ord)) = mulX^[n] 1 := by
  have hlt : n % 255 < 256 := by omega
  rw [expRom_eq_iterate_mulX, BitVec.toNat_ofNat, Config.ord, Nat.mod_eq_of_lt hlt]
  exact isPeriodicPt_mulX.iterate_mod_apply n

theorem iterate_mulX_logRom {v : Byte} (hv : v ≠ 0) : mulX^[(logRom v).toNat] 1 = v := by
  rw [← expRom_eq_iterate_mulX, (expRom_logRom hv).1]

/-- A byte is zero or a power of x. -/
theorem eq_zero_or_power (x : Byte) : x = 0#8 ∨ ∃ i, x = mulX^[i] 1 := by
  by_cases hx : x = 0#8
  · exact .inl hx
  · exact .inr ⟨_, (iterate_mulX_logRom hx).symm⟩

theorem expRom_never_zero (e : Byte) : expRom e ≠ 0 := by
  rw [expRom_eq_iterate_mulX]
  exact iterate_mulX_one_ne_zero _

/-! ### Multiplication -/

@[simp] theorem gfMul_zero_left (y : Byte) : gfMul 0#8 y = 0#8 := if_pos rfl

@[simp] theorem gfMul_zero_right (x : Byte) : gfMul x 0#8 = 0#8 := by simp [gfMul]

/-- The logarithms of nonzero operands add. -/
theorem gfMul_of_ne_zero {x y : Byte} (hx : x ≠ 0#8) (hy : y ≠ 0#8) :
    gfMul x y = mulX^[(logRom x).toNat + (logRom y).toNat] 1 := by
  rw [gfMul, if_neg hx, if_neg hy, expRom_mod_ord]

/-- Multiplying by a nonzero byte is doubling as often as its logarithm says. -/
theorem gfMul_eq_iterate {x : Byte} (hx : x ≠ 0#8) (y : Byte) : gfMul x y = mulX^[(logRom x).toNat] y := by
  by_cases hy : y = 0#8
  · rw [hy, gfMul_zero_right, iterate_mulX_zero]
  · rw [gfMul_of_ne_zero hx hy, Function.iterate_add_apply, iterate_mulX_logRom hy]

/-- Multiplying by the `i`-th power of x is doubling `i` times. -/
theorem gfMul_iterate_mulX_one (i : Nat) (y : Byte) : gfMul (mulX^[i] 1) y = mulX^[i] y := by
  have hpow := iterate_mulX_one_ne_zero i
  rcases eq_zero_or_power y with rfl | ⟨j, rfl⟩
  · simp
  · rw [gfMul_eq_iterate hpow, Function.Commute.iterate_iterate_self mulX, iterate_mulX_logRom hpow,
      Function.Commute.iterate_iterate_self mulX]

theorem gfMul_comm (x y : Byte) : gfMul x y = gfMul y x := by
  by_cases hx : x = 0#8
  · simp [hx]
  by_cases hy : y = 0#8
  · simp [hy]
  rw [gfMul_of_ne_zero hx hy, gfMul_of_ne_zero hy hx, Nat.add_comm]

theorem gfMul_assoc (x y z : Byte) : gfMul (gfMul x y) z = gfMul x (gfMul y z) := by
  rcases eq_zero_or_power x with rfl | ⟨i, rfl⟩
  · simp
  rcases eq_zero_or_power y with rfl | ⟨j, rfl⟩
  · simp
  rw [gfMul_iterate_mulX_one, ← Function.iterate_add_apply, gfMul_iterate_mulX_one, gfMul_iterate_mulX_one,
    gfMul_iterate_mulX_one, Function.iterate_add_apply]

@[simp] theorem gfMul_one_left (x : Byte) : gfMul 1#8 x = x := gfMul_iterate_mulX_one 0 x

@[simp] theorem gfMul_one_right (x : Byte) : gfMul x 1#8 = x := by rw [gfMul_comm, gfMul_one_left]

theorem gfMul_add (x y z : Byte) : gfMul x (gfAdd y z) = gfAdd (gfMul x y) (gfMul x z) := by
  rcases eq_zero_or_power x with rfl | ⟨i, rfl⟩
  · simp [gfAdd]
  · rw [gfMul_iterate_mulX_one, gfMul_iterate_mulX_one, gfMul_iterate_mulX_one]
    exact iterate_mulX_xor i y z

theorem gfMul_ne_zero {x y : Byte} (hx : x ≠ 0#8) (hy : y ≠ 0#8) : gfMul x y ≠ 0 := by
  rw [gfMul_of_ne_zero hx hy]
  exact iterate_mulX_one_ne_zero _

/-- Settles O26: when the left operand is a power of x, both products double the right one that many times. -/
theorem gfMulIsTheCarrylessProduct : Obligations.GfMulIsTheCarrylessProduct := by
  intro x y
  rcases eq_zero_or_power x with rfl | ⟨i, rfl⟩
  · rw [gfMul_zero_left, polyMul_zero_left]
  · rw [gfMul_iterate_mulX_one, polyMul_iterate_mulX, polyMul_one_left]

/-! ### Addition and division -/

theorem gfAdd_add_cancel (x y : Byte) : gfAdd (gfAdd x y) y = x := by
  rw [gfAdd, gfAdd, BitVec.xor_assoc, BitVec.xor_self, BitVec.xor_zero]

theorem gfDiv_zero (x : Byte) : gfDiv x 0#8 = .error .divisionByZero := if_pos rfl

/-- A quotient by a nonzero byte exists: the exponents subtract, up to the order of x. -/
theorem exists_gfDiv_eq_ok (x : Byte) {y : Byte} (hy : y ≠ 0#8) : ∃ q, gfDiv x y = .ok q ∧ gfMul q y = x := by
  by_cases hx : x = 0#8
  · exact ⟨0#8, by rw [gfDiv, if_neg hy, if_pos hx], by rw [gfMul_zero_left, hx]⟩
  refine ⟨mulX^[(logRom x).toNat + Config.ord - (logRom y).toNat] 1,
    by rw [gfDiv, if_neg hy, if_neg hx, expRom_mod_ord], ?_⟩
  have hlog : (logRom y).toNat ≤ (logRom x).toNat + Config.ord :=
    (expRom_logRom hy).2.le.trans (Nat.le_add_left ..)
  calc gfMul (mulX^[(logRom x).toNat + Config.ord - (logRom y).toNat] 1) y
      = mulX^[(logRom x).toNat + Config.ord - (logRom y).toNat] (mulX^[(logRom y).toNat] 1) := by
        rw [gfMul_iterate_mulX_one, iterate_mulX_logRom hy]
    _ = mulX^[(logRom x).toNat] (mulX^[Config.ord] 1) := by
        rw [← Function.iterate_add_apply, Nat.sub_add_cancel hlog, Function.iterate_add_apply]
    _ = x := by rw [isPeriodicPt_mulX.eq, iterate_mulX_logRom hx]

/-- Multiplying by a nonzero byte loses nothing, since the byte has an inverse. -/
theorem gfMul_right_cancel {x x' y : Byte} (hy : y ≠ 0#8) (h : gfMul x y = gfMul x' y) : x = x' := by
  obtain ⟨r, -, hr⟩ := exists_gfDiv_eq_ok 1#8 hy
  rw [gfMul_comm] at hr
  calc x = gfMul (gfMul x y) r := by rw [gfMul_assoc, hr, gfMul_one_right]
    _ = x' := by rw [h, gfMul_assoc, hr, gfMul_one_right]

theorem gfDiv_eq_ok_iff {x y q : Byte} (hy : y ≠ 0#8) : gfDiv x y = .ok q ↔ gfMul q y = x := by
  obtain ⟨q', hdiv, hmul⟩ := exists_gfDiv_eq_ok x hy
  rw [hdiv, Except.ok.injEq]
  constructor
  · rintro rfl
    exact hmul
  · exact fun h => gfMul_right_cancel hy (hmul.trans h.symm)

/-- Every nonzero byte has an inverse, the quotient of 1 by it. -/
theorem exists_inverse {x : Byte} (hx : x ≠ 0#8) : ∃ q, gfDiv 1#8 x = .ok q ∧ gfMul x q = 1#8 := by
  obtain ⟨q, hdiv, hmul⟩ := exists_gfDiv_eq_ok 1#8 hx
  exact ⟨q, hdiv, by rw [gfMul_comm, hmul]⟩

/-- Settles O27: addition is the exclusive or, and multiplication and division are by exponents. -/
theorem fieldLaws : Obligations.FieldLaws :=
  ⟨BitVec.xor_comm, BitVec.xor_assoc, fun _ => BitVec.xor_zero, fun _ _ => rfl, gfMul_comm, gfMul_assoc,
    gfMul_one_right, gfMul_zero_right, gfMul_add,
    fun _ _ h => or_iff_not_imp_left.mpr fun hx => by_contra fun hy => gfMul_ne_zero hx hy h,
    gfDiv_zero, fun _ _ _ => gfDiv_eq_ok_iff⟩

/-! ### The two ways a field command ends -/

section
variable {s : State}

theorem writeBack_writesReg (rd : Reg) (v : Byte) (s : State) :
    ∃ t, writeBack rd v s = .next t ∧ WritesReg rd v s t :=
  Edits.writeBack_writesReg (i := .ldi rd v) v .refl rfl rfl

/-- A command that only writes back a value does so on an unlocked core. -/
theorem ifUnlocked_writeBack_writesReg (hf : s.f = false) (rd : Reg) (v : Byte) :
    ∃ t, ifUnlocked s (writeBack rd v s) = .next t ∧ WritesReg rd v s t := by
  rw [ifUnlocked_of_unlocked _ hf]
  exact writeBack_writesReg rd v s

theorem raise_raisesOnly (op : Byte) (k : FaultCode) (s : State) :
    ∃ t, raise op k s = .next t ∧ RaisesOnly k op s t :=
  ⟨_, raise_eq op k s, ⟨rfl, rfl, rfl, rfl, fun _ => rfl, rfl⟩, fun _ _ => by simp⟩

theorem exec_ldi_writesReg (hf : s.f = false) (rd : Reg) (v : Byte) :
    ∃ t, exec (.ldi rd v) s = .next t ∧ WritesReg rd v s t :=
  ifUnlocked_writeBack_writesReg hf rd v

theorem exec_fmul_writesReg (hf : s.f = false) (rd ra rb : Reg) :
    ∃ t, exec (.fmul rd ra rb) s = .next t ∧ WritesReg rd (gfMul (s.reg ra) (s.reg rb)) s t :=
  ifUnlocked_writeBack_writesReg hf rd _

theorem exec_fdiv_unlocked (hf : s.f = false) (rd ra rb : Reg) :
    exec (.fdiv rd ra rb) s = writeBackOrRaise 0x13 rd (gfDiv (s.reg ra) (s.reg rb)) s :=
  ifUnlocked_of_unlocked _ hf

/-- FDIV on an unlocked core writes back the quotient when there is one. -/
theorem exec_fdiv_writesReg (hf : s.f = false) (rd : Reg) {ra rb : Reg} {v : Byte}
    (hv : gfDiv (s.reg ra) (s.reg rb) = .ok v) : ∃ t, exec (.fdiv rd ra rb) s = .next t ∧ WritesReg rd v s t := by
  rw [exec_fdiv_unlocked hf, hv]
  exact writeBack_writesReg rd v s

/-- FDIV on an unlocked core raises DivisionByZero for a zero divisor. -/
theorem exec_fdiv_raisesOnly (hf : s.f = false) (rd ra : Reg) {rb : Reg} (hb : s.reg rb = 0#8) :
    ∃ t, exec (.fdiv rd ra rb) s = .next t ∧ RaisesOnly .divisionByZero 0x13 s t := by
  rw [exec_fdiv_unlocked hf, hb, gfDiv_zero]
  exact raise_raisesOnly 0x13 .divisionByZero s

end

/-! ### Commands one after another -/

section
variable {s t : State} {rd : Reg} {v : Byte}

theorem execAll_cons_of_next {i : Instr} (is : List Instr) (h : exec i s = .next t) :
    execAll (i :: is) s = execAll is t := by
  rw [execAll, h]

theorem WritesReg.reg_same (h : WritesReg rd v s t) : t.reg rd = v := h.1

theorem WritesReg.reg_other (h : WritesReg rd v s t) {r : Reg} (hr : r ≠ rd) : t.reg r = s.reg r := h.2.1 r hr

theorem WritesReg.f_eq (h : WritesReg rd v s t) : t.f = s.f := by
  obtain ⟨-, -, ⟨hf, -, -⟩, -⟩ := h
  exact hf

end

/-- Settles O28: the four commands each write one register, so the last multiplies `x` by the quotient of 1 by `x`. -/
theorem sourceFieldLaws : Obligations.SourceFieldLaws := by
  refine ⟨fun _ => exists_inverse, gfAdd_add_cancel, gfDiv_zero, gfMul_zero_right, fun s x hf hx => ?_⟩
  obtain ⟨q, hdiv, hmul⟩ := exists_inverse hx
  obtain ⟨s₁, hs₁, w₁⟩ := exec_ldi_writesReg hf 1 1
  have hf₁ : s₁.f = false := w₁.f_eq.trans hf
  obtain ⟨s₂, hs₂, w₂⟩ := exec_ldi_writesReg hf₁ 2 x
  have hf₂ : s₂.f = false := w₂.f_eq.trans hf₁
  have hr₁ : s₂.reg 1 = 1 := (w₂.reg_other (by decide)).trans w₁.reg_same
  have hquot : gfDiv (s₂.reg 1) (s₂.reg 2) = .ok q := by
    rw [hr₁, w₂.reg_same]
    exact hdiv
  obtain ⟨s₃, hs₃, w₃⟩ := exec_fdiv_writesReg hf₂ 3 hquot
  have hf₃ : s₃.f = false := w₃.f_eq.trans hf₂
  have hr₂ : s₃.reg 2 = x := (w₃.reg_other (by decide)).trans w₂.reg_same
  obtain ⟨s₄, hs₄, w₄⟩ := exec_fmul_writesReg hf₃ 4 2 3
  refine ⟨s₄, ?_, w₄.f_eq.trans hf₃, ?_⟩
  · rw [execAll_cons_of_next _ hs₁, execAll_cons_of_next _ hs₂, execAll_cons_of_next _ hs₃,
      execAll_cons_of_next _ hs₄, execAll]
  · rw [w₄.reg_same, hr₂, w₃.reg_same]
    exact hmul

/-! ### The commands -/

/-- Settles O29: the words have format R3, and each body writes back the exclusive or. -/
theorem faddFsubXor : Obligations.FaddFsubXor := by
  refine ⟨fun rd ra rb => ⟨?faddWord, ?fsubWord⟩, gfAdd_add_cancel, fun s rd ra rb hf => ⟨?fadd, ?fsub⟩⟩
  case faddWord => exact decode_threeRegisters (i := .fadd rd ra rb) rfl rfl
  case fsubWord => exact decode_threeRegisters (i := .fsub rd ra rb) rfl rfl
  case fadd => exact ifUnlocked_writeBack_writesReg hf rd (s.reg ra ^^^ s.reg rb)
  case fsub => exact ifUnlocked_writeBack_writesReg hf rd (s.reg ra ^^^ s.reg rb)

/-- Settles O30: FMUL's word has format R3, and its body writes back the product. -/
theorem fmulWritesTheProduct : Obligations.FmulWritesTheProduct :=
  ⟨fun rd ra rb => decode_threeRegisters (i := .fmul rd ra rb) rfl rfl,
    fun x => ⟨gfMul_zero_right x, gfMul_zero_left x⟩, fun _ => exists_inverse,
    fun _ rd ra rb hf => exec_fmul_writesReg hf rd ra rb⟩

/-- Settles O31: FDIV's word has format R3; the quotient is the one byte whose product with the divisor is the
dividend. -/
theorem fdivDividesOrFaults : Obligations.FdivDividesOrFaults := by
  refine ⟨fun rd ra rb => decode_threeRegisters (i := .fdiv rd ra rb) rfl rfl,
    fun s rd ra rb hf => ⟨fun hb => ?_, exec_fdiv_raisesOnly hf rd ra⟩⟩
  obtain ⟨v, hdiv, hmul⟩ := exists_gfDiv_eq_ok (s.reg ra) hb
  obtain ⟨t, ht, hw⟩ := exec_fdiv_writesReg hf rd hdiv
  refine ⟨v, t, hdiv, ht, hw, fun hzero => ?zeroDividend, fun heq => ?sameOperands⟩
  case zeroDividend => exact gfMul_right_cancel hb (by simp [hmul, hzero])
  case sameOperands => exact gfMul_right_cancel hb (by simp [hmul, heq])

/-- Settles O32: the words have format R2, and each body writes back its ROM cell. -/
theorem romPortsReadTheirCell : Obligations.RomPortsReadTheirCell := by
  obtain ⟨-, -, h255, -, hlog, -, hlog0, hlog1, -⟩ := romIsTheConstruction
  refine ⟨fun rd ra => ⟨?fexpWord, ?flogWord⟩, fun s rd ra hf => ⟨?fexp, ?flog⟩⟩
  case fexpWord => exact decode_twoRegisters (i := .fexp rd ra) rfl rfl
  case flogWord => exact decode_twoRegisters (i := .flog rd ra) rfl rfl
  case fexp =>
    obtain ⟨t, ht, hw⟩ := ifUnlocked_writeBack_writesReg hf rd (expRom (s.reg ra))
    exact ⟨t, ht, hw, expRom_never_zero _, fun ha => by rw [hw.reg_same, ha, h255]⟩
  case flog =>
    obtain ⟨t, ht, hw⟩ := ifUnlocked_writeBack_writesReg hf rd (logRom (s.reg ra))
    exact ⟨logRom (s.reg ra), t, ht, hw, rfl, fun ha => by rw [ha, hlog0], fun ha => (hlog _ ha).symm,
      fun ha => by rw [ha, hlog1]⟩

end Sys2Proof.Machine
end

section
/-!
PROOFS. The bytes as a field. A one-to-one map of the bytes into a field that turns gf_add and gf_mul into the field's
sum and product lets a statement about the field functions (R105 to R108, R131) be read off in that field, where
Mathlib's polynomials are at hand. `exists_fieldMap` gives one such map, so nothing is assumed.
-/
namespace Sys2Proof.Machine

/-! ### A field of bytes -/

/-- The byte that gf_div gives for `1 / x`, and 0 for the zero that has none. -/
def gfInv (x : Byte) : Byte :=
  match gfDiv 1#8 x with
  | .ok q => q
  | .error _ => 0#8

theorem gfInv_zero : gfInv 0#8 = 0#8 := by rw [gfInv, gfDiv_zero]

theorem gfMul_gfInv {x : Byte} (hx : x ≠ 0#8) : gfMul x (gfInv x) = 1#8 := by
  obtain ⟨q, hdiv, hmul⟩ := exists_inverse hx
  rw [gfInv, hdiv]
  exact hmul

/-- The field whose operations are the model's. -/
@[reducible] def fieldOfBytes : Field Byte :=
  @Field.ofMinimalAxioms Byte ⟨gfAdd⟩ ⟨gfMul⟩ ⟨id⟩ ⟨gfInv⟩ ⟨0#8⟩ ⟨1#8⟩ BitVec.xor_assoc (fun _ => BitVec.zero_xor)
    (fun _ => BitVec.xor_self) gfMul_assoc gfMul_comm gfMul_one_left (fun _ => gfMul_gfInv) gfInv_zero gfMul_add
    ⟨0#8, 1#8, by decide⟩

/-! ### A map into a field -/

/-- The map `e` reads each byte as an element of a field, one-to-one, and gf_add and gf_mul as that field's sum and
product. -/
structure FieldMap {F : Type} [Field F] (e : Byte → F) : Prop where
  injective : Function.Injective e
  map_add : ∀ x y, e (gfAdd x y) = e x + e y
  map_mul : ∀ x y, e (gfMul x y) = e x * e y

theorem exists_fieldMap : ∃ (F : Type) (_ : Field F) (e : Byte → F), FieldMap e :=
  ⟨Byte, fieldOfBytes, id, @FieldMap.mk Byte fieldOfBytes id Function.injective_id (fun _ _ => rfl) fun _ _ => rfl⟩

namespace FieldMap

variable {F : Type} [Field F] {e : Byte → F} (he : FieldMap e)
include he

theorem map_zero : e 0#8 = 0 := by
  have h : e 0#8 = e 0#8 + e 0#8 := he.map_add 0#8 0#8
  exact left_eq_add.mp h

theorem map_eq_zero_iff {x : Byte} : e x = 0 ↔ x = 0#8 := by
  rw [← he.map_zero, he.injective.eq_iff]

theorem map_one : e 1#8 = 1 := by
  have h : e 1#8 * e 1#8 = e 1#8 := by rw [← he.map_mul, gfMul_one_left]
  exact (mul_eq_left₀ (mt he.map_eq_zero_iff.mp (by decide))).mp h

/-- Subtraction is addition (R106), since a byte is its own negative. -/
theorem map_sub (x y : Byte) : e (gfSub x y) = e x - e y := by
  rw [eq_sub_iff_add_eq, ← he.map_add]
  exact congrArg e (gfAdd_add_cancel x y)

theorem map_pow (x : Byte) (k : Nat) : e (gfPow x k) = e x ^ k := by
  induction k with
  | zero => rw [gfPow, he.map_one, pow_zero]
  | succ k ih => rw [gfPow, he.map_mul, ih, pow_succ]

/-- Dividing by a nonzero byte is the field's division. -/
theorem exists_gfDiv (x : Byte) {y : Byte} (hy : y ≠ 0#8) : ∃ q, gfDiv x y = .ok q ∧ e q = e x / e y := by
  obtain ⟨q, hdiv, hmul⟩ := exists_gfDiv_eq_ok x hy
  exact ⟨q, hdiv, by rw [eq_div_iff (mt he.map_eq_zero_iff.mp hy), ← he.map_mul, hmul]⟩

/-- A running gf_add over indices is the field's sum. -/
theorem map_foldl_gfAdd (f : Nat → Byte) (m : Nat) :
    e ((List.range m).foldl (fun acc k => gfAdd acc (f k)) 0) = ∑ k ∈ Finset.range m, e (f k) := by
  induction m with
  | zero => exact he.map_zero
  | succ m ih =>
    rw [List.range_succ, List.foldl_append, Finset.sum_range_succ, ← ih]
    exact he.map_add _ _

end FieldMap

end Sys2Proof.Machine
end

section
/-!
PROOFS. The polynomial evaluator and the interpolation engine (43_polynomial.md). Read in a field, Horner's loop is
evaluation of a polynomial and R124's loop is evaluation of Mathlib's `Lagrange.interpolate`; so that the value is the
point's at a sample point, and that the two engines agree, are that polynomial's own properties.
-/
namespace Sys2Proof

/-! ### The words of the engines -/

/-- A command of format RL with the layout's zero bits written out (R61). -/
theorem decode_twoRegistersLength {i : Instr} {rd ra : Reg} {n : Byte} (hwf : i.wf = true)
    (hi : encode i = mkWord i.opcode (regByte rd) (regByte ra) n) :
    decode (i.opcode ++ 0#4 ++ rd ++ 0#4 ++ ra ++ n : Word) = .ok i :=
  (decode_eq_ok_iff hwf _).mpr (by rw [append_regByte, append_regByte, hi]; rfl)

end Sys2Proof

namespace Sys2Proof.Machine

open Polynomial

/-! ### Horner's method -/

/-- Started from `m + 1` coefficients at `x = 0`, Horner's loop ends in the last it meets. -/
theorem hornerLoop_zero (a : Nat → Byte) (m : Nat) (acc : Byte) : hornerLoop a 0#8 (m + 1) acc = a 0 := by
  induction m generalizing acc with
  | zero => simp [hornerLoop, gfAdd]
  | succ m ih => exact ih _

/-- Starting from zero with one step more meets the leading coefficient as the start (R122). -/
theorem hornerLoop_succ_zero (a : Nat → Byte) (d : Nat) (x : Byte) : hornerLoop a x (d + 1) 0 = polyEval a d x := by
  simp [hornerLoop, polyEval, gfAdd]

theorem polyEval_zero (a : Nat → Byte) (d : Nat) : polyEval a d 0#8 = a 0 := by
  cases d with
  | zero => rfl
  | succ d => exact hornerLoop_zero a d _

section
variable {F : Type} [Field F] {e : Byte → F}

/-- What is left of Horner's loop multiplies the accumulator by a power and adds the lower terms. -/
theorem FieldMap.map_hornerLoop (he : FieldMap e) (a : Nat → Byte) (x : Byte) (m : Nat) (acc : Byte) :
    e (hornerLoop a x m acc) = e acc * e x ^ m + ∑ k ∈ Finset.range m, e (a k) * e x ^ k := by
  induction m generalizing acc with
  | zero => simp [hornerLoop]
  | succ m ih =>
    rw [hornerLoop, ih, he.map_add, he.map_mul, Finset.sum_range_succ]
    ring

theorem FieldMap.map_polyEval (he : FieldMap e) (a : Nat → Byte) (d : Nat) (x : Byte) :
    e (polyEval a d x) = ∑ k ∈ Finset.range (d + 1), e (a k) * e x ^ k := by
  rw [polyEval, he.map_hornerLoop, Finset.sum_range_succ, add_comm]

end

/-- Settles O33: both sides are one sum in a field of bytes. -/
theorem hornerIsThePolynomialSum : Obligations.HornerIsThePolynomialSum := by
  refine fun a d x => ⟨?_, hornerLoop_succ_zero a d x, polyEval_zero a d, rfl⟩
  obtain ⟨F, _, e, he⟩ := exists_fieldMap
  apply he.injective
  rw [he.map_polyEval, he.map_foldl_gfAdd]
  simp only [he.map_mul, he.map_pow]

/-! ### The interpolation loops -/

theorem gfSub_eq_zero_iff {x y : Byte} : gfSub x y = 0#8 ↔ x = y := BitVec.xor_eq_zero_iff

section
variable {px py : Nat → Byte} {i j n : Nat} {js is : List Nat} {x w acc : Byte}

theorem lagrangeWeight_self : lagrangeWeight px x i (i :: js) w = lagrangeWeight px x i js w := by
  simp [lagrangeWeight]

theorem lagrangeWeight_of_eq (hji : j ≠ i) (hpx : px i = px j) :
    lagrangeWeight px x i (j :: js) w = .error .divisionByZero := by
  rw [lagrangeWeight, if_neg hji, gfSub_eq_zero_iff.mpr hpx, gfDiv_zero]
  rfl

theorem lagrangeWeight_of_gfDiv {q : Byte} (hji : j ≠ i) (hq : gfDiv (gfSub x (px j)) (gfSub (px i) (px j)) = .ok q) :
    lagrangeWeight px x i (j :: js) w = lagrangeWeight px x i js (gfMul w q) := by
  rw [lagrangeWeight, if_neg hji, hq]
  rfl

theorem lagrangeLoop_of_error {k : FaultCode} (h : lagrangeWeight px x i (List.range n) 1#8 = .error k) :
    lagrangeLoop px py n x (i :: is) acc = .error k := by
  rw [lagrangeLoop, h]
  rfl

theorem lagrangeLoop_of_ok (h : lagrangeWeight px x i (List.range n) 1#8 = .ok w) :
    lagrangeLoop px py n x (i :: is) acc = lagrangeLoop px py n x is (gfAdd acc (gfMul w (py i))) := by
  rw [lagrangeLoop, h]
  rfl

/-- A point that shares the x of point `i` makes a zero divisor, whatever was multiplied before it (R124). -/
theorem lagrangeWeight_eq_error (hj : j ∈ js) (hji : j ≠ i) (hpx : px i = px j) :
    lagrangeWeight px x i js w = .error .divisionByZero := by
  induction js generalizing w with
  | nil => cases hj
  | cons k js ih =>
    by_cases hk : px i = px k
    · by_cases hki : k = i
      · subst hki
        rw [lagrangeWeight_self]
        exact ih (List.mem_of_ne_of_mem hji hj)
      · exact lagrangeWeight_of_eq hki hk
    · have hki : k ≠ i := fun h => hk (h ▸ rfl)
      have hjk : j ≠ k := fun h => hk (h ▸ hpx)
      obtain ⟨q, hq, -⟩ := exists_gfDiv_eq_ok (gfSub x (px k)) (mt gfSub_eq_zero_iff.mp hk)
      rw [lagrangeWeight_of_gfDiv hki hq]
      exact ih (List.mem_of_ne_of_mem hjk hj)

end

/-! ### The interpolating polynomial -/

/-- The points' x are one-to-one. -/
theorem Distinct.injOn {px : Nat → Byte} {n : Nat} (h : Distinct px n) : Set.InjOn px (Finset.range n) :=
  fun i hi j hj => h i j (Finset.mem_range.mp hi) (Finset.mem_range.mp hj)

section
variable {F : Type} [Field F] {e : Byte → F}

/-- The factor that point `j` gives to the weight of point `i` at `z` (R124). -/
def lagrangeFactor (v : Nat → F) (z : F) (i j : Nat) : F :=
  if j = i then 1 else (z - v j) / (v i - v j)

/-- The factors over all points are Mathlib's basis polynomial. -/
theorem prod_lagrangeFactor (v : Nat → F) (z : F) (i n : Nat) :
    ((List.range n).map (lagrangeFactor v z i)).prod = eval z (Lagrange.basis (Finset.range n) v i) := by
  have hself : lagrangeFactor v z i i = 1 := if_pos rfl
  rw [← List.prod_toFinset _ List.nodup_range, List.toFinset_range, ← Finset.prod_erase _ hself, Lagrange.basis,
    eval_prod]
  refine Finset.prod_congr rfl fun j hj => ?_
  simp [lagrangeFactor, Finset.ne_of_mem_erase hj, Lagrange.basisDivisor, div_eq_inv_mul]

variable (he : FieldMap e) {px py : Nat → Byte} {n : Nat}
include he

/-- When no other point shares the x of point `i`, its weight is the product of the factors. -/
theorem FieldMap.exists_lagrangeWeight {i : Nat} {js : List Nat} (x w : Byte)
    (h : ∀ j ∈ js, j ≠ i → px i ≠ px j) :
    ∃ v, lagrangeWeight px x i js w = .ok v ∧ e v = e w * (js.map (lagrangeFactor (e ∘ px) (e x) i)).prod := by
  induction js generalizing w with
  | nil => exact ⟨w, rfl, by simp⟩
  | cons j js ih =>
    obtain ⟨hj, hjs⟩ := List.forall_mem_cons.mp h
    rw [List.map_cons, List.prod_cons]
    by_cases hji : j = i
    · subst hji
      rw [lagrangeWeight_self, lagrangeFactor, if_pos rfl, one_mul]
      exact ih w hjs
    · obtain ⟨q, hq, heq⟩ := he.exists_gfDiv (gfSub x (px j)) (mt gfSub_eq_zero_iff.mp (hj hji))
      obtain ⟨v, hv, hev⟩ := ih (gfMul w q) hjs
      refine ⟨v, (lagrangeWeight_of_gfDiv hji hq).trans hv, ?_⟩
      rw [hev, he.map_mul, heq, he.map_sub, he.map_sub, mul_assoc, lagrangeFactor, if_neg hji]
      rfl

/-- The weights of distinct points are the basis polynomials' values, and the loop adds their multiples. -/
theorem FieldMap.exists_lagrangeLoop (hd : Distinct px n) {is : List Nat} (x acc : Byte) (his : ∀ i ∈ is, i < n) :
    ∃ v, lagrangeLoop px py n x is acc = .ok v ∧
      e v = e acc + (is.map fun i => e (py i) * eval (e x) (Lagrange.basis (Finset.range n) (e ∘ px) i)).sum := by
  induction is generalizing acc with
  | nil => exact ⟨acc, rfl, by simp⟩
  | cons i is ih =>
    obtain ⟨hi, his⟩ := List.forall_mem_cons.mp his
    obtain ⟨w, hw, hew⟩ := he.exists_lagrangeWeight (px := px) (i := i) x 1#8 (js := List.range n)
      fun j hj hji hpx => hji (hd i j hi (List.mem_range.mp hj) hpx).symm
    obtain ⟨v, hv, hev⟩ := ih (gfAdd acc (gfMul w (py i))) his
    refine ⟨v, (lagrangeLoop_of_ok hw).trans hv, ?_⟩
    rw [hev, he.map_add, he.map_mul, hew, he.map_one, one_mul, prod_lagrangeFactor, List.map_cons, List.sum_cons,
      mul_comm (e (py i)), add_assoc]

/-- At distinct points the engine has a value, the interpolating polynomial's (R124). -/
theorem FieldMap.exists_lagrange (hd : Distinct px n) (py : Nat → Byte) (x : Byte) :
    ∃ v, lagrange px py n x = .ok v ∧
      e v = eval (e x) (Lagrange.interpolate (Finset.range n) (e ∘ px) (e ∘ py)) := by
  obtain ⟨v, hv, hev⟩ := he.exists_lagrangeLoop (py := py) hd x 0#8 fun _ => List.mem_range.mp
  refine ⟨v, hv, ?_⟩
  rw [hev, he.map_zero, zero_add, ← List.sum_toFinset _ List.nodup_range, List.toFinset_range,
    Lagrange.interpolate_apply, eval_finsetSum]
  simp

theorem FieldMap.lagrange_eq_ok_iff (hd : Distinct px n) {x v : Byte} :
    lagrange px py n x = .ok v ↔
      e v = eval (e x) (Lagrange.interpolate (Finset.range n) (e ∘ px) (e ∘ py)) := by
  obtain ⟨u, hu, heu⟩ := he.exists_lagrange hd py x
  rw [hu, ← heu, Except.ok.injEq, he.injective.eq_iff, eq_comm]

end

section
variable {px py : Nat → Byte} {n : Nat}

theorem exists_lagrange_eq_ok (hd : Distinct px n) (py : Nat → Byte) (x : Byte) : ∃ v, lagrange px py n x = .ok v := by
  obtain ⟨F, _, e, he⟩ := exists_fieldMap
  obtain ⟨v, hv, -⟩ := he.exists_lagrange hd py x
  exact ⟨v, hv⟩

theorem lagrange_at_point (hd : Distinct px n) (py : Nat → Byte) {i : Nat} (hi : i < n) :
    lagrange px py n (px i) = .ok (py i) := by
  obtain ⟨F, _, e, he⟩ := exists_fieldMap
  exact (he.lagrange_eq_ok_iff hd).mpr
    (Lagrange.eval_interpolate_at_node (e ∘ py) (he.injective.comp_injOn hd.injOn) (Finset.mem_range.mpr hi)).symm

/-- A point that shares its x with another stops the loop, whatever points stand before it: each of those has a weight,
or is such a point itself. -/
theorem lagrangeLoop_eq_error {i j : Nat} {is : List Nat} {x acc : Byte} (hi : i ∈ is) (hj : j < n) (hji : j ≠ i)
    (hpx : px i = px j) : lagrangeLoop px py n x is acc = .error .divisionByZero := by
  obtain ⟨F, _, e, he⟩ := exists_fieldMap
  induction is generalizing acc with
  | nil => cases hi
  | cons k is ih =>
    by_cases hk : ∃ l < n, l ≠ k ∧ px k = px l
    · obtain ⟨l, hl, hlk, hpxl⟩ := hk
      exact lagrangeLoop_of_error (lagrangeWeight_eq_error (List.mem_range.mpr hl) hlk hpxl)
    · have hik : i ≠ k := fun h => hk ⟨j, hj, h ▸ hji, h ▸ hpx⟩
      obtain ⟨w, hw, -⟩ := he.exists_lagrangeWeight (px := px) (i := k) (js := List.range n) x 1#8
        fun l hl hlk hpxl => hk ⟨l, List.mem_range.mp hl, hlk, hpxl⟩
      rw [lagrangeLoop_of_ok hw]
      exact ih (List.mem_of_ne_of_mem hik hi)

/-- A single point has no factor, so its weight is 1 (R124). -/
theorem lagrange_one_point {x : Byte} : lagrange px py 1 x = .ok (py 0) := by
  calc lagrange px py 1 x = lagrangeLoop px py 1 x [] (gfAdd 0#8 (gfMul 1#8 (py 0))) :=
        lagrangeLoop_of_ok lagrangeWeight_self
    _ = .ok (py 0) := by simp [lagrangeLoop, gfAdd]

theorem lagrange_eq_error (hd : ¬ Distinct px n) (py : Nat → Byte) (x : Byte) :
    lagrange px py n x = .error .divisionByZero := by
  simp only [Distinct, not_forall] at hd
  obtain ⟨i, j, hi, hj, hpx, hij⟩ := hd
  exact lagrangeLoop_eq_error (List.mem_range.mpr hi) hj (Ne.symm hij) hpx

end

/-- Settles O35: a shared x stops the loop, and without one the value is the interpolating polynomial's, which passes
through the points. -/
theorem lagrangeFaultsExactlyOnDuplicates : Obligations.LagrangeFaultsExactlyOnDuplicates := by
  intro px py n x _
  refine ⟨⟨fun herr hd => ?_, fun hd => lagrange_eq_error hd py x⟩,
    fun hd => ⟨exists_lagrange_eq_ok hd py x, fun i => lagrange_at_point hd py⟩, lagrange_one_point⟩
  · obtain ⟨v, hv⟩ := exists_lagrange_eq_ok hd py x
    cases herr.symm.trans hv

/-- The polynomial of degree at most `d` with the coefficients `a`. -/
noncomputable def toPolynomial {F : Type} [Field F] (e : Byte → F) (a : Nat → Byte) (d : Nat) : F[X] :=
  ∑ k ∈ Finset.range (d + 1), C (e (a k)) * X ^ k

section
variable {F : Type} [Field F] {e : Byte → F}

theorem FieldMap.map_polyEval_eq_eval (he : FieldMap e) (a : Nat → Byte) (d : Nat) (x : Byte) :
    e (polyEval a d x) = eval (e x) (toPolynomial e a d) := by
  simp [he.map_polyEval, toPolynomial, eval_finsetSum]

theorem degree_toPolynomial_lt (e : Byte → F) (a : Nat → Byte) {d n : Nat} (h : d + 1 ≤ n) :
    (toPolynomial e a d).degree < n := by
  rw [degree_lt_iff_coeff_zero]
  intro m hm
  rw [toPolynomial, finsetSum_coeff]
  refine Finset.sum_eq_zero fun k hk => ?_
  have hmk : m ≠ k := by
    have := Finset.mem_range.mp hk
    omega
  simp [hmk]

end

/-- Settles O38: the polynomial has degree below `n` and passes through the `n` points, so it is the interpolating
one. -/
theorem enginesAgree : Obligations.EnginesAgree := by
  intro a px py d n x hdn hd hpy
  obtain ⟨F, _, e, he⟩ := exists_fieldMap
  have hinterpolate : toPolynomial e a d = Lagrange.interpolate (Finset.range n) (e ∘ px) (e ∘ py) := by
    refine Lagrange.eq_interpolate_of_eval_eq _ (he.injective.comp_injOn hd.injOn) ?_ fun i hi => ?_
    · rw [Finset.card_range]
      exact degree_toPolynomial_lt e a hdn
    · rw [Function.comp_apply, Function.comp_apply, hpy i (Finset.mem_range.mp hi), he.map_polyEval_eq_eval]
  rw [he.lagrange_eq_ok_iff hd, he.map_polyEval_eq_eval, hinterpolate]

/-! ### The commands -/

section
variable {s : State}

/-- What a command reads agrees with every specified cell (R29). -/
theorem State.view_reads (s : State) (sp : Space) (m : Nat) : Reads s sp m (s.view sp) :=
  fun _ _ _ => State.view_of_cell?

/-- LINTERP of no points raises InvalidArgument before it reads (R125). -/
theorem exec_linterp_zero (hf : s.f = false) (rd ra : Reg) :
    ∃ t, exec (.linterp rd ra 0) s = .next t ∧ RaisesOnly .invalidArgument 0x31 s t := by
  rw [show exec (.linterp rd ra 0) s = raise 0x31 .invalidArgument s from
    (ifUnlocked_of_unlocked _ hf).trans (ifCount_zero 0x31 s _)]
  exact raise_raisesOnly 0x31 .invalidArgument s

/-- LINTERP of one point or more interpolates the points as it reads them (R125). -/
theorem exec_linterp_pos (hf : s.f = false) (rd ra : Reg) {n : Byte} (hn : n ≠ 0) :
    exec (.linterp rd ra n) s
      = writeBackOrRaise 0x31 rd (lagrange (s.view .px) (s.view .py) n.toNat (s.reg ra)) s.drew :=
  (ifUnlocked_of_unlocked _ hf).trans (ifCount_pos hn)

/-- LINTERP writes back the interpolated value when there is one. -/
theorem exec_linterp_writesReg (hf : s.f = false) (rd : Reg) {ra : Reg} {n : Byte} (hn : n ≠ 0) {v : Byte}
    (hv : lagrange (s.view .px) (s.view .py) n.toNat (s.reg ra) = .ok v) :
    ∃ t, exec (.linterp rd ra n) s = .next t ∧ WritesReg rd v s t := by
  rw [exec_linterp_pos hf rd ra hn, hv]
  exact Edits.writeBack_writesReg (i := .linterp rd ra n) v (.drew .refl) rfl rfl

/-- LINTERP raises the interpolation's fault and leaves rd alone (R125, R167). -/
theorem exec_linterp_raisesOnly (hf : s.f = false) (rd : Reg) {ra : Reg} {n : Byte} (hn : n ≠ 0) {k : FaultCode}
    (hk : lagrange (s.view .px) (s.view .py) n.toNat (s.reg ra) = .error k) :
    ∃ t, exec (.linterp rd ra n) s = .next t ∧ RaisesOnly k 0x31 s t := by
  rw [exec_linterp_pos hf rd ra hn, hk]
  obtain ⟨t, ht, hraises, hcells⟩ := raise_raisesOnly 0x31 k s.drew
  exact ⟨t, ht, hraises, fun sp a => (hcells sp a).trans (State.drew_cell? s sp a)⟩

/-- LINTERP on points whose x, as it reads them, are distinct: it writes a value, at a sample point that point's y. -/
theorem exec_linterp_of_distinct (hf : s.f = false) (rd ra : Reg) {n : Byte} (hn : n ≠ 0)
    (hd : Distinct (s.view .px) n.toNat) :
    ∃ v t, lagrange (s.view .px) (s.view .py) n.toNat (s.reg ra) = .ok v ∧
      exec (.linterp rd ra n) s = .next t ∧ WritesReg rd v s t ∧
      ∀ i, i < n.toNat → s.view .px i = s.reg ra → v = s.view .py i := by
  obtain ⟨v, hv⟩ := exists_lagrange_eq_ok hd (s.view .py) (s.reg ra)
  obtain ⟨t, ht, hw⟩ := exec_linterp_writesReg hf rd hn hv
  refine ⟨v, t, hv, ht, hw, fun i hi hx => ?_⟩
  rw [← hx, lagrange_at_point hd _ hi] at hv
  exact (Except.ok.inj hv).symm

end

/-- Settles O34: PEVAL's word has format RL, and its body writes back the polynomial of the cells as it reads them. -/
theorem pevalEvaluates : Obligations.PevalEvaluates := by
  refine ⟨fun rd ra d => decode_twoRegistersLength (i := .peval rd ra d) rfl rfl, fun s rd ra d hf => ?_⟩
  obtain ⟨t, ht, hw⟩ := Edits.writeBack_writesReg (i := .peval rd ra d)
    (polyEval (s.view .coef) d.toNat (s.reg ra)) (.drew (.refl (s := s))) rfl rfl
  exact ⟨s.view .coef, t, State.view_reads s .coef _, (ifUnlocked_of_unlocked _ hf).trans ht, hw⟩

/-- Settles O36: LINTERP's word has format RL; its body interpolates the points as it reads them. -/
theorem linterpInterpolatesOrFaults : Obligations.LinterpInterpolatesOrFaults := by
  refine ⟨fun rd ra n => decode_twoRegistersLength (i := .linterp rd ra n) rfl rfl,
    fun s rd ra n hf => ⟨?noPoints, fun hn => ⟨s.view .px, s.view .py, State.view_reads s .px _,
      State.view_reads s .py _, exec_linterp_of_distinct hf rd ra hn, fun hd => ?sharedX⟩⟩⟩
  case noPoints =>
    rintro rfl
    exact exec_linterp_zero hf rd ra
  case sharedX => exact exec_linterp_raisesOnly hf rd hn (lagrange_eq_error hd _ _)

/-- Settles O37: the x cells, being written, are read as the distinct bytes they hold. -/
theorem linterpCompletesOnDistinctPoints : Obligations.LinterpCompletesOnDistinctPoints := by
  intro s rd ra n px hf hn hpx hd
  have hdview : Distinct (s.view .px) n.toNat := fun i j hi hj h =>
    hd i j hi hj (by rwa [hpx.view_eq i hi, hpx.view_eq j hj] at h)
  obtain ⟨v, t, -, ht, hw, hpoint⟩ := exec_linterp_of_distinct hf rd ra hn hdview
  refine ⟨v, t, ht, hw, fun i y hi hra hy => ?_⟩
  rw [hpoint i hi ((hpx.view_eq i hi).trans hra.symm), State.view_of_cell? hy]

end Sys2Proof.Machine
end

section
/-!
PROOFS. The matrices the stages of 44_matrix.md work on, as their entries: what a row operation makes of an entry, and
of a row applied to a vector. The multiple of a pivot row that another row loses is written with `gfInv`, so it has one
name in both elimination stages.
-/
namespace Sys2Proof.Machine

/-! ### Fallible loops -/

@[simp] theorem ok_bind {ε α β : Type} (a : α) (f : α → Except ε β) : (Except.ok a >>= f) = f a := rfl

@[simp] theorem error_bind {ε α β : Type} (k : ε) (f : α → Except ε β) : (Except.error k >>= f) = .error k := rfl

section
variable {ε α β : Type} {x : Except ε α} {f : α → Except ε β} {b : β} {k : ε}

theorem bind_eq_ok : x >>= f = .ok b ↔ ∃ a, x = .ok a ∧ f a = .ok b := by
  cases x <;> simp

theorem bind_eq_error : x >>= f = .error k ↔ x = .error k ∨ ∃ a, x = .ok a ∧ f a = .error k := by
  cases x <;> simp

end

section
variable {α β : Type} {g : α → Except FaultCode β} {l : List α}

theorem mapE_eq_ok {f : α → β} (h : ∀ a ∈ l, g a = .ok (f a)) : mapE g l = .ok (l.map f) := by
  induction l with
  | nil => rfl
  | cons a l ih =>
    obtain ⟨ha, hl⟩ := List.forall_mem_cons.mp h
    simp [mapE, ha, ih hl]

/-- A loop whose steps have one fault code fails with it when one of its steps does. -/
theorem mapE_eq_error {k : FaultCode} (h : ∀ a ∈ l, g a = .error k ∨ ∃ b, g a = .ok b) (hk : ∃ a ∈ l, g a = .error k) :
    mapE g l = .error k := by
  induction l with
  | nil => simp at hk
  | cons a l ih =>
    obtain ⟨ha, hl⟩ := List.forall_mem_cons.mp h
    rcases ha with ha | ⟨b, hb⟩
    · simp [mapE, ha]
    · have hk : ∃ a ∈ l, g a = .error k := by simpa [hb] using hk
      simp [mapE, hb, ih hl hk]

end

/-! ### Quotients as products -/

theorem gfDiv_of_ne_zero (x : Byte) {y : Byte} (hy : y ≠ 0#8) : gfDiv x y = .ok (gfMul x (gfInv y)) := by
  rw [gfDiv_eq_ok_iff hy, gfMul_assoc, gfMul_comm (gfInv y), gfMul_gfInv hy, gfMul_one_right]

theorem gfMul_gfInv_cancel (x : Byte) {y : Byte} (hy : y ≠ 0#8) : gfMul (gfMul x (gfInv y)) y = x :=
  (gfDiv_eq_ok_iff hy).mp (gfDiv_of_ne_zero x hy)

/-- Dividing by `scale` is multiplying by its inverse `q`. -/
theorem gfDiv_of_mul_eq_one {q scale p : Byte} (hq : gfMul q scale = 1#8) : gfDiv p scale = .ok (gfMul q p) := by
  have hscale : scale ≠ 0#8 := by
    rintro rfl
    simp at hq
  rw [gfDiv_eq_ok_iff hscale, gfMul_comm q, gfMul_assoc, hq, gfMul_one_right]

/-- The quotients `x / y` and `y / x` are inverse to each other. -/
theorem gfMul_quotients {x y : Byte} (hy : y ≠ 0#8) (hx : x ≠ 0#8) :
    gfMul (gfMul x (gfInv y)) (gfMul y (gfInv x)) = 1#8 := by
  rw [← gfMul_assoc, gfMul_gfInv_cancel x hy, gfMul_gfInv hx]

theorem gfMul_of_left_eq_zero {x y : Byte} (h : x = 0) : gfMul x y = 0 := by
  rw [h]
  exact gfMul_zero_left y

theorem gfMul_of_right_eq_zero {x y : Byte} (h : y = 0) : gfMul x y = 0 := by
  rw [h]
  exact gfMul_zero_right x

@[simp] theorem gfSub_zero (x : Byte) : gfSub x 0#8 = x := BitVec.xor_zero

@[simp] theorem gfSub_self (x : Byte) : gfSub x x = 0#8 := BitVec.xor_self

/-! ### Entries of a matrix of known shape -/

section
variable {W W' : Mat} {n i r c : Nat}

theorem Shape.getD_mem (h : Shape W n) (hr : r < n) : W.getD r [] ∈ W := by
  rw [List.getD_eq_getElem W [] (h.1.symm ▸ hr)]
  exact List.getElem_mem _

theorem Shape.length_row (h : Shape W n) (hr : r < n) : (W.getD r []).length = n + 1 := h.2 _ (h.getD_mem hr)

/-- A matrix is its entries. -/
theorem Shape.ext (h : Shape W n) (h' : Shape W' n) (he : ∀ r c, r < n → c ≤ n → entry W r c = entry W' r c) :
    W = W' := by
  have hlen : W.length = n := h.1
  refine List.ext_getElem (hlen.trans h'.1.symm) fun r hr hr' => ?_
  have hrn : r < n := hlen ▸ hr
  have hrow : W[r].length = n + 1 := h.2 _ (List.getElem_mem hr)
  have hrow' : W'[r].length = n + 1 := h'.2 _ (List.getElem_mem hr')
  refine List.ext_getElem (hrow.trans hrow'.symm) fun c hc hc' => ?_
  have hrc := he r c hrn (by omega)
  rwa [entry, entry, List.getD_eq_getElem W [] hr, List.getD_eq_getElem W' [] hr', List.getD_eq_getElem _ 0 hc,
    List.getD_eq_getElem _ 0 hc'] at hrc

/-- A list of `n` rows of `n + 1` entries, given by its rows' numbers. -/
theorem Shape.of_getD (hlen : W.length = n) (hrow : ∀ r < n, (W.getD r []).length = n + 1) : Shape W n := by
  refine ⟨hlen, fun row hmem => ?_⟩
  obtain ⟨r, hr, rfl⟩ := List.getElem_of_mem hmem
  rw [← List.getD_eq_getElem W [] hr]
  exact hrow r (hlen ▸ hr)

/-- The rows above row `k` stay and the others are mapped. -/
theorem getD_take_append_map_drop {k : Nat} (f : List Byte → List Byte) (hr : r < W.length) :
    (W.take k ++ (W.drop k).map f).getD r [] = if r < k then W.getD r [] else f (W.getD r []) := by
  rw [List.getD_eq_getElem _ _ (by simp; omega), List.getD_eq_getElem _ _ hr, List.getElem_append]
  by_cases hk : r < k
  · simp [hk, hr]
  · have hkr : min k W.length + (r - min k W.length) = r := by omega
    have : k + (r - min k W.length) = r := by omega
    simp [hk, this]

/-- The rows above row `k` are mapped and the others stay. -/
theorem getD_map_take_append_drop {k : Nat} (f : List Byte → List Byte) (hr : r < W.length) :
    ((W.take k).map f ++ W.drop k).getD r [] = if r < k then f (W.getD r []) else W.getD r [] := by
  rw [List.getD_eq_getElem _ _ (by simp; omega), List.getD_eq_getElem _ _ hr, List.getElem_append]
  by_cases hk : r < k
  · simp [hk, hr]
  · have : k + (r - min k W.length) = r := by omega
    simp [hk, this]

end

/-! ### A row applied to a vector -/

section
variable {W W' : Mat} {n m i r : Nat} {v : Nat → Byte}

theorem rowTimes_succ : rowTimes W i (m + 1) v = gfAdd (rowTimes W i m v) (gfMul (entry W i m) (v m)) := by
  simp [rowTimes, List.range_succ]

/-- A column times zero adds nothing. -/
theorem rowTimes_succ_of_eq_zero (hv : v m = 0) : rowTimes W i (m + 1) v = rowTimes W i m v := by
  rw [rowTimes_succ, hv]
  simp [gfAdd]

theorem FieldMap.map_rowTimes {F : Type} [Field F] {e : Byte → F} (he : FieldMap e) :
    e (rowTimes W i m v) = ∑ c ∈ Finset.range m, e (entry W i c) * e (v c) := by
  rw [rowTimes, he.map_foldl_gfAdd]
  simp only [he.map_mul]

theorem rowTimes_congr {v' : Nat → Byte} (h : ∀ c < m, entry W' r c = entry W i c) (hv : ∀ c < m, v' c = v c) :
    rowTimes W' r m v' = rowTimes W i m v := by
  induction m with
  | zero => rfl
  | succ m ih =>
    rw [rowTimes_succ, rowTimes_succ, ih (fun c hc => h c (by omega)) fun c hc => hv c (by omega), h m (by omega),
      hv m (by omega)]

/-- A row of which a vector meets one column only. -/
theorem rowTimes_eq_single {j : Nat} (hj : j < m) (h : ∀ c, c < m → c ≠ j → gfMul (entry W i c) (v c) = 0) :
    rowTimes W i m v = gfMul (entry W i j) (v j) := by
  obtain ⟨F, _, e, he⟩ := exists_fieldMap
  apply he.injective
  rw [he.map_rowTimes, he.map_mul]
  refine Finset.sum_eq_single_of_mem j (Finset.mem_range.mpr hj) fun c hc hcj => ?_
  rw [← he.map_mul, h c (Finset.mem_range.mp hc) hcj]
  exact he.map_zero

/-- Changing one component of the vector changes the product by that column's multiple of the change. -/
theorem rowTimes_update {k : Nat} (hk : k < m) (x : Byte) :
    rowTimes W i m (Function.update v k x) = gfAdd (rowTimes W i m v) (gfMul (entry W i k) (gfSub x (v k))) := by
  obtain ⟨F, _, e, he⟩ := exists_fieldMap
  apply he.injective
  rw [he.map_add, he.map_mul, he.map_sub, he.map_rowTimes, he.map_rowTimes,
    ← Finset.add_sum_erase _ _ (Finset.mem_range.mpr hk), ← Finset.add_sum_erase _ _ (Finset.mem_range.mpr hk),
    Function.update_self, Finset.sum_congr rfl fun c hc => by rw [Function.update_of_ne (Finset.ne_of_mem_erase hc)]]
  ring

/-- A row that loses a multiple of another, applied to a vector, loses that multiple of what the other gives. -/
theorem rowTimes_subMultiple {q : Byte} (h : ∀ c < m, entry W' r c = gfSub (entry W r c) (gfMul q (entry W i c))) :
    rowTimes W' r m v = gfSub (rowTimes W r m v) (gfMul q (rowTimes W i m v)) := by
  obtain ⟨F, _, e, he⟩ := exists_fieldMap
  apply he.injective
  rw [he.map_sub, he.map_mul, he.map_rowTimes, he.map_rowTimes, he.map_rowTimes, Finset.mul_sum,
    ← Finset.sum_sub_distrib]
  refine Finset.sum_congr rfl fun c hc => ?_
  rw [h c (Finset.mem_range.mp hc), he.map_sub, he.map_mul]
  ring

end

/-- What holds of a row when it holds of the rows below it holds of every row. -/
theorem forall_rows_from_last {n : Nat} {p : Nat → Prop} (h : ∀ j, j < n → (∀ i, j < i → i < n → p i) → p j) :
    ∀ j, j < n → p j := by
  intro j hj
  induction hd : n - j using Nat.strong_induction_on generalizing j with
  | _ d ih => exact h j hj fun i hji hi => ih (n - i) (by omega) i hi rfl

/-- Every row of the `n` by `n + 1` matrix, its last column included, times `v` is zero. -/
def Kills (W : Mat) (n : Nat) (v : Nat → Byte) : Prop := ∀ i, i < n → rowTimes W i (n + 1) v = 0

/-- `v` solves the linear system of the `n` by `n + 1` matrix. -/
def Solves (W : Mat) (n : Nat) (v : Nat → Byte) : Prop := ∀ i, i < n → rowTimes W i n v = entry W i n

/-- A solution, with 1 (the negative of 1, R106) for the last column, is killed. -/
theorem kills_update_iff_solves {W : Mat} {n : Nat} {v : Nat → Byte} :
    Kills W n (Function.update v n 1#8) ↔ Solves W n v := by
  refine forall₂_congr fun i _ => ?_
  have hcongr : rowTimes W i n (Function.update v n 1#8) = rowTimes W i n v :=
    rowTimes_congr (fun _ _ => rfl) fun c hc => Function.update_of_ne hc.ne _ _
  rw [rowTimes_succ, hcongr, Function.update_self, gfMul_one_right]
  exact gfSub_eq_zero_iff

end Sys2Proof.Machine
end

section
/-!
PROOFS. Forward elimination (R133). One pivot either meets a column that is zero from its row down, or leaves the matrix
with one more column finished and the same vectors killed; the loop over the pivots is an induction on that.
-/
namespace Sys2Proof.Machine

/-! ### Choosing the pivot row -/

section
variable {W : Mat} {n i p r c : Nat}

theorem findPivot_eq_some_iff :
    findPivot W n i = some p ↔ entry W p i ≠ 0 ∧ (i < p ∧ p < n) ∧ ∀ r, i < r → r < p → entry W r i = 0 := by
  simp only [findPivot, List.find?_range'_eq_some, List.mem_range'_1]
  simp
  omega

theorem findPivot_eq_none_iff (hi : i < n) : findPivot W n i = none ↔ ∀ r, i < r → r < n → entry W r i = 0 := by
  have hlast : i + 1 + (n - 1 - i) = n := by omega
  simp [findPivot, hlast]

theorem choosePivot_of_ne_zero (h : entry W i i ≠ 0) : choosePivot n i W = .ok W := if_pos h

theorem choosePivot_of_least (hi : entry W i i = 0) (hip : i < p) (hp : p < n) (hpi : entry W p i ≠ 0)
    (hleast : ∀ r, i < r → r < p → entry W r i = 0) : choosePivot n i W = .ok (swapRows W i p) := by
  rw [choosePivot, if_neg (not_not.mpr hi : ¬ entry W i i ≠ 0#8), findPivot_eq_some_iff.mpr ⟨hpi, ⟨hip, hp⟩, hleast⟩]

theorem choosePivot_of_zero_column (hi : i < n) (h : ∀ r, i ≤ r → r < n → entry W r i = 0) :
    choosePivot n i W = .error .singularMatrix := by
  rw [choosePivot, if_neg (not_not.mpr (h i le_rfl hi) : ¬ entry W i i ≠ 0#8),
    (findPivot_eq_none_iff hi).mpr fun r hr => h r hr.le]

theorem getD_swapRows (hi : i < W.length) (hp : p < W.length) :
    (swapRows W i p).getD r [] = W.getD (Equiv.swap i p r) [] := by
  rw [swapRows, List.getD_eq_getElem?_getD, List.getElem?_set, List.getElem?_set, Equiv.swap_apply_def]
  by_cases hri : r = i
  · subst hri
    by_cases hpr : p = r <;> simp_all
  · by_cases hrp : r = p
    · simp_all
    · simp [Ne.symm hri, Ne.symm hrp, hri, hrp]

theorem entry_swapRows (hW : Shape W n) (hi : i < n) (hp : p < n) :
    entry (swapRows W i p) r c = entry W (Equiv.swap i p r) c := by
  rw [entry, getD_swapRows (hW.1.symm ▸ hi) (hW.1.symm ▸ hp), entry]

/-- Row numbers below `n` stay below `n` under the swap. -/
theorem swap_lt (hi : i < n) (hp : p < n) (hr : r < n) : Equiv.swap i p r < n := by
  rw [Equiv.swap_apply_def]
  split_ifs <;> assumption

theorem Shape.swapRows (hW : Shape W n) (hi : i < n) (hp : p < n) : Shape (swapRows W i p) n := by
  refine .of_getD (by simp [Machine.swapRows, hW.1]) fun r hr => ?_
  rw [getD_swapRows (hW.1.symm ▸ hi) (hW.1.symm ▸ hp)]
  exact hW.length_row (swap_lt hi hp hr)

theorem swapRows_self (hW : Shape W n) (hi : i < n) : Machine.swapRows W i i = W :=
  (hW.swapRows hi hi).ext hW fun r c _ _ => by rw [entry_swapRows hW hi hi, Equiv.swap_self, Equiv.refl_apply]

/-- The pivot column is zero from its row down, or a row with a nonzero entry there is swapped in, which may be the
pivot row itself. -/
theorem choosePivot_cases (hW : Shape W n) (hi : i < n) :
    (choosePivot n i W = .error .singularMatrix ∧ ∀ r, i ≤ r → r < n → entry W r i = 0) ∨
      ∃ p, i ≤ p ∧ p < n ∧ choosePivot n i W = .ok (swapRows W i p) ∧ entry W p i ≠ 0 := by
  by_cases hdiag : entry W i i = 0
  · cases hfind : findPivot W n i with
    | none =>
      have hcol : ∀ r, i ≤ r → r < n → entry W r i = 0 := fun r hir hr =>
        hir.eq_or_lt.elim (fun h => h ▸ hdiag) fun h => (findPivot_eq_none_iff hi).mp hfind r h hr
      exact .inl ⟨choosePivot_of_zero_column hi hcol, hcol⟩
    | some p =>
      obtain ⟨hpi, ⟨hip, hp⟩, hleast⟩ := findPivot_eq_some_iff.mp hfind
      exact .inr ⟨p, hip.le, hp, choosePivot_of_least hdiag hip hp hpi hleast, hpi⟩
  · exact .inr ⟨i, le_rfl, hi, by rw [choosePivot_of_ne_zero hdiag, swapRows_self hW hi], hdiag⟩

theorem choosePivot_eq_error_iff (hW : Shape W n) (hi : i < n) :
    choosePivot n i W = .error .singularMatrix ↔ ∀ r, i ≤ r → r < n → entry W r i = 0 := by
  refine ⟨fun h => ?_, choosePivot_of_zero_column hi⟩
  rcases choosePivot_cases hW hi with ⟨-, hcol⟩ | ⟨p, -, -, hok, -⟩
  · exact hcol
  · cases h.symm.trans hok

theorem kills_swapRows (hW : Shape W n) (hi : i < n) (hp : p < n) {v : Nat → Byte} :
    Kills (swapRows W i p) n v ↔ Kills W n v := by
  have hrow : ∀ r, rowTimes (swapRows W i p) r (n + 1) v = rowTimes W (Equiv.swap i p r) (n + 1) v := fun r =>
    rowTimes_congr (fun c _ => entry_swapRows hW hi hp) fun _ _ => rfl
  constructor
  · intro h r hr
    have hkill := h _ (swap_lt hi hp hr)
    rwa [hrow, Equiv.swap_apply_self] at hkill
  · intro h r hr
    rw [hrow]
    exact h _ (swap_lt hi hp hr)

end

/-! ### Eliminating below the pivot row -/

/-- The multiple of row `i` that takes the entry in column `i` of row `r` to zero. -/
def multiplier (W : Mat) (r i : Nat) : Byte := gfMul (entry W r i) (gfInv (entry W i i))

/-- `row` minus `q` times `pivot`. -/
def subMultiple (q : Byte) (row pivot : List Byte) : List Byte :=
  List.zipWith (fun x p => gfSub x (gfMul q p)) row pivot

section
variable {q : Byte} {row pivot : List Byte}

theorem subScaled_eq {scale : Byte} (hq : gfMul q scale = 1#8) (hlen : row.length = pivot.length) :
    subScaled scale row pivot = .ok (subMultiple q row pivot) := by
  induction row generalizing pivot with
  | nil => simp [subScaled, subMultiple]
  | cons x row ih =>
    cases pivot with
    | nil => simp at hlen
    | cons p pivot =>
      simp [subScaled, gfDiv_of_mul_eq_one hq, ih (by simpa using hlen), subMultiple]

theorem subMultiple_zero (hlen : row.length = pivot.length) : subMultiple 0#8 row pivot = row := by
  induction row generalizing pivot with
  | nil => rfl
  | cons x row ih =>
    cases pivot with
    | nil => simp at hlen
    | cons p pivot => simpa [subMultiple] using ih (by simpa using hlen)

theorem getD_subMultiple {c : Nat} (hc : c < row.length) (hlen : row.length = pivot.length) :
    (subMultiple q row pivot).getD c 0 = gfSub (row.getD c 0) (gfMul q (pivot.getD c 0)) := by
  rw [subMultiple, List.getD_eq_getElem _ _ (by simpa [hlen] using hlen ▸ hc), List.getElem_zipWith,
    List.getD_eq_getElem _ _ hc, List.getD_eq_getElem _ _ (hlen ▸ hc)]

/-- `row` minus the multiple of `pivot` that takes its entry in column `i` to zero. -/
def clearedBy (i : Nat) (pivot row : List Byte) : List Byte :=
  subMultiple (gfMul (row.getD i 0#8) (gfInv (pivot.getD i 0#8))) row pivot

/-- `row[i] / pivot[i]` is the inverse of the scale `pivot[i] / row[i]`; and a row left alone loses zero times the
pivot row. -/
theorem elimRow_eq {i : Nat} (hpivot : pivot.getD i 0#8 ≠ 0#8) (hlen : row.length = pivot.length) :
    elimRow i pivot row = .ok (clearedBy i pivot row) := by
  by_cases hrow : row.getD i 0#8 = 0#8
  · rw [elimRow, if_pos hrow, clearedBy, hrow, gfMul_zero_left, subMultiple_zero hlen]
  · rw [elimRow, clearedBy, if_neg hrow, gfDiv_of_ne_zero _ hrow, ok_bind]
    exact subScaled_eq (gfMul_quotients hpivot hrow) hlen

end

section
variable {W W' : Mat} {n i : Nat}

/-- Eliminating below a nonzero pivot keeps rows 0..i, and each row below loses its multiple of row `i` (R133). -/
theorem exists_elimBelow (hW : Shape W n) (hi : i < n) (hdiag : entry W i i ≠ 0) :
    ∃ W', elimBelow i W = .ok W' ∧ Shape W' n ∧ ∀ r c, r < n → c ≤ n →
      entry W' r c = if r ≤ i then entry W r c else gfSub (entry W r c) (gfMul (multiplier W r i) (entry W i c)) := by
  have hpivot := hW.length_row hi
  have hlen : ∀ row ∈ W, row.length = (W.getD i []).length := fun row hrow => (hW.2 row hrow).trans hpivot.symm
  have hrows : ∀ r < n, (W.take (i + 1) ++ (W.drop (i + 1)).map (clearedBy i (W.getD i []))).getD r []
      = if r < i + 1 then W.getD r [] else clearedBy i (W.getD i []) (W.getD r []) := fun r hr =>
    getD_take_append_map_drop _ (hW.1.symm ▸ hr)
  refine ⟨W.take (i + 1) ++ (W.drop (i + 1)).map (clearedBy i (W.getD i [])), ?runs,
    .of_getD ?rows fun r hr => ?columns, fun r c hr hc => ?entries⟩
  case runs =>
    rw [elimBelow, mapE_eq_ok fun row hrow => elimRow_eq hdiag (hlen row (List.mem_of_mem_drop hrow)), ok_bind]
  case rows =>
    have := hW.1
    simp
    omega
  case columns =>
    rw [hrows r hr]
    split
    · exact hW.length_row hr
    · rw [clearedBy, subMultiple, List.length_zipWith, hW.length_row hr, hpivot, Nat.min_self]
  case entries =>
    rw [entry, hrows r hr]
    by_cases hri : r < i + 1
    · rw [if_pos hri, if_pos (by omega), entry]
    · have hcol : c < (W.getD r []).length := by
        rw [hW.length_row hr]
        omega
      rw [if_neg hri, if_neg (by omega), clearedBy, getD_subMultiple hcol (hlen _ (hW.getD_mem hr))]
      rfl

/-- Rows whose entry in the pivot column is zero are left alone. -/
theorem elimBelow_of_zero (hW : Shape W n) (h : ∀ r, i < r → r < n → entry W r i = 0) : elimBelow i W = .ok W := by
  have hstay : ∀ row ∈ W.drop (i + 1), elimRow i (W.getD i []) row = .ok (id row) := fun row hrow => by
    obtain ⟨k, hk, rfl⟩ := List.getElem_of_mem hrow
    have hlen := hW.1
    rw [List.length_drop] at hk
    have hzero := h (i + 1 + k) (by omega) (by omega)
    rw [entry, List.getD_eq_getElem W [] (by omega)] at hzero
    rw [List.getElem_drop]
    exact if_pos hzero
  rw [elimBelow, mapE_eq_ok hstay, List.map_id, ok_bind, List.take_append_drop]

/-- The multiple of the pivot row that a killed vector loses is zero. -/
theorem kills_of_elimination (hi : i < n) {v : Nat → Byte}
    (h : ∀ r c, r < n → c ≤ n →
      entry W' r c = if r ≤ i then entry W r c else gfSub (entry W r c) (gfMul (multiplier W r i) (entry W i c))) :
    Kills W' n v ↔ Kills W n v := by
  have hstay : ∀ r ≤ i, rowTimes W' r (n + 1) v = rowTimes W r (n + 1) v := fun r hr =>
    rowTimes_congr (fun c hc => by rw [h r c (by omega) (by omega), if_pos hr]) fun _ _ => rfl
  have hrow : rowTimes W i (n + 1) v = 0 → ∀ r < n, rowTimes W' r (n + 1) v = rowTimes W r (n + 1) v := by
    intro hzero r hr
    by_cases hri : r ≤ i
    · exact hstay r hri
    · have hsub : ∀ c < n + 1, entry W' r c = gfSub (entry W r c) (gfMul (multiplier W r i) (entry W i c)) :=
        fun c hc => by rw [h r c hr (by omega), if_neg hri]
      rw [rowTimes_subMultiple hsub, hzero]
      simp
  exact ⟨fun hk r hr => (hrow ((hstay i le_rfl).symm.trans (hk i hi)) r hr).symm.trans (hk r hr),
    fun hk r hr => (hrow (hk i hi) r hr).trans (hk r hr)⟩

end

/-! ### The pivots in order -/

/-- Columns 0..m-1 are finished: zero below the diagonal and nonzero on it. -/
structure Reduced (W : Mat) (n m : Nat) : Prop where
  shape : Shape W n
  below : ∀ r c, c < m → c < r → r < n → entry W r c = 0
  diag : ∀ c, c < m → entry W c c ≠ 0

theorem fwdLoop_append (n : Nat) (is js : List Nat) (W : Mat) :
    fwdLoop n (is ++ js) W = fwdLoop n is W >>= fwdLoop n js := by
  induction is generalizing W with
  | nil => rfl
  | cons i is ih =>
    rw [List.cons_append, fwdLoop, fwdLoop]
    cases choosePivot n i W with
    | error k => rfl
    | ok W =>
      rw [ok_bind, ok_bind]
      cases elimBelow i W with
      | error k => rfl
      | ok W => exact ih W

theorem fwdLoop_singleton (n i : Nat) (W : Mat) : fwdLoop n [i] W = choosePivot n i W >>= elimBelow i := by
  rw [fwdLoop]
  cases choosePivot n i W with
  | error k => rfl
  | ok W =>
    rw [ok_bind, ok_bind]
    cases elimBelow i W <;> rfl

theorem fwdLoop_range_succ (n i : Nat) (W : Mat) :
    fwdLoop n (List.range (i + 1)) W = fwdLoop n (List.range i) W >>= fwdLoop n [i] := by
  rw [List.range_succ, fwdLoop_append]

section
variable {M W : Mat} {n i m : Nat}

/-- The rows that change places are both outside the finished part. -/
theorem Reduced.swapRows {p : Nat} (h : Reduced W n i) (hip : i ≤ p) (hp : p < n) : Reduced (swapRows W i p) n i := by
  have hi : i < n := by omega
  refine ⟨h.shape.swapRows hi hp, fun r c hc hcr hr => ?_, fun c hc => ?_⟩
  · rw [entry_swapRows h.shape hi hp]
    refine h.below _ c hc ?_ (swap_lt hi hp hr)
    rw [Equiv.swap_apply_def]
    split_ifs <;> omega
  · rw [entry_swapRows h.shape hi hp, Equiv.swap_apply_of_ne_of_ne (by omega) (by omega)]
    exact h.diag c hc

/-- One pivot meets a column that is zero from its row down, or finishes its column and kills the same vectors. -/
theorem Reduced.pivot (h : Reduced W n i) (hi : i < n) :
    (fwdLoop n [i] W = .error .singularMatrix ∧ ∀ r, i ≤ r → r < n → entry W r i = 0) ∨
      ∃ W', fwdLoop n [i] W = .ok W' ∧ Reduced W' n (i + 1) ∧ ∀ v, Kills W' n v ↔ Kills W n v := by
  rw [fwdLoop_singleton]
  rcases choosePivot_cases h.shape hi with ⟨herr, hcol⟩ | ⟨p, hip, hp, hok, hpi⟩
  · exact .inl ⟨by rw [herr, error_bind], hcol⟩
  have hs := h.swapRows hip hp
  have hdiag : entry (Machine.swapRows W i p) i i ≠ 0 := by
    rwa [entry_swapRows h.shape hi hp, Equiv.swap_apply_left]
  obtain ⟨W', hW', hshape, hentry⟩ := exists_elimBelow hs.shape hi hdiag
  refine .inr ⟨W', by rw [hok, ok_bind, hW'], ⟨hshape, fun r c hc hcr hr => ?below, fun c hc => ?diag⟩,
    fun v => (kills_of_elimination hi hentry).trans (kills_swapRows h.shape hi hp)⟩
  case below =>
    rw [hentry r c hr (by omega)]
    split
    · exact hs.below r c (by omega) hcr hr
    · rcases (show c < i ∨ c = i by omega) with hci | rfl
      · simp [hs.below r c hci hcr hr, hs.below i c hci hci hi]
      · rw [multiplier, gfMul_gfInv_cancel _ hdiag]
        exact gfSub_self _
  case diag =>
    rw [hentry c c (by omega) (by omega), if_pos (by omega)]
    rcases (show c < i ∨ c = i by omega) with hci | rfl
    · exact hs.diag c hci
    · exact hdiag

/-- Pivots 0..m-1 in order: the first zero column stops them, or they finish columns 0..m-1. -/
theorem fwdLoop_cases (hM : Shape M n) (hm : m ≤ n) :
    (fwdLoop n (List.range m) M = .error .singularMatrix ∧ ∃ i W, i < m ∧ fwdLoop n (List.range i) M = .ok W ∧
        ∀ r, i ≤ r → r < n → entry W r i = 0) ∨
      ∃ W, fwdLoop n (List.range m) M = .ok W ∧ Reduced W n m ∧ ∀ v, Kills W n v ↔ Kills M n v := by
  induction m with
  | zero => exact .inr ⟨M, rfl, ⟨hM, nofun, nofun⟩, fun _ => .rfl⟩
  | succ m ih =>
    rw [fwdLoop_range_succ]
    rcases ih (by omega) with ⟨herr, i, W, hi, hW, hcol⟩ | ⟨W, hW, hred, hkills⟩
    · exact .inl ⟨by rw [herr, error_bind], i, W, by omega, hW, hcol⟩
    · rcases hred.pivot (by omega) with ⟨herr, hcol⟩ | ⟨W', hW', hred', hkills'⟩
      · exact .inl ⟨by rw [hW, ok_bind, herr], m, W, by omega, hW, hcol⟩
      · exact .inr ⟨W', by rw [hW, ok_bind, hW'], hred', fun v => (hkills' v).trans (hkills v)⟩

theorem fwdLoop_eq_ok (hM : Shape M n) (hm : m ≤ n) (h : fwdLoop n (List.range m) M = .ok W) :
    Reduced W n m ∧ ∀ v, Kills W n v ↔ Kills M n v := by
  rcases fwdLoop_cases hM hm with ⟨herr, -⟩ | ⟨W', hok, hred⟩
  · cases h.symm.trans herr
  · rwa [Except.ok.inj (h.symm.trans hok)]

/-- `fwd_elim` meets a zero column and fails with SingularMatrix, or finishes columns 0..n-2 and kills the same
vectors. -/
theorem fwdElim_cases (hM : Shape M n) :
    (fwdElim M n = .error .singularMatrix ∧ MeetsAZeroColumn M n) ∨
      ∃ W, fwdElim M n = .ok W ∧ Reduced W n (n - 1) ∧ ∀ v, Kills W n v ↔ Kills M n v := by
  rcases fwdLoop_cases hM (Nat.sub_le n 1) with ⟨herr, i, W, hi, hW, hcol⟩ | hok
  · exact .inl ⟨herr, i, W, by omega, hW, hcol⟩
  · exact .inr hok

theorem fwdElim_eq_error (hM : Shape M n) {k : FaultCode} (h : fwdElim M n = .error k) : k = .singularMatrix := by
  rcases fwdElim_cases hM with ⟨herr, -⟩ | ⟨W, hok, -⟩
  · exact Except.error.inj (h.symm.trans herr)
  · cases h.symm.trans hok

theorem fwdElim_eq_ok (hM : Shape M n) (h : fwdElim M n = .ok W) :
    Reduced W n (n - 1) ∧ ∀ v, Kills W n v ↔ Kills M n v :=
  fwdLoop_eq_ok hM (Nat.sub_le n 1) h

theorem fwdElim_eq_error_iff (hM : Shape M n) : fwdElim M n = .error .singularMatrix ↔ MeetsAZeroColumn M n := by
  constructor
  · intro h
    rcases fwdElim_cases hM with ⟨-, hmeets⟩ | ⟨W, hok, -⟩
    · exact hmeets
    · cases h.symm.trans hok
  · rintro ⟨i, W, hi, hW, hcol⟩
    obtain ⟨k, hk⟩ : ∃ k, n - 1 = i + 1 + k := ⟨n - 1 - (i + 1), by omega⟩
    rw [fwdElim, hk, List.range_add, fwdLoop_append, fwdLoop_range_succ, hW, ok_bind, fwdLoop_singleton,
      choosePivot_of_zero_column (by omega) hcol]
    rfl

/-- A matrix whose pivot columns are finished already stays. -/
theorem Reduced.fwdLoop_eq (h : Reduced M n m) {is : List Nat} (his : ∀ i ∈ is, i < m) : fwdLoop n is M = .ok M := by
  induction is with
  | nil => rfl
  | cons i is ih =>
    obtain ⟨hi, his⟩ := List.forall_mem_cons.mp his
    rw [fwdLoop, choosePivot_of_ne_zero (h.diag i hi), ok_bind, elimBelow_of_zero h.shape fun r => h.below r i hi,
      ok_bind, ih his]

end

/-! ### The statements -/

/-- Settles O47: each pivot finishes its column. -/
theorem forwardEliminationTriangulates : Obligations.ForwardEliminationTriangulates := by
  intro M n hM hn
  refine ⟨fun k => fwdElim_eq_error hM, fun W hW => ?_, fun hbelow hdiag => ?_⟩
  · obtain ⟨hred, -⟩ := fwdElim_eq_ok hM hW
    exact ⟨hred.shape, fun i j hij hj => hred.below j i (by omega) hij hj, fun i hi => hred.diag i (by omega)⟩
  · have hred : Reduced M n (n - 1) :=
      ⟨hM, fun r c _ hcr hr => hbelow c r hcr hr, fun c hc => hdiag c (by omega)⟩
    exact hred.fwdLoop_eq fun i => List.mem_range.mp

/-- Settles O48: `multiplier` is the one quotient `W[r][i] / W[i][i]`. -/
theorem pivotTakesTheFirstRowAndClearsBelow : Obligations.PivotTakesTheFirstRowAndClearsBelow := by
  intro W n i hW hi
  refine ⟨choosePivot_of_ne_zero, fun p hdiag hip hp hpi hleast => ?swap, choosePivot_eq_error_iff hW hi,
    fun hdiag => ?clear, ?order⟩
  case swap =>
    refine ⟨_, choosePivot_of_least hdiag hip hp hpi hleast, hW.swapRows hi hp, fun r c _ _ => ?_⟩
    rw [entry_swapRows hW hi hp, Equiv.swap_apply_def]
    split_ifs <;> rfl
  case clear =>
    obtain ⟨W', hW', hshape, hentry⟩ := exists_elimBelow hW hi hdiag
    refine ⟨W', hW', hshape, fun r c hr hc => ⟨fun hri => ?_, fun hir q hq => ?_⟩⟩
    · rw [hentry r c hr hc, if_pos hri]
    · have hmult : multiplier W r i = q := Except.ok.inj ((gfDiv_of_ne_zero _ hdiag).symm.trans hq)
      rw [hentry r c hr hc, if_neg (by omega), hmult]
  case order =>
    rw [fwdLoop_range_succ]
    refine congrArg _ (funext fun W => ?_)
    exact fwdLoop_singleton n i W

/-- Settles O50: a solution is a killed vector with 1 for the last column, and the elimination kills the same
vectors. -/
theorem forwardEliminationKeepsTheSolutions : Obligations.ForwardEliminationKeepsTheSolutions := by
  intro M W n v hM hW
  obtain ⟨-, hkills⟩ := fwdElim_eq_ok hM hW
  exact kills_update_iff_solves.symm.trans ((hkills _).symm.trans kills_update_iff_solves)

end Sys2Proof.Machine
end

section
/-!
PROOFS. Backward substitution (R135) and normalization (R137). Every step either divides by a zero diagonal entry or
changes entries by closed formulas in the input; the loop over the pivot rows, from the last up, is an induction on the
pivot rows taken so far.
-/
namespace Sys2Proof.Machine

/-! ### One pivot row of the substitution -/

/-- `row` with its entry in column `i` taken to zero and its last entry less the multiple of the pivot row's. -/
def substituted (n i : Nat) (pivot row : List Byte) : List Byte :=
  (row.set n (gfSub (row.getD n 0#8)
    (gfMul (gfMul (row.getD i 0#8) (gfInv (pivot.getD i 0#8))) (pivot.getD n 0#8)))).set i 0#8

section
variable {n i : Nat} {pivot row : List Byte}

theorem set_getD_self {k : Nat} (hk : k < row.length) : row.set k (row.getD k 0#8) = row := by
  rw [List.getD_eq_getElem _ _ hk, List.set_getElem_self]

/-- A row whose entry is zero already loses zero times the pivot row. -/
theorem substituted_of_zero (hi : i < n) (hlen : row.length = n + 1) (hrow : row.getD i 0#8 = 0#8) :
    substituted n i pivot row = row := by
  rw [substituted, hrow, gfMul_zero_left, gfMul_zero_left, gfSub_zero, set_getD_self (by omega), ← hrow,
    set_getD_self (by omega)]

theorem backRow_eq (hi : i < n) (hlen : row.length = n + 1) (h : pivot.getD i 0#8 = 0#8 → row.getD i 0#8 = 0#8) :
    backRow n i pivot row = .ok (substituted n i pivot row) := by
  by_cases hrow : row.getD i 0#8 = 0#8
  · rw [backRow, if_pos hrow, substituted_of_zero hi hlen hrow]
  · have hquot := gfMul_quotients (mt h hrow) hrow
    rw [backRow, if_neg hrow, gfDiv_of_ne_zero _ hrow, ok_bind, gfDiv_of_mul_eq_one hquot, ok_bind]
    rfl

/-- With a zero pivot the scale is zero, and the second division fails. -/
theorem backRow_eq_error (hpivot : pivot.getD i 0#8 = 0#8) (hrow : row.getD i 0#8 ≠ 0#8) :
    backRow n i pivot row = .error .divisionByZero := by
  have hscale : gfDiv (pivot.getD i 0#8) (row.getD i 0#8) = .ok 0#8 := by
    rw [gfDiv_of_ne_zero _ hrow, hpivot, gfMul_zero_left]
  rw [backRow, if_neg hrow, hscale, ok_bind, gfDiv_zero, error_bind]

theorem getD_substituted {c : Nat} (hi : i < n) (hlen : row.length = n + 1) (hc : c ≤ n) :
    (substituted n i pivot row).getD c 0#8
      = if c = i then 0#8 else if c = n then
          gfSub (row.getD n 0#8) (gfMul (gfMul (row.getD i 0#8) (gfInv (pivot.getD i 0#8))) (pivot.getD n 0#8))
        else row.getD c 0#8 := by
  have hi' : i < row.length := by omega
  have hn' : n < row.length := by omega
  rw [substituted, List.getD_eq_getElem?_getD, List.getElem?_set, List.getElem?_set, List.length_set]
  by_cases hci : c = i
  · simp [hci, hi']
  · by_cases hcn : c = n
    · subst hcn
      simp [hi.ne, hi.ne', hn']
    · simp [Ne.symm hci, hci, Ne.symm hcn, hcn]

end

section
variable {W : Mat} {n i : Nat}

/-- Clearing above pivot row `i` divides by a zero diagonal entry, or there is no such division: then rows above lose
their entry in column `i` and, in the last column, their multiple of row `i`'s entry (R135). -/
theorem backAbove_cases (hW : Shape W n) (hi : i < n) :
    (backAbove n i W = .error .divisionByZero ∧ entry W i i = 0 ∧ ∃ j < i, entry W j i ≠ 0) ∨
      (entry W i i = 0 → ∀ j < i, entry W j i = 0) ∧ ∃ W', backAbove n i W = .ok W' ∧ Shape W' n ∧
        ∀ r c, r < n → c ≤ n → entry W' r c = if r < i then
          if c = i then 0
          else if c = n then gfSub (entry W r n) (gfMul (multiplier W r i) (entry W i n)) else entry W r c
          else entry W r c := by
  have hlen : W.length = n := hW.1
  have hmem : ∀ j < i, W.getD j [] ∈ W.take i := fun j hj => by
    rw [List.getD_eq_getElem W [] (by omega), ← List.getElem_take (j := i) (h := by simp; omega)]
    exact List.getElem_mem _
  have habove : ∀ row ∈ W.take i, ∃ j < i, row = W.getD j [] := fun row hrow => by
    obtain ⟨j, hj, rfl⟩ := List.getElem_of_mem hrow
    rw [List.length_take] at hj
    exact ⟨j, by omega, by rw [List.getElem_take, List.getD_eq_getElem W [] (by omega)]⟩
  by_cases hbad : entry W i i = 0 ∧ ∃ j < i, entry W j i ≠ 0
  · refine .inl ⟨?_, hbad⟩
    obtain ⟨hpivot, j, hj, hji⟩ := hbad
    rw [backAbove, mapE_eq_error (k := .divisionByZero) (fun row hrow => ?_)
      ⟨_, hmem j hj, backRow_eq_error hpivot hji⟩, error_bind]
    by_cases hzero : row.getD i 0#8 = 0#8
    · exact .inr ⟨_, backRow_eq hi (hW.2 row (List.mem_of_mem_take hrow)) fun _ => hzero⟩
    · exact .inl (backRow_eq_error hpivot hzero)
  · have hgood : entry W i i = 0 → ∀ j < i, entry W j i = 0 := fun hpivot j hj =>
      by_contra fun hji => hbad ⟨hpivot, j, hj, hji⟩
    have hrows : ∀ r < n, ((W.take i).map (substituted n i (W.getD i [])) ++ W.drop i).getD r []
        = if r < i then substituted n i (W.getD i []) (W.getD r []) else W.getD r [] := fun r hr =>
      getD_map_take_append_drop _ (hlen.symm ▸ hr)
    refine .inr ⟨hgood, (W.take i).map (substituted n i (W.getD i [])) ++ W.drop i, ?runs,
      .of_getD ?rows fun r hr => ?columns, fun r c hr hc => ?entries⟩
    case runs =>
      rw [backAbove, mapE_eq_ok fun row hrow => ?_, ok_bind]
      obtain ⟨j, hj, rfl⟩ := habove row hrow
      exact backRow_eq hi (hW.length_row (by omega)) fun hpivot => hgood hpivot j hj
    case rows =>
      simp
      omega
    case columns =>
      rw [hrows r hr]
      split
      · simpa [substituted] using hW.length_row hr
      · exact hW.length_row hr
    case entries =>
      rw [entry, hrows r hr]
      split
      · exact getD_substituted hi (hW.length_row hr) hc
      · rfl

end

/-! ### The pivot rows from the last up -/

/-- The last entry of row `j` of `M`, less the multiples of the last entries that rows k..n-1 of `W` have. -/
def lastLess (M W : Mat) (n j k : Nat) : Byte :=
  (List.range' k (n - k)).foldl (fun acc i => gfSub acc (gfMul (multiplier M j i) (entry W i n))) (entry M j n)

/-- Subtractions commute, so the first may be made last. -/
theorem foldl_gfSub_cons (f : Nat → Byte) (a : Byte) (i : Nat) (is : List Nat) :
    (i :: is).foldl (fun acc k => gfSub acc (f k)) a = gfSub (is.foldl (fun acc k => gfSub acc (f k)) a) (f i) := by
  induction is generalizing a with
  | nil => rfl
  | cons j is ih =>
    have hcomm : gfSub (gfSub a (f i)) (f j) = gfSub (gfSub a (f j)) (f i) := by simp only [gfSub]; ac_rfl
    rw [List.foldl_cons, List.foldl_cons, hcomm]
    exact ih (gfSub a (f j))

section
variable {M W W' : Mat} {n i j k : Nat} {v : Nat → Byte}

theorem lastLess_self : lastLess M W n j n = entry M j n := by simp [lastLess]

theorem lastLess_of_lt (hk : k < n) :
    lastLess M W n j k = gfSub (lastLess M W n j (k + 1)) (gfMul (multiplier M j k) (entry W k n)) := by
  obtain ⟨d, rfl⟩ : ∃ d, n = k + 1 + d := ⟨n - (k + 1), by omega⟩
  have h₁ : k + 1 + d - k = d + 1 := by omega
  have h₂ : k + 1 + d - (k + 1) = d := by omega
  rw [lastLess, lastLess, h₁, h₂, List.range'_succ]
  exact foldl_gfSub_cons _ _ k _

theorem lastLess_congr (h : ∀ i, k ≤ i → i < n → entry W' i n = entry W i n) :
    lastLess M W' n j k = lastLess M W n j k := by
  refine List.foldl_ext _ _ _ fun acc i hi => ?_
  rw [List.mem_range'_1] at hi
  rw [h i hi.1 (by omega)]

/-- `W` is what `M` has become when pivot rows k..n-1 have been taken: their columns are zero above the diagonal, the
last column is less the multiples of those rows, and none of those rows had a zero diagonal entry under a nonzero
entry. -/
structure Substituted (M W : Mat) (n k : Nat) : Prop where
  shape : Shape W n
  left : ∀ j c, j < n → c < n → entry W j c = if j < c ∧ k ≤ c then 0 else entry M j c
  last : ∀ j, j < n → entry W j n = lastLess M W n j (max (j + 1) k)
  diag : ∀ i, k ≤ i → i < n → entry M i i = 0 → ∀ j < i, entry M j i = 0

/-- Nothing has been taken yet. -/
theorem Substituted.refl (hM : Shape M n) : Substituted M M n n := by
  refine ⟨hM, fun j c _ hc => ?_, fun j hj => ?_, fun i hki hi => ?_⟩
  · rw [if_neg (by omega)]
  · rw [Nat.max_eq_right (by omega), lastLess_self]
  · omega

/-- One more pivot row is taken, or it has a zero diagonal entry under a nonzero entry. -/
theorem Substituted.pivot (h : Substituted M W n (i + 1)) (hi : i < n) :
    (backAbove n i W = .error .divisionByZero ∧ entry M i i = 0 ∧ ∃ j < i, entry M j i ≠ 0) ∨
      ∃ W', backAbove n i W = .ok W' ∧ Substituted M W' n i := by
  have hcol : ∀ j < n, entry W j i = entry M j i := fun j hj => by rw [h.left j i hj hi, if_neg (by omega)]
  rcases backAbove_cases h.shape hi with ⟨herr, hzero, j, hj, hji⟩ | ⟨hgood, W', hW', hshape, hentry⟩
  · rw [hcol i hi] at hzero
    rw [hcol j (by omega)] at hji
    exact .inl ⟨herr, hzero, j, hj, hji⟩
  have hlower : ∀ r c, i ≤ r → r < n → c ≤ n → entry W' r c = entry W r c := fun r c hir hr hc => by
    rw [hentry r c hr hc, if_neg (by omega)]
  refine .inr ⟨W', hW', hshape, fun j c hj hc => ?left, fun j hj => ?last, fun r hir hr hzero j hj => ?diag⟩
  case left =>
    rw [hentry j c hj hc.le, h.left j c hj hc, if_neg hc.ne]
    rcases lt_trichotomy c i with hci | rfl | hci
    · rw [if_neg hci.ne, ite_self, if_neg (by omega), if_neg (by omega)]
    · simp
    · simp [hci.ne', hci.le, Nat.succ_le_of_lt hci]
  case last =>
    have hcongr : ∀ k, i ≤ k → lastLess M W' n j k = lastLess M W n j k := fun k hk =>
      lastLess_congr fun r hr hrn => hlower r n (by omega) hrn le_rfl
    by_cases hji : j < i
    · rw [hentry j n hj le_rfl, if_pos hji, if_neg (by omega), if_pos rfl, h.last j hj, Nat.max_eq_right (by omega),
        Nat.max_eq_right (by omega), hcongr i le_rfl, lastLess_of_lt hi, multiplier, hcol j hj, hcol i hi, multiplier]
    · rw [hlower j n (by omega) hj le_rfl, h.last j hj, Nat.max_eq_left (by omega), Nat.max_eq_left (by omega),
        hcongr (j + 1) (by omega)]
  case diag =>
    rcases hir.eq_or_lt with rfl | hlt
    · rw [← hcol j (by omega)]
      exact hgood (by rwa [hcol i hi]) j hj
    · exact h.diag r hlt hr hzero j hj

theorem backLoop_append (n : Nat) (is js : List Nat) (W : Mat) :
    backLoop n (is ++ js) W = backLoop n is W >>= backLoop n js := by
  induction is generalizing W with
  | nil => rfl
  | cons i is ih =>
    rw [List.cons_append, backLoop, backLoop]
    cases backAbove n i W with
    | error k => rfl
    | ok W => exact ih W

theorem backLoop_singleton (n i : Nat) (W : Mat) : backLoop n [i] W = backAbove n i W := by
  rw [backLoop]
  cases backAbove n i W <;> rfl

/-- The pivot rows k..n-1, from the last up: the last of them is row `k`. -/
theorem backLoop_rows_of_lt (hk : k < n) (M : Mat) :
    backLoop n (List.range' k (n - k)).reverse M
      = backLoop n (List.range' (k + 1) (n - (k + 1))).reverse M >>= backAbove n k := by
  obtain ⟨d, rfl⟩ : ∃ d, n = k + 1 + d := ⟨n - (k + 1), by omega⟩
  have h₁ : k + 1 + d - k = d + 1 := by omega
  have h₂ : k + 1 + d - (k + 1) = d := by omega
  rw [h₁, h₂, List.range'_succ, List.reverse_cons, backLoop_append]
  exact congrArg _ (funext (backLoop_singleton _ k))

/-- Pivot rows k..n-1 are taken, or one of them has a zero diagonal entry under a nonzero entry. -/
theorem backLoop_cases (hM : Shape M n) (hk : k ≤ n) :
    (backLoop n (List.range' k (n - k)).reverse M = .error .divisionByZero ∧
        ∃ i j, j < i ∧ i < n ∧ entry M i i = 0 ∧ entry M j i ≠ 0) ∨
      ∃ W, backLoop n (List.range' k (n - k)).reverse M = .ok W ∧ Substituted M W n k := by
  induction hk using Nat.decreasingInduction with
  | self => exact .inr ⟨M, by simp [backLoop], .refl hM⟩
  | of_succ k hk ih =>
    rw [backLoop_rows_of_lt hk]
    rcases ih with ⟨herr, hbad⟩ | ⟨W, hW, hsub⟩
    · exact .inl ⟨by rw [herr, error_bind], hbad⟩
    · rcases hsub.pivot hk with ⟨herr, hzero, j, hj, hji⟩ | ⟨W', hW', hsub'⟩
      · exact .inl ⟨by rw [hW, ok_bind, herr], k, j, hj, hk, hzero, hji⟩
      · exact .inr ⟨W', by rw [hW, ok_bind, hW'], hsub'⟩

/-- `back_subst` divides by a zero diagonal entry under a nonzero entry, or takes pivot rows 1..n-1. -/
theorem backSubst_cases (hM : Shape M n) (hn : 1 ≤ n) :
    (backSubst M n = .error .divisionByZero ∧ ∃ i j, j < i ∧ i < n ∧ entry M i i = 0 ∧ entry M j i ≠ 0) ∨
      ∃ W, backSubst M n = .ok W ∧ Substituted M W n 1 :=
  backLoop_cases hM hn

theorem backSubst_eq_error (hM : Shape M n) (hn : 1 ≤ n) {e : FaultCode} (h : backSubst M n = .error e) :
    e = .divisionByZero := by
  rcases backSubst_cases hM hn with ⟨herr, -⟩ | ⟨W, hok, -⟩
  · exact Except.error.inj (h.symm.trans herr)
  · cases h.symm.trans hok

theorem backSubst_eq_ok (hM : Shape M n) (hn : 1 ≤ n) (h : backSubst M n = .ok W) : Substituted M W n 1 := by
  rcases backSubst_cases hM hn with ⟨herr, -⟩ | ⟨W', hok, hsub⟩
  · cases h.symm.trans herr
  · rwa [Except.ok.inj (h.symm.trans hok)]

theorem backSubst_of_diag (hM : Shape M n) (hn : 1 ≤ n) (hdiag : ∀ i, i < n → entry M i i ≠ 0) :
    ∃ W, backSubst M n = .ok W := by
  rcases backSubst_cases hM hn with ⟨-, i, j, -, hi, hzero, -⟩ | ⟨W, hok, -⟩
  · exact absurd hzero (hdiag i hi)
  · exact ⟨W, hok⟩

theorem Substituted.entry_diag (h : Substituted M W n k) (hi : i < n) : entry W i i = entry M i i := by
  rw [h.left i i hi hi, if_neg (by omega)]

/-! ### The solutions of a triangular system -/

section
variable {F : Type} [Field F] {e : Byte → F} (he : FieldMap e)
include he

theorem FieldMap.map_lastLess (hk : k ≤ n) :
    e (lastLess M W n j k) = e (entry M j n) - ∑ i ∈ Finset.Ico k n, e (multiplier M j i) * e (entry W i n) := by
  induction hk using Nat.decreasingInduction with
  | self => simp [lastLess_self]
  | of_succ k hk ih =>
    rw [lastLess_of_lt hk, he.map_sub, he.map_mul, ih, Finset.sum_eq_sum_Ico_succ_bot hk]
    ring

/-- A row of a triangular matrix meets the diagonal and the columns after it. -/
theorem FieldMap.map_rowTimes_of_triangular (hj : j < n) (h : ∀ c < j, entry M j c = 0) :
    e (rowTimes M j n v) = e (entry M j j) * e (v j) + ∑ i ∈ Finset.Ico (j + 1) n, e (entry M j i) * e (v i) := by
  have hleft : ∑ c ∈ Finset.range j, e (entry M j c) * e (v c) = 0 :=
    Finset.sum_eq_zero fun c hc => by
      rw [h c (Finset.mem_range.mp hc)]
      exact (congrArg (· * _) he.map_zero).trans (zero_mul _)
  rw [he.map_rowTimes, ← Finset.sum_range_add_sum_Ico _ hj.le, hleft, zero_add, Finset.sum_eq_sum_Ico_succ_bot hj]

end

/-- When the rows below are solved, row `j` of the input and of the result say the same of `v j`. -/
theorem Substituted.solves_row (h : Substituted M W n 1) (htri : ∀ i j, i < j → j < n → entry M j i = 0)
    (hdiag : ∀ i, i < n → entry M i i ≠ 0) (hj : j < n)
    (hbelow : ∀ i, j < i → i < n → gfMul (entry M i i) (v i) = entry W i n) :
    rowTimes M j n v = entry M j n ↔ gfMul (entry M j j) (v j) = entry W j n := by
  obtain ⟨F, _, e, he⟩ := exists_fieldMap
  have hmult : ∀ i ∈ Finset.Ico (j + 1) n, e (multiplier M j i) * e (entry W i n) = e (entry M j i) * e (v i) := by
    intro i hi
    obtain ⟨hji, hin⟩ := Finset.mem_Ico.mp hi
    rw [← hbelow i hji hin, ← he.map_mul, ← gfMul_assoc, multiplier, gfMul_gfInv_cancel _ (hdiag i hin), he.map_mul]
  rw [h.last j hj, Nat.max_eq_left (by omega), ← he.injective.eq_iff, ← he.injective.eq_iff, he.map_lastLess hj,
    he.map_rowTimes_of_triangular hj fun c hc => htri c j hc hj, Finset.sum_congr rfl hmult, he.map_mul,
    eq_sub_iff_add_eq]

/-- Row by row from the last, the input and the result have the same solutions. -/
theorem Substituted.solves_iff (h : Substituted M W n 1) (htri : ∀ i j, i < j → j < n → entry M j i = 0)
    (hdiag : ∀ i, i < n → entry M i i ≠ 0) : Solves M n v ↔ Solves W n v := by
  have hrow : ∀ j, j < n → rowTimes W j n v = gfMul (entry M j j) (v j) := fun j hj => by
    rw [← h.entry_diag hj]
    refine rowTimes_eq_single hj fun c hc hcj => gfMul_of_left_eq_zero ?_
    rw [h.left j c hj hc]
    split_ifs with hjc
    · rfl
    · exact htri c j (by omega) hj
  constructor
  · intro hM j hj
    rw [hrow j hj]
    revert j
    exact forall_rows_from_last fun j hj hbelow => (h.solves_row htri hdiag hj hbelow).mp (hM j hj)
  · intro hW j hj
    have hdone : ∀ i, i < n → gfMul (entry M i i) (v i) = entry W i n := fun i hi => (hrow i hi).symm.trans (hW i hi)
    exact (h.solves_row htri hdiag hj fun i _ => hdone i).mpr (hdone j hj)

end

/-! ### Normalization -/

section
variable {M W : Mat} {n : Nat}

theorem normRow_eq_ok {row : List Byte} {i : Nat} (h : row.getD i 0#8 ≠ 0#8) :
    normRow row i = .ok (row.map (gfMul · (gfInv (row.getD i 0#8)))) :=
  mapE_eq_ok fun x _ => gfDiv_of_ne_zero x h

theorem normRow_eq_error {row : List Byte} {i : Nat} (hrow : row ≠ []) (h : row.getD i 0#8 = 0#8) :
    normRow row i = .error .divisionByZero := by
  have hdiv : ∀ x, gfDiv x (row.getD i 0#8) = .error .divisionByZero := fun x => by rw [h, gfDiv_zero]
  obtain ⟨x, hx⟩ := List.exists_mem_of_ne_nil row hrow
  exact mapE_eq_error (fun x _ => .inl (hdiv x)) ⟨x, hx, hdiv x⟩

/-- `M` with each row times the inverse of its diagonal entry. -/
def normalized (M : Mat) : Mat := M.zipIdx.map fun r => r.1.map (gfMul · (gfInv (r.1.getD r.2 0#8)))

theorem getD_normalized {i : Nat} (hi : i < M.length) :
    (normalized M).getD i [] = (M.getD i []).map (gfMul · (gfInv ((M.getD i []).getD i 0#8))) := by
  rw [normalized, List.getD_eq_getElem _ _ (by simpa using hi), List.getD_eq_getElem _ _ hi]
  simp

/-- A zero diagonal entry fails the division, and without one every entry is divided (R137). -/
theorem normalize_cases (hM : Shape M n) :
    (normalize M = .error .divisionByZero ∧ ∃ i, i < n ∧ entry M i i = 0) ∨
      (∀ i, i < n → entry M i i ≠ 0) ∧ ∃ W, normalize M = .ok W ∧ Shape W n ∧
        ∀ i c, i < n → c ≤ n → entry W i c = gfMul (entry M i c) (gfInv (entry M i i)) := by
  have hlen : M.length = n := hM.1
  have hrows : ∀ r ∈ M.zipIdx, r.2 < n ∧ r.1 = M.getD r.2 [] := fun r hr => by
    obtain ⟨hi, hrow⟩ := List.getElem?_eq_some_iff.mp (List.mem_zipIdx_iff_getElem?.mp hr)
    exact ⟨hlen ▸ hi, by rw [List.getD_eq_getElem M [] hi, hrow]⟩
  have hmem : ∀ i < n, (M.getD i [], i) ∈ M.zipIdx := fun i hi => by
    rw [List.mem_zipIdx_iff_getElem?, List.getD_eq_getElem M [] (hlen.symm ▸ hi)]
    exact List.getElem?_eq_getElem _
  by_cases hbad : ∃ i, i < n ∧ entry M i i = 0
  · refine .inl ⟨?_, hbad⟩
    obtain ⟨i, hi, hzero⟩ := hbad
    have hrow : ∀ i < n, M.getD i [] ≠ [] := fun i hi hnil => by
      have hrow := hM.length_row hi
      rw [hnil, List.length_nil] at hrow
      omega
    refine mapE_eq_error (fun r hr => ?_) ⟨_, hmem i hi, normRow_eq_error (hrow i hi) hzero⟩
    obtain ⟨hr, hrow'⟩ := hrows r hr
    by_cases hr0 : r.1.getD r.2 0#8 = 0#8
    · exact .inl (normRow_eq_error (hrow' ▸ hrow r.2 hr) hr0)
    · exact .inr ⟨_, normRow_eq_ok hr0⟩
  · have hdiag : ∀ i, i < n → entry M i i ≠ 0 := fun i hi h => hbad ⟨i, hi, h⟩
    refine .inr ⟨hdiag, normalized M, mapE_eq_ok fun r hr => ?runs, .of_getD ?rows fun i hi => ?columns,
      fun i c hi hc => ?entries⟩
    case runs =>
      obtain ⟨hr, hrow⟩ := hrows r hr
      exact normRow_eq_ok (hrow ▸ hdiag r.2 hr)
    case rows => simpa [normalized] using hlen
    case columns => rw [getD_normalized (hlen.symm ▸ hi), List.length_map, hM.length_row hi]
    case entries =>
      have hc' : c < (M.getD i []).length := by
        rw [hM.length_row hi]
        omega
      rw [entry, getD_normalized (hlen.symm ▸ hi), List.getD_eq_getElem _ _ (by simpa using hc'), List.getElem_map,
        ← List.getD_eq_getElem _ 0 hc']
      rfl

theorem normalize_eq_error (hM : Shape M n) {k : FaultCode} (h : normalize M = .error k) : k = .divisionByZero := by
  rcases normalize_cases hM with ⟨herr, -⟩ | ⟨-, W, hok, -⟩
  · exact Except.error.inj (h.symm.trans herr)
  · cases h.symm.trans hok

theorem normalize_eq_error_iff (hM : Shape M n) :
    normalize M = .error .divisionByZero ↔ ∃ i, i < n ∧ entry M i i = 0 := by
  rcases normalize_cases hM with ⟨herr, hzero⟩ | ⟨hdiag, W, hok, -⟩
  · exact iff_of_true herr hzero
  · exact iff_of_false (fun h => by cases h.symm.trans hok) fun ⟨i, hi, h⟩ => hdiag i hi h

theorem normalize_eq_ok (hM : Shape M n) (h : normalize M = .ok W) :
    Shape W n ∧ ∀ i c, i < n → c ≤ n → gfMul (entry W i c) (entry M i i) = entry M i c := by
  rcases normalize_cases hM with ⟨herr, -⟩ | ⟨hdiag, W', hok, hshape, hentry⟩
  · cases h.symm.trans herr
  · obtain rfl := Except.ok.inj (h.symm.trans hok)
    exact ⟨hshape, fun i c hi hc => by rw [hentry i c hi hc, gfMul_gfInv_cancel _ (hdiag i hi)]⟩

theorem normalize_of_diag (hM : Shape M n) (hdiag : ∀ i, i < n → entry M i i ≠ 0) : ∃ W, normalize M = .ok W := by
  rcases normalize_cases hM with ⟨-, i, hi, hzero⟩ | ⟨-, W, hok, -⟩
  · exact absurd hzero (hdiag i hi)
  · exact ⟨W, hok⟩

end

/-! ### The statements -/

/-- Settles O51: the multiples are the quotients by the diagonal, and the loop makes each division that has a
divisor. -/
theorem backwardSubstitutionClearsAbove : Obligations.BackwardSubstitutionClearsAbove := by
  intro M n hM hn
  refine ⟨?fails, fun k => backSubst_eq_error hM hn, fun W hW => ?result⟩
  case fails =>
    rcases backSubst_cases hM hn with ⟨herr, hbad⟩ | ⟨W, hok, hsub⟩
    · exact iff_of_true ⟨_, herr⟩ hbad
    · refine iff_of_false (fun ⟨k, hk⟩ => by cases hk.symm.trans hok) ?_
      rintro ⟨i, j, hji, hi, hzero, hne⟩
      exact hne (hsub.diag i (by omega) hi hzero j hji)
  case result =>
    have hsub := backSubst_eq_ok hM hn hW
    refine ⟨hsub.shape, fun j c hj hc => ?_, fun j hj => ⟨multiplier M j, fun i hji hi => ?_, ?_⟩,
      fun htri hdiag v => hsub.solves_iff htri hdiag⟩
    · rw [hsub.left j c hj hc]
      exact if_congr (by omega) rfl rfl
    · split_ifs with hzero
      · rw [multiplier, hzero]
        exact gfMul_zero_left _
      · exact gfDiv_of_ne_zero _ fun hdiag => hzero (hsub.diag i (by omega) hi hdiag j hji)
    · have hcount : n - 1 - j = n - (j + 1) := by omega
      rw [hsub.last j hj, Nat.max_eq_left (by omega), hcount, lastLess]

/-- Settles O52: the quotients are the entries times the inverse of the diagonal. -/
theorem normalizationDividesByTheDiagonal : Obligations.NormalizationDividesByTheDiagonal := by
  intro M n hM
  refine ⟨?fails, fun k => normalize_eq_error hM, fun W hW => ?result⟩
  case fails =>
    rw [← normalize_eq_error_iff hM]
    exact ⟨fun ⟨k, hk⟩ => normalize_eq_error hM hk ▸ hk, fun h => ⟨_, h⟩⟩
  case result =>
    obtain ⟨hshape, hentry⟩ := normalize_eq_ok hM hW
    have hdiag : ∀ i, i < n → entry M i i ≠ 0 := fun i hi hzero => by
      cases hW.symm.trans ((normalize_eq_error_iff hM).mpr ⟨i, hi, hzero⟩)
    refine ⟨hshape, hentry, fun hoff i c hi hc => gfMul_right_cancel (hdiag i hi) ?_⟩
    rw [hentry i c hi hc.le]
    split_ifs with hic
    · rw [hic]
      exact (gfMul_one_left _).symm
    · rw [hoff i c hi hc hic]
      exact (gfMul_zero_left _).symm

end Sys2Proof.Machine
end

section
/-!
PROOFS. When the three stages succeed (R133 to R137): exactly when no nonzero vector is killed by the left `n` columns.
A column that is zero from its row down gives such a vector, by solving the finished columns before it; and a matrix
whose columns are finished kills none.
-/
namespace Sys2Proof.Machine

/-! ### Vectors that a matrix with finished columns kills -/

section
variable {M W : Mat} {n m i : Nat} {v : Nat → Byte}

/-- A killed vector without components past the finished columns is zero, from the last finished column back. -/
theorem Reduced.eq_zero_of_kills (h : Reduced W n m) (hm : m ≤ n) (hv : Kills W n v)
    (hzero : ∀ c, m ≤ c → c ≤ n → v c = 0) :
    ∀ c, c < m → v c = 0 := by
  refine forall_rows_from_last fun c hc hlater => ?_
  have hrow : rowTimes W c (n + 1) v = gfMul (entry W c c) (v c) := by
    refine rowTimes_eq_single (by omega) fun c' _ hne => ?_
    rcases hne.lt_or_gt with hlt | hgt
    · exact gfMul_of_left_eq_zero (h.below c c' (by omega) hlt (by omega))
    · exact gfMul_of_right_eq_zero ((lt_or_ge c' m).elim (hlater c' hgt) fun hge => hzero c' hge (by omega))
  by_contra hne
  exact gfMul_ne_zero (h.diag c hc) hne (hrow.symm.trans (hv c (by omega)))

/-- When column `i` is zero from row `i` down, a vector that is 1 at `i` and zero after it is killed: its components
before `i` are found row by row, from row i-1 up. -/
theorem Reduced.exists_kills (h : Reduced W n i) (hi : i < n) (hcol : ∀ r, i ≤ r → r < n → entry W r i = 0) :
    ∃ v, Kills W n v ∧ v i ≠ 0 ∧ ∀ c, i < c → v c = 0 := by
  suffices hrows : ∀ k ≤ i, ∃ v : Nat → Byte, (∀ r, k ≤ r → r < n → rowTimes W r (n + 1) v = 0) ∧ v i ≠ 0 ∧
      ∀ c, i < c → v c = 0 by
    obtain ⟨v, hv, hvi, hlater⟩ := hrows 0 (Nat.zero_le i)
    exact ⟨v, fun r => hv r (Nat.zero_le r), hvi, hlater⟩
  intro k hk
  induction hk using Nat.decreasingInduction with
  | self =>
    refine ⟨Function.update (fun _ => 0) i 1, fun r hir hr => ?_, by simp, fun c hc => ?_⟩
    · rw [rowTimes_eq_single (j := i) (by omega) fun c _ hne => gfMul_of_right_eq_zero (Function.update_of_ne hne _ _)]
      exact gfMul_of_left_eq_zero (hcol r hir hr)
    · rw [Function.update_of_ne hc.ne']
  | of_succ k hk ih =>
    obtain ⟨v, hv, hvi, hlater⟩ := ih
    obtain ⟨x, hx⟩ : ∃ x, gfSub x (v k) = gfMul (rowTimes W k (n + 1) v) (gfInv (entry W k k)) :=
      ⟨_, gfAdd_add_cancel _ (v k)⟩
    refine ⟨Function.update v k x, fun r hkr hr => ?_, by rwa [Function.update_of_ne hk.ne'], fun c hc => ?_⟩
    · rw [rowTimes_update (by omega), hx]
      rcases hkr.eq_or_lt with rfl | hlt
      · rw [gfMul_comm, gfMul_gfInv_cancel _ (h.diag k hk)]
        exact gfSub_self _
      · rw [h.below r k hk hlt hr, hv r hlt hr, gfMul_of_left_eq_zero rfl]
        rfl
    · rw [Function.update_of_ne (by omega), hlater c hc]

/-- `v` with zeros from component `m` on. -/
def truncated (m : Nat) (v : Nat → Byte) (c : Nat) : Byte := if c < m then v c else 0

theorem truncated_of_lt {c : Nat} (hc : c < m) : truncated m v c = v c := if_pos hc

theorem truncated_of_le {c : Nat} (hc : m ≤ c) : truncated m v c = 0 := if_neg (by omega)

/-- The vectors without a component for column n-1 and the last are killed exactly by columns 0..n-2. -/
theorem rowTimes_eq_of_left (hn : 1 ≤ n) (hv : ∀ c, n - 1 ≤ c → v c = 0) :
    rowTimes M i (n + 1) v = rowTimes M i (n - 1) v := by
  obtain ⟨n, rfl⟩ : ∃ k, n = k + 1 := ⟨n - 1, by omega⟩
  rw [rowTimes_succ_of_eq_zero (hv _ (by omega)), rowTimes_succ_of_eq_zero (hv _ (by omega)), Nat.add_sub_cancel]

/-- The zero column gives a vector that the matrix kills after the pivots before it, so the input does. -/
theorem MeetsAZeroColumn.exists_kills (h : MeetsAZeroColumn M n) (hM : Shape M n) :
    ∃ v i, i + 1 < n ∧ Kills M n v ∧ v i ≠ 0 ∧ ∀ c, i < c → v c = 0 := by
  obtain ⟨i, W, hi, hW, hcol⟩ := h
  obtain ⟨hred, hkills⟩ := fwdLoop_eq_ok hM (by omega) hW
  obtain ⟨v, hv, hvi, hlater⟩ := hred.exists_kills (by omega) hcol
  exact ⟨v, i, hi, (hkills v).mp hv, hvi, hlater⟩

/-- A zero column gives a killed vector on columns 0..n-2; and a matrix that finishes these columns kills no vector that
depends on them alone. -/
theorem meetsAZeroColumn_iff_dependentColumns (hM : Shape M n) (hn : 1 ≤ n) :
    MeetsAZeroColumn M n ↔ DependentColumns M n := by
  constructor
  · intro hmeets
    obtain ⟨v, i, hi, hv, hvi, hlater⟩ := hmeets.exists_kills hM
    refine ⟨v, ⟨i, hi, hvi⟩, fun r hr => ?_⟩
    rw [← rowTimes_eq_of_left hn fun c hc => hlater c (by omega)]
    exact hv r hr
  · rintro ⟨v, ⟨c, hc, hvc⟩, hv⟩
    rcases fwdElim_cases hM with ⟨-, hmeets⟩ | ⟨W, -, hred, hkills⟩
    · exact hmeets
    have hkill : Kills M n (truncated (n - 1) v) := fun r hr => by
      rw [rowTimes_eq_of_left hn fun c => truncated_of_le, ← hv r hr]
      exact rowTimes_congr (fun _ _ => rfl) fun c => truncated_of_lt
    have hvc0 := hred.eq_zero_of_kills (by omega) ((hkills _).mpr hkill) (fun c hc _ => truncated_of_le hc) c (by omega)
    rw [truncated_of_lt (by omega)] at hvc0
    exact absurd hvc0 hvc

/-! ### The three stages -/

/-- A nonzero vector is killed by the left `n` columns. -/
def Singular (M : Mat) (n : Nat) : Prop := ∃ v, Kills M n v ∧ v n = 0 ∧ ∃ c, c < n ∧ v c ≠ 0

/-- What MSOLVE's stages give for bank `b`: the fault of the first stage that fails, or the bank's block (R139). -/
def solveResult (M : Mat) (n : Nat) (b : Bank) : Except FaultCode Mat :=
  if b = 1 then fwdElim M n
  else if b = 2 then fwdElim M n >>= (backSubst · n)
  else fwdElim M n >>= (backSubst · n) >>= normalize

theorem solveResult_one : solveResult M n 1 = fwdElim M n := rfl

theorem solveResult_two : solveResult M n 2 = fwdElim M n >>= (backSubst · n) := rfl

theorem solveResult_three : solveResult M n 3 = fwdElim M n >>= (backSubst · n) >>= normalize := rfl

theorem solveResult_of_fwdElim_error {k : FaultCode} (h : fwdElim M n = .error k) (b : Bank) :
    solveResult M n b = .error k := by
  simp [solveResult, h]

theorem solveResult_of_backSubst_error {k : FaultCode} (h₁ : fwdElim M n = .ok W) (h₂ : backSubst W n = .error k)
    {b : Bank} (hb : b = 2 ∨ b = 3) : solveResult M n b = .error k := by
  rcases hb with rfl | rfl
  · rw [solveResult_two, h₁, ok_bind, h₂]
  · rw [solveResult_three, h₁, ok_bind, h₂, error_bind]

theorem solveResult_two_of_ok (h₁ : fwdElim M n = .ok W) : solveResult M n 2 = backSubst W n := by
  rw [solveResult_two, h₁, ok_bind]

theorem solveResult_three_of_ok {W₂ : Mat} (h₁ : fwdElim M n = .ok W) (h₂ : backSubst W n = .ok W₂) :
    solveResult M n 3 = normalize W₂ := by
  rw [solveResult_three, h₁, ok_bind, h₂, ok_bind]

theorem eq_of_ne_zero {b : Bank} (hb : b ≠ 0) : b = 1 ∨ b = 2 ∨ b = 3 := by
  revert b
  decide

theorem solveResult_two_shape (hM : Shape M n) (hn : 1 ≤ n) (h : solveResult M n 2 = .ok W) : Shape W n := by
  obtain ⟨W₁, h₁, h₂⟩ := bind_eq_ok.mp h
  exact (backSubst_eq_ok (fwdElim_eq_ok hM h₁).1.shape hn h₂).shape

/-- Every stage keeps the shape. -/
theorem solveResult_shape (hM : Shape M n) (hn : 1 ≤ n) {b : Bank} (hb : b ≠ 0) (h : solveResult M n b = .ok W) :
    Shape W n := by
  rcases eq_of_ne_zero hb with rfl | rfl | rfl
  · exact (fwdElim_eq_ok hM h).1.shape
  · exact solveResult_two_shape hM hn h
  · obtain ⟨W₂, h₂, h₃⟩ := bind_eq_ok.mp h
    exact (normalize_eq_ok (solveResult_two_shape hM hn h₂) h₃).1

/-- The first stage that fails raises SingularMatrix when it is the first, DivisionByZero when a later one (R139). -/
theorem solveResult_three_eq_error {k : FaultCode} (hM : Shape M n) (hn : 1 ≤ n) (h : solveResult M n 3 = .error k) :
    k = .singularMatrix ∨ k = .divisionByZero := by
  rcases bind_eq_error.mp h with h | ⟨W₂, h₂, h₃⟩
  · rcases bind_eq_error.mp h with h₁ | ⟨W₁, h₁, h₂⟩
    · exact .inl (fwdElim_eq_error hM h₁)
    · exact .inr (backSubst_eq_error (fwdElim_eq_ok hM h₁).1.shape hn h₂)
  · exact .inr (normalize_eq_error (solveResult_two_shape hM hn h₂) h₃)

/-- When forward elimination leaves a nonzero diagonal the other two stages have no zero divisor, and the last column of
their result solves the system. -/
theorem solveResult_of_diag (hM : Shape M n) (hn : 1 ≤ n) (h₁ : fwdElim M n = .ok W)
    (hdiag : ∀ i, i < n → entry W i i ≠ 0) :
    ∃ W₃, solveResult M n 3 = .ok W₃ ∧ Solves M n fun i => entry W₃ i n := by
  obtain ⟨hred, hkills⟩ := fwdElim_eq_ok hM h₁
  obtain ⟨W₂, h₂⟩ := backSubst_of_diag hred.shape hn hdiag
  have hsub := backSubst_eq_ok hred.shape hn h₂
  obtain ⟨W₃, h₃⟩ := normalize_of_diag hsub.shape fun i hi => by
    rw [hsub.entry_diag hi]
    exact hdiag i hi
  obtain ⟨-, hentry⟩ := normalize_eq_ok hsub.shape h₃
  have htri : ∀ i j, i < j → j < n → entry W j i = 0 := fun i j hij hj => hred.below j i (by omega) hij hj
  refine ⟨W₃, (solveResult_three_of_ok h₁ h₂).trans h₃,
    kills_update_iff_solves.mp ((hkills _).mp (kills_update_iff_solves.mpr ?_))⟩
  refine (hsub.solves_iff htri hdiag).mpr fun i hi => ?_
  rw [rowTimes_eq_single hi fun c hc hci => gfMul_of_left_eq_zero ?_, gfMul_comm, hentry i n hi le_rfl]
  rw [hsub.left i c hi hc]
  split_ifs with hic
  · rfl
  · exact htri c i (by omega) hi

/-- A zero diagonal entry that is left stops one of the two later stages. -/
theorem solveResult_of_zero_diag (hM : Shape M n) (hn : 1 ≤ n) (h₁ : fwdElim M n = .ok W) (hi : i < n)
    (hzero : entry W i i = 0) : ∃ k, solveResult M n 3 = .error k := by
  have hW := (fwdElim_eq_ok hM h₁).1.shape
  cases h₂ : backSubst W n with
  | error k => exact ⟨k, solveResult_of_backSubst_error h₁ h₂ (.inr rfl)⟩
  | ok W₂ =>
    have hsub := backSubst_eq_ok hW hn h₂
    have h₃ := (normalize_eq_error_iff hsub.shape).mpr ⟨i, hi, (hsub.entry_diag hi).trans hzero⟩
    exact ⟨_, (solveResult_three_of_ok h₁ h₂).trans h₃⟩

/-- The stages succeed, and solve the system, when no nonzero vector is killed by the left columns; otherwise they
fail. -/
theorem solveResult_cases (hM : Shape M n) (hn : 1 ≤ n) :
    (Singular M n ∧ ∃ k, solveResult M n 3 = .error k) ∨
      ¬ Singular M n ∧ ∃ W, solveResult M n 3 = .ok W ∧ Solves M n fun i => entry W i n := by
  rcases fwdElim_cases hM with ⟨herr, hmeets⟩ | ⟨W, hW, hred, hkills⟩
  · obtain ⟨v, i, hi, hv, hvi, hlater⟩ := hmeets.exists_kills hM
    exact .inl ⟨⟨v, hv, hlater n (by omega), i, by omega, hvi⟩, _, solveResult_of_fwdElim_error herr 3⟩
  by_cases hlast : entry W (n - 1) (n - 1) = 0
  · obtain ⟨v, hv, hvi, hlater⟩ := hred.exists_kills (by omega) fun r hr hrn => by rwa [show r = n - 1 by omega]
    exact .inl ⟨⟨v, (hkills v).mp hv, hlater n (by omega), n - 1, by omega, hvi⟩,
      solveResult_of_zero_diag hM hn hW (by omega) hlast⟩
  · have hdiag : ∀ i, i < n → entry W i i ≠ 0 := fun i hi =>
      (show i < n - 1 ∨ i = n - 1 by omega).elim (hred.diag i) fun h => h ▸ hlast
    refine .inr ⟨?_, solveResult_of_diag hM hn hW hdiag⟩
    rintro ⟨v, hv, hvn, c, hc, hvc⟩
    have hfull : Reduced W n n := ⟨hred.shape, fun r c _ hcr hr => hred.below r c (by omega) hcr hr, hdiag⟩
    refine hvc (hfull.eq_zero_of_kills le_rfl ((hkills v).mpr hv) (fun c' hc' hn' => ?_) c hc)
    rwa [show c' = n by omega]

end

end Sys2Proof.Machine
end

section
/-!
PROOFS. The matrix commands (R132 to R141). MBUILD, the stages and MSOLVE all compute results, put each in its bank's
block (a fault leaves the block unspecified, R141), and answer; so what a command leaves is said once, by the results.
-/
namespace Sys2Proof.Machine

/-! ### The words of the matrix commands -/

theorem append_zeroBytes {n : Nat} (x : BitVec n) : x ++ 0#8 ++ 0#8 = x ++ 0#16 := by
  rw [BitVec.append_assoc]
  rfl

/-- A command of format L with the layout's zero bits written out (R65). -/
theorem decode_count {i : Instr} {n : Byte} (hwf : i.wf = true) (hi : encode i = mkWord i.opcode 0 0 n) :
    decode (i.opcode ++ 0#16 ++ n : Word) = .ok i :=
  (decode_eq_ok_iff hwf _).mpr (by rw [← append_zeroBytes, hi]; rfl)

/-! ### The count -/

section
variable {s : State} {op n : Byte}

/-- A count of zero raises InvalidArgument and changes nothing else (R163). -/
theorem zeroCount_raisesOnly (hf : s.f = false) (hn : n = 0#8) (op : Byte) (body : Result) :
    ∃ t, ifUnlocked s (ifCount op n s body) = .next t ∧ RaisesOnly .invalidArgument op s t := by
  rw [ifUnlocked_of_unlocked _ hf, hn, ifCount_zero]
  exact raise_raisesOnly op .invalidArgument s

theorem ifUnlocked_ifCount_pos (hf : s.f = false) (hn : n ≠ 0) (body : Result) :
    ifUnlocked s (ifCount op n s body) = body :=
  (ifUnlocked_of_unlocked _ hf).trans (ifCount_pos hn)

theorem one_le_toNat (hn : n ≠ 0) : 1 ≤ n.toNat := by
  have hne : n.toNat ≠ 0 := fun h => hn (BitVec.eq_of_toNat_eq h)
  omega

end

/-! ### Blocks -/

/-- The byte that a block made of the result `r` has at index `a`: none after a fault. -/
def blockByte (r : Except FaultCode Mat) (a : Nat) : Option Byte :=
  match r with
  | .ok W => some (entry W (a / 256) (a % 256))
  | .error _ => none

/-- The block `[0..n-1][0..n]` of bank `b` is what the result `r` makes of it. -/
def BlockIs (b : Bank) (n : Nat) (r : Except FaultCode Mat) (t : State) : Prop :=
  ∀ a, inBlock n a = true → t.cell? (.mat b) a = blockByte r a

/-- Put the result `r` in a block: its matrix, or after a fault nothing specified. -/
def State.putBlock (s : State) (b : Bank) (n : Nat) (r : Except FaultCode Mat) : State :=
  match r with
  | .ok W => s.writeBlock b n W
  | .error _ => s.forgetBlock b n

section
variable (s : State) (b : Bank) (n : Nat) (r : Except FaultCode Mat)

@[simp] theorem State.putBlock_f : (s.putBlock b n r).f = s.f := by cases r <;> simp [putBlock]
@[simp] theorem State.putBlock_fcode : (s.putBlock b n r).fcode = s.fcode := by cases r <;> simp [putBlock]
@[simp] theorem State.putBlock_fop : (s.putBlock b n r).fop = s.fop := by cases r <;> simp [putBlock]
@[simp] theorem State.putBlock_inputs : (s.putBlock b n r).inputs = s.inputs := by cases r <;> simp [putBlock]
@[simp] theorem State.putBlock_reg (i : Reg) : (s.putBlock b n r).reg i = s.reg i := by cases r <;> simp [putBlock]

/-- All that putting a result in a block does to the cells. -/
theorem State.putBlock_cell? (hn : n < 256) (sp : Space) (a : Nat) :
    (s.putBlock b n r).cell? sp a = if sp = .mat b ∧ inBlock n a = true then blockByte r a else s.cell? sp a := by
  cases r with
  | ok W => exact State.writeBlock_cell? s b n W hn sp a
  | error k => exact State.forgetBlock_cell? s b n sp a

end

theorem inBlock_iff {n a : Nat} : inBlock n a = true ↔ a / 256 < n ∧ a % 256 ≤ n := by simp [inBlock]

theorem blocksOf_iff {B : Bank → Prop} {n : Nat} {sp : Space} {a : Nat} :
    BlocksOf B n sp a ↔ ∃ b, B b ∧ sp = .mat b ∧ inBlock n a = true := by
  simp only [BlocksOf, inBlock_iff]

section
variable {s t : State} {b : Bank} {n : Nat} {W : Mat} {r : Except FaultCode Mat}

theorem BlockIs.holdsBlock (h : BlockIs b n (.ok W) t) (hn : n < 256) (hW : Shape W n) : HoldsBlock t b n W := by
  refine ⟨hW, fun i c hi hc => ?_⟩
  have hin : inBlock n (matIndex i c) = true := by
    rw [inBlock_matIndex (by omega)]
    simp [hi, hc]
  have hrow : matIndex i c / 256 = i := by rw [matIndex]; omega
  have hcol : matIndex i c % 256 = c := by rw [matIndex]; omega
  rw [h _ hin, blockByte, hrow, hcol]

theorem forgotten_iff {B : Bank → Prop} :
    Forgotten (BlocksOf B n) t ↔ ∀ b, B b → ∀ a, inBlock n a = true → t.cell? (.mat b) a = none := by
  constructor
  · exact fun h b hb a ha => h _ a (blocksOf_iff.mpr ⟨b, hb, rfl, ha⟩)
  · intro h sp a hP
    obtain ⟨b, hb, rfl, ha⟩ := blocksOf_iff.mp hP
    exact h b hb a ha

/-- The blocks whose results are faults are unspecified. -/
theorem forgotten_of_blockIs {B : Bank → Prop} (h : ∀ b, B b → ∃ k, BlockIs b n (.error k) t) :
    Forgotten (BlocksOf B n) t :=
  forgotten_iff.mpr fun b hb a ha => (h b hb).elim fun _ hk => hk a ha

/-! ### What a stage reads -/

theorem State.matView_shape (s : State) (b : Bank) (n : Nat) : Shape (s.matView b n) n := by
  simp [Shape, State.matView]

theorem State.matView_readsBlock (s : State) (b : Bank) (n : Nat) : ReadsBlock s b n (s.matView b n) :=
  ⟨s.matView_shape b n, fun i c hi hc v hv => by rw [State.entry_matView s b hi hc, State.view_of_cell? hv]⟩

/-- A specified block is read as the matrix it holds. -/
theorem HoldsBlock.matView_eq (h : HoldsBlock s b n W) : s.matView b n = W := by
  obtain ⟨hW, hcells⟩ := h
  exact (s.matView_shape b n).ext hW fun i c hi hc => by
    rw [State.entry_matView s b hi hc, State.view_of_cell? (hcells i c hi hc)]

end

/-! ### How a command ends -/

/-- The command completed, or raised the fault that its result `r` is; either way it changed cells in `P` only. -/
def Ends (P : Space → Nat → Prop) (op : Byte) (r : Except FaultCode Mat) (s t : State) : Prop :=
  match r with
  | .ok _ => WritesCells P s t
  | .error k => Raises k op s t ∧ CellsSameBut P s t

/-- Answer for the result `r`. -/
def finish (op : Byte) (r : Except FaultCode Mat) (u : State) : Result :=
  match r with
  | .ok _ => respond 0 u
  | .error k => raise op k u

theorem runStage_eq (op : Byte) (src dst : Bank) (stage : Mat → Except FaultCode Mat) (n : Nat) (s : State) :
    runStage op src dst stage n s
      = finish op (stage (s.matView src n)) (s.drew.putBlock dst n (stage (s.matView src n))) := by
  unfold runStage
  cases stage (s.matView src n) <;> rfl

theorem solveStages_eq (op : Byte) (n : Nat) (s : State) :
    solveStages op n s = finish op (solveResult (s.matView 0 n) n 3)
      (((s.drew.putBlock 1 n (solveResult (s.matView 0 n) n 1)).putBlock 2 n (solveResult (s.matView 0 n) n 2)).putBlock
        3 n (solveResult (s.matView 0 n) n 3)) := by
  unfold solveStages
  rw [solveResult_one, solveResult_two, solveResult_three]
  cases fwdElim (s.matView 0 n) n with
  | error k => rfl
  | ok W₁ =>
    rw [ok_bind]
    cases h₂ : backSubst W₁ n with
    | error k => simp only [h₂]; rfl
    | ok W₂ =>
      simp only [h₂, ok_bind]
      cases normalize W₂ <;> rfl

section
variable {P : Space → Nat → Prop} {op : Byte} {r : Except FaultCode Mat} {s t u : State}

/-- From a state that differs from `s` in cells of `P` only, the answer ends the command. -/
theorem exists_finish (op : Byte) (r : Except FaultCode Mat) (hf : FaultRegsSame s u) (hr : RegsSame s u)
    (hin : u.inputs = s.inputs) (hc : CellsSameBut P s u) :
    ∃ t, finish op r u = .next t ∧ CellsSame u t ∧ Ends P op r s t := by
  cases r with
  | ok W =>
    exact ⟨_, respond_eq 0 u, fun _ _ => State.answer_cell? .., fun sp a h => (State.answer_cell? ..).trans (hc sp a h),
      hr, hf, rfl, hin⟩
  | error k =>
    exact ⟨_, raise_eq op k u, fun _ _ => by simp,
      ⟨rfl, rfl, rfl, rfl, hr, hin⟩, fun sp a h => by simpa using hc sp a h⟩

theorem Ends.regsSame (h : Ends P op r s t) : RegsSame s t := by
  cases r with
  | ok W =>
    obtain ⟨-, hr, -⟩ := h
    exact hr
  | error k =>
    obtain ⟨⟨-, -, -, -, hr, -⟩, -⟩ := h
    exact hr

theorem Ends.cellsSameBut (h : Ends P op r s t) : CellsSameBut P s t := by
  cases r with
  | ok W => exact h.1
  | error k => exact h.2

/-- A completed command leaves an unlocked core unlocked. -/
theorem WritesCells.f_eq (h : WritesCells P s t) : t.f = s.f := by
  obtain ⟨-, -, ⟨hf, -, -⟩, -⟩ := h
  exact hf

theorem Ends.eq_error (h : Ends P op r s t) (hs : s.f = false) (ht : t.f = true) : ∃ k, r = .error k := by
  cases r with
  | ok W => cases ht.symm.trans ((WritesCells.f_eq h).trans hs)
  | error k => exact ⟨k, rfl⟩

/-- Two commands with one result show the same fault. -/
theorem Ends.agree {P₁ P₂ : Space → Nat → Prop} {op₁ op₂ : Byte} {s₁ s₂ t₁ t₂ : State} (h₁ : Ends P₁ op₁ r s₁ t₁)
    (h₂ : Ends P₂ op₂ r s₂ t₂) (hs₁ : s₁.f = false) (hs₂ : s₂.f = false) :
    t₁.f = t₂.f ∧ (t₁.f = true → t₁.fcode = t₂.fcode) := by
  cases r with
  | ok W =>
    have hf₁ := (WritesCells.f_eq h₁).trans hs₁
    exact ⟨hf₁.trans ((WritesCells.f_eq h₂).trans hs₂).symm, fun ht => by cases ht.symm.trans hf₁⟩
  | error k =>
    obtain ⟨⟨hf₁, hk₁, -⟩, -⟩ := h₁
    obtain ⟨⟨hf₂, hk₂, -⟩, -⟩ := h₂
    exact ⟨hf₁.trans hf₂.symm, fun _ => hk₁.trans hk₂.symm⟩

end

/-! ### The commands that fill one block -/

/-- A command with the result `r` filled the block of bank `dst` with it and ended. -/
def Fills (op : Byte) (dst : Bank) (n : Nat) (r : Except FaultCode Mat) (s t : State) : Prop :=
  BlockIs dst n r t ∧ Ends (BlocksOf (· = dst) n) op r s t

section
variable {s t : State} {op : Byte} {dst : Bank} {r : Except FaultCode Mat}

theorem exists_fills (op : Byte) (dst : Bank) (r : Except FaultCode Mat) (s : State) {n : Nat} (hn : n < 256) :
    ∃ t, finish op r (s.drew.putBlock dst n r) = .next t ∧ Fills op dst n r s t := by
  have hcells : CellsSameBut (BlocksOf (· = dst) n) s (s.drew.putBlock dst n r) := fun sp a hP => by
    rw [State.putBlock_cell? _ _ _ _ hn, if_neg, State.drew_cell?]
    exact fun h => hP (blocksOf_iff.mpr ⟨dst, rfl, h⟩)
  obtain ⟨t, ht, hsame, hends⟩ :=
    exists_finish (s := s) op r ⟨by simp, by simp, by simp⟩ (fun _ => by simp) (by simp) hcells
  refine ⟨t, ht, fun a ha => ?_, hends⟩
  rw [hsame, State.putBlock_cell? _ _ _ _ hn, if_pos ⟨rfl, ha⟩]

/-- MBUILD on an unlocked core fills bank 0 with the system of the points it reads (R132). -/
theorem exec_mbuild_fills (hf : s.f = false) {n : Byte} (hn : n ≠ 0) :
    ∃ t, exec (.mbuild n) s = .next t ∧
      Fills 0x40 0 n.toNat (.ok (buildRows (s.view .px) (s.view .py) n.toNat)) s t := by
  rw [show exec (.mbuild n) s = _ from ifUnlocked_ifCount_pos hf hn _]
  exact exists_fills 0x40 0 (.ok (buildRows (s.view .px) (s.view .py) n.toNat)) s n.isLt

/-- MFWD fills bank 1 with `fwd_elim` of bank 0's block (R134). -/
theorem exec_mfwd_fills (hf : s.f = false) {n : Byte} (hn : n ≠ 0) :
    ∃ t, exec (.mfwd n) s = .next t ∧ Fills 0x41 1 n.toNat (fwdElim (s.matView 0 n.toNat) n.toNat) s t := by
  rw [show exec (.mfwd n) s = _ from ifUnlocked_ifCount_pos hf hn _, runStage_eq]
  exact exists_fills 0x41 1 _ s n.isLt

/-- MBACK fills bank 2 with `back_subst` of bank 1's block (R136). -/
theorem exec_mback_fills (hf : s.f = false) {n : Byte} (hn : n ≠ 0) :
    ∃ t, exec (.mback n) s = .next t ∧ Fills 0x42 2 n.toNat (backSubst (s.matView 1 n.toNat) n.toNat) s t := by
  rw [show exec (.mback n) s = _ from ifUnlocked_ifCount_pos hf hn _, runStage_eq]
  exact exists_fills 0x42 2 _ s n.isLt

/-- MNORM fills bank 3 with `normalize` of bank 2's block (R138). -/
theorem exec_mnorm_fills (hf : s.f = false) {n : Byte} (hn : n ≠ 0) :
    ∃ t, exec (.mnorm n) s = .next t ∧ Fills 0x43 3 n.toNat (normalize (s.matView 2 n.toNat)) s t := by
  rw [show exec (.mnorm n) s = _ from ifUnlocked_ifCount_pos hf hn _, runStage_eq]
  exact exists_fills 0x43 3 _ s n.isLt

/-- A command that filled its block with a matrix. -/
theorem Fills.of_ok {n : Byte} {W : Mat} (h : Fills op dst n.toNat r s t) (hr : r = .ok W) (hW : Shape W n.toNat) :
    HoldsBlock t dst n.toNat W ∧ WritesCells (BlocksOf (· = dst) n.toNat) s t := by
  subst hr
  exact ⟨h.1.holdsBlock n.isLt hW, h.2⟩

/-- A command that raised its fault. -/
theorem Fills.of_error {n : Nat} {k : FaultCode} (h : Fills op dst n r s t) (hr : r = .error k) :
    RaisesForgetting (BlocksOf (· = dst) n) k op s t := by
  subst hr
  obtain ⟨hblock, hraises, hcells⟩ := h
  exact ⟨hraises, hcells, forgotten_of_blockIs fun b hb => ⟨k, hb ▸ hblock⟩⟩

end

/-! ### MSOLVE -/

/-- MSOLVE filled banks 1, 2 and 3 with the results of the stages and ended with the last. -/
def SolveFills (n : Nat) (M : Mat) (s t : State) : Prop :=
  (∀ b, b ≠ 0 → BlockIs b n (solveResult M n b) t) ∧ Ends (BlocksOf (· ≠ 0) n) 0x44 (solveResult M n 3) s t

section
variable {s t : State} {n : Byte} {M W : Mat}

theorem exec_msolve_fills (hf : s.f = false) (hn : n ≠ 0) :
    ∃ t, exec (.msolve n) s = .next t ∧ SolveFills n.toNat (s.matView 0 n.toNat) s t := by
  rw [show exec (.msolve n) s = _ from ifUnlocked_ifCount_pos hf hn _, solveStages_eq]
  have hcells : CellsSameBut (BlocksOf (· ≠ 0) n.toNat) s
      (((s.drew.putBlock 1 n.toNat (solveResult (s.matView 0 n.toNat) n.toNat 1)).putBlock 2 n.toNat
        (solveResult (s.matView 0 n.toNat) n.toNat 2)).putBlock 3 n.toNat
        (solveResult (s.matView 0 n.toNat) n.toNat 3)) := fun sp a hP => by
    have hout : ∀ b : Bank, b ≠ 0 → ¬ (sp = .mat b ∧ inBlock n.toNat a = true) := fun b hb h =>
      hP (blocksOf_iff.mpr ⟨b, hb, h⟩)
    rw [State.putBlock_cell? _ _ _ _ n.isLt, if_neg (hout 3 (by decide)), State.putBlock_cell? _ _ _ _ n.isLt,
      if_neg (hout 2 (by decide)), State.putBlock_cell? _ _ _ _ n.isLt, if_neg (hout 1 (by decide)), State.drew_cell?]
  obtain ⟨t, ht, hsame, hends⟩ := exists_finish (s := s) 0x44 (solveResult (s.matView 0 n.toNat) n.toNat 3)
    ⟨by simp, by simp, by simp⟩ (fun _ => by simp) (by simp) hcells
  refine ⟨t, ht, fun b hb a ha => ?_, hends⟩
  rw [hsame, State.putBlock_cell? _ _ _ _ n.isLt, State.putBlock_cell? _ _ _ _ n.isLt,
    State.putBlock_cell? _ _ _ _ n.isLt]
  rcases eq_of_ne_zero hb with rfl | rfl | rfl <;> simp [ha]

/-- The bank of a stage that completed holds its result. -/
theorem SolveFills.holdsBlock (h : SolveFills n.toNat M s t) (hM : Shape M n.toNat) (hn : n ≠ 0) {b : Bank} (hb : b ≠ 0)
    (hW : solveResult M n.toNat b = .ok W) : HoldsBlock t b n.toNat W := by
  have hblock := h.1 b hb
  rw [hW] at hblock
  exact hblock.holdsBlock n.isLt (solveResult_shape hM (one_le_toNat hn) hb hW)

/-- The banks of the stages that faulted or were not reached are unspecified. -/
theorem SolveFills.forgotten {n : Nat} (h : SolveFills n M s t) {B : Bank → Prop}
    (hB : ∀ b, B b → b ≠ 0 ∧ ∃ k, solveResult M n b = .error k) : Forgotten (BlocksOf B n) t :=
  forgotten_of_blockIs fun b hb => by
    obtain ⟨hb0, k, hk⟩ := hB b hb
    exact ⟨k, hk ▸ h.1 b hb0⟩

/-- How MSOLVE ends when its last result is the fault `k`. -/
theorem SolveFills.of_error {n : Nat} {k : FaultCode} (h : SolveFills n M s t) (hk : solveResult M n 3 = .error k) :
    Raises k 0x44 s t ∧ CellsSameBut (BlocksOf (· ≠ 0) n) s t := by
  obtain ⟨-, hends⟩ := h
  rwa [hk] at hends

/-- How MSOLVE ends when the three stages succeed. -/
theorem SolveFills.of_ok {n : Nat} (h : SolveFills n M s t) (hW : solveResult M n 3 = .ok W) :
    WritesCells (BlocksOf (· ≠ 0) n) s t := by
  obtain ⟨-, hends⟩ := h
  rwa [hW] at hends

end

end Sys2Proof.Machine
end

section
/-!
PROOFS. The statements about single matrix commands (R132 to R142): each reads off what its command fills and how it
ends.
-/
namespace Sys2Proof.Machine

/-! ### The system that MBUILD builds -/

section
variable {px py : Nat → Byte} {n i c : Nat}

theorem getD_buildRows (hi : i < n) :
    (buildRows px py n).getD i [] = ((List.range n).map fun c => gfPow (px i) (n - 1 - c)) ++ [py i] := by
  simp [buildRows, hi]

theorem buildRows_shape (px py : Nat → Byte) (n : Nat) : Shape (buildRows px py n) n :=
  .of_getD (by simp [buildRows]) fun i hi => by
    rw [getD_buildRows hi]
    simp

theorem entry_buildRows_of_lt (hi : i < n) (hc : c < n) : entry (buildRows px py n) i c = gfPow (px i) (n - 1 - c) := by
  rw [entry, getD_buildRows hi, List.getD_append _ _ _ _ (by simpa using hc)]
  simp [hc]

theorem entry_buildRows_last (hi : i < n) : entry (buildRows px py n) i n = py i := by
  rw [entry, getD_buildRows hi]
  simp

end

/-- Settles O40: the cells of a row are the entries of the system's row. -/
theorem mbuildBuildsTheSystem : Obligations.MbuildBuildsTheSystem := by
  refine ⟨fun n => decode_count (i := .mbuild n) rfl rfl, fun s n hf => ⟨fun hn => zeroCount_raisesOnly hf hn 0x40 _,
    fun hn => ?_⟩⟩
  · obtain ⟨t, ht, hfills⟩ := exec_mbuild_fills hf hn
    obtain ⟨⟨-, hcells⟩, hwrites⟩ := hfills.of_ok rfl (buildRows_shape _ _ _)
    refine ⟨s.view .px, s.view .py, t, s.view_reads .px _, s.view_reads .py _, ht, hwrites,
      fun i hi => ⟨fun c hc => ?_, ?_⟩⟩
    · rw [hcells i c hi hc.le, entry_buildRows_of_lt hi hc]
    · rw [hcells i n.toNat hi le_rfl, entry_buildRows_last hi]

/-! ### MEXT -/

section
variable {s : State} {n : Byte}

theorem solutionCells_fst (n : Nat) (s : State) : (solutionCells n s).map Prod.fst = List.range n := by
  simp [solutionCells, Function.comp_def]

/-- MEXT copies column n of bank 3 to COEF, bottom row first, and changes nothing else (R140). -/
theorem exec_mext_copies (hf : s.f = false) (hn : n ≠ 0) :
    ∃ t, exec (.mext n) s = .next t ∧
      (∀ k, k < n.toNat → t.cell? .coef k = some (s.view (.mat 3) (matIndex (n.toNat - 1 - k) n.toNat))) ∧
      WritesCells (fun sp a => sp = .coef ∧ a < n.toNat) s t := by
  rw [show exec (.mext n) s = _ from ifUnlocked_ifCount_pos hf hn _]
  have hcells : CellsSameBut (fun sp a => sp = .coef ∧ a < n.toNat) s
      (s.drew.setMem .coef (Memory.writeAll s.coef (solutionCells n.toNat s))) := fun sp a hP => by
    by_cases hsp : sp = .coef
    · subst hsp
      have ha : ¬ a < n.toNat := fun ha => hP ⟨rfl, ha⟩
      rw [State.setMem_cell?_same, Memory.read?_writeAll_other _ _ (by rw [solutionCells_fst]; simpa using ha)]
      rfl
    · rw [State.setMem_cell?_other _ _ _ hsp, State.drew_cell?]
  obtain ⟨t, ht, hsame, hends⟩ := exists_finish (s := s) 0x45 (.ok []) ⟨by simp, by simp, by simp⟩ (fun _ => by simp)
    (by simp) hcells
  refine ⟨t, ht, fun k hk => ?_, hends⟩
  rw [hsame, State.setMem_cell?_same]
  refine Memory.read?_writeAll_mem _ _ (by rw [solutionCells_fst]; exact List.nodup_range) ?_
  exact List.mem_map.mpr ⟨k, List.mem_range.mpr hk, rfl⟩

end

/-- Settles O45: the solution is bank 3's last column as MEXT reads it. -/
theorem mextCopiesTheSolution : Obligations.MextCopiesTheSolution := by
  refine ⟨fun n => decode_count (i := .mext n) rfl rfl, fun s n hf => ⟨fun hn => zeroCount_raisesOnly hf hn 0x45 _,
    fun hn => ?_⟩⟩
  · obtain ⟨t, ht, hcells, hwrites⟩ := exec_mext_copies hf hn
    exact ⟨fun i => s.view (.mat 3) (matIndex i n.toNat), t, fun i _ x => State.view_of_cell?, ht, hcells, hwrites⟩

/-! ### The stages -/

section
variable {s : State} {i : Instr} {n op : Byte} {dst : Bank} {r : Except FaultCode Mat}

/-- The two ways a command that fills one block ends, when its result has the block's shape and one fault code. -/
theorem outcomes_of_fills {k₀ : FaultCode} (e : ∃ t, exec i s = .next t ∧ Fills op dst n.toNat r s t)
    (hok : ∀ W, r = .ok W → Shape W n.toNat) (herr : ∀ k, r = .error k → k = k₀) :
    (∀ W, r = .ok W → ∃ t, exec i s = .next t ∧ HoldsBlock t dst n.toNat W ∧
        WritesCells (BlocksOf (· = dst) n.toNat) s t) ∧
      ∀ k, r = .error k → k = k₀ ∧ ∃ t, exec i s = .next t ∧
        RaisesForgetting (BlocksOf (· = dst) n.toNat) k₀ op s t := by
  obtain ⟨t, ht, hfills⟩ := e
  refine ⟨fun W hW => ⟨t, ht, hfills.of_ok hW (hok W hW)⟩, fun k hk => ?_⟩
  obtain rfl := herr k hk
  exact ⟨rfl, t, ht, hfills.of_error hk⟩

/-- A command whose result is a matrix completes. -/
theorem completes_of_ends {P : Space → Nat → Prop} {Q : State → Prop} {W : Mat} (hf : s.f = false)
    (e : ∃ t, exec i s = .next t ∧ Q t ∧ Ends P op r s t) (hr : r = .ok W) :
    ∃ t, exec i s = .next t ∧ t.f = false ∧ WritesCells P s t := by
  obtain ⟨t, ht, -, hends⟩ := e
  subst hr
  exact ⟨t, ht, (WritesCells.f_eq hends).trans hf, hends⟩

end

/-- Settles O41: MFWD fills bank 1 with `fwd_elim` of the block it reads. -/
theorem mfwdRunsForwardElimination : Obligations.MfwdRunsForwardElimination := by
  refine ⟨fun n => decode_count (i := .mfwd n) rfl rfl, fun s n hf => ⟨fun hn => zeroCount_raisesOnly hf hn 0x41 _,
    fun hn => ⟨_, s.matView_readsBlock 0 n.toNat, ?_⟩⟩⟩
  have hM := s.matView_shape 0 n.toNat
  exact outcomes_of_fills (exec_mfwd_fills hf hn) (fun W hW => (fwdElim_eq_ok hM hW).1.shape) fun k =>
    fwdElim_eq_error hM

/-- Settles O42: MBACK fills bank 2 with `back_subst` of the block it reads. -/
theorem mbackRunsBackwardSubstitution : Obligations.MbackRunsBackwardSubstitution := by
  refine ⟨fun n => decode_count (i := .mback n) rfl rfl, fun s n hf => ⟨fun hn => zeroCount_raisesOnly hf hn 0x42 _,
    fun hn => ⟨_, s.matView_readsBlock 1 n.toNat, ?_⟩⟩⟩
  have hM := s.matView_shape 1 n.toNat
  have hn1 := one_le_toNat hn
  exact outcomes_of_fills (exec_mback_fills hf hn) (fun W hW => (backSubst_eq_ok hM hn1 hW).shape) fun k =>
    backSubst_eq_error hM hn1

/-- Settles O43: MNORM fills bank 3 with `normalize` of the block it reads, which fails exactly on a zero diagonal
entry. -/
theorem mnormRunsNormalization : Obligations.MnormRunsNormalization := by
  refine ⟨fun n => decode_count (i := .mnorm n) rfl rfl, fun s n hf => ⟨fun hn => zeroCount_raisesOnly hf hn 0x43 _,
    fun hn => ⟨_, s.matView_readsBlock 2 n.toNat, fun hdiag => ?_, fun hzero => ?_⟩⟩⟩
  all_goals
    have hM := s.matView_shape 2 n.toNat
    obtain ⟨t, ht, hfills⟩ := exec_mnorm_fills hf hn
  · obtain ⟨W, hW⟩ := normalize_of_diag hM hdiag
    exact ⟨W, t, hW, ht, hfills.of_ok hW (normalize_eq_ok hM hW).1⟩
  · exact ⟨t, ht, hfills.of_error ((normalize_eq_error_iff hM).mpr hzero)⟩

/-- Settles O49: the condition on the block is `fwd_elim`'s, and MFWD reads the block that bank 0 holds. -/
theorem forwardEliminationFailsExactlyOnAZeroColumn : Obligations.ForwardEliminationFailsExactlyOnAZeroColumn := by
  refine ⟨fun M n hM hn => ⟨fwdElim_eq_error_iff hM, meetsAZeroColumn_iff_dependentColumns hM hn⟩,
    fun s n M hf hn hholds => ?_⟩
  obtain ⟨t, ht, hfills⟩ := exec_mfwd_fills hf hn
  rw [hholds.matView_eq] at hfills
  obtain ⟨hM, -⟩ := hholds
  refine ⟨fun hmeets => ⟨t, ht, hfills.of_error ((fwdElim_eq_error_iff hM).mpr hmeets)⟩, fun hnot => ?_⟩
  rcases fwdElim_cases hM with ⟨-, hmeets⟩ | ⟨W, hW, hred, -⟩
  · exact absurd hmeets hnot
  · exact ⟨W, t, hW, ht, hfills.of_ok hW hred.shape⟩

/-! ### MSOLVE -/

/-- Settles O44: the four outcomes are the four ways the results of the stages can come out. -/
theorem msolveRunsTheThreeStages : Obligations.MsolveRunsTheThreeStages := by
  refine ⟨fun n => decode_count (i := .msolve n) rfl rfl, fun s n hf => ⟨fun hn => zeroCount_raisesOnly hf hn 0x44 _,
    fun hn => ?_⟩⟩
  have hM := s.matView_shape 0 n.toNat
  have hn1 := one_le_toNat hn
  obtain ⟨t, ht, hfills⟩ := exec_msolve_fills hf hn
  refine ⟨_, s.matView_readsBlock 0 n.toNat, fun W₁ W₂ W₃ h₁ h₂ h₃ => ?solved, fun k h₁ => ?singular,
    fun W₁ k h₁ h₂ => ?noSubstitution, fun W₁ W₂ k h₁ h₂ h₃ => ?noNormalization⟩
  case solved =>
    have h3 := (solveResult_three_of_ok h₁ h₂).trans h₃
    exact ⟨t, ht, hfills.holdsBlock hM hn (by decide) h₁,
      hfills.holdsBlock hM hn (by decide) ((solveResult_two_of_ok h₁).trans h₂),
      hfills.holdsBlock hM hn (by decide) h3, hfills.of_ok h3⟩
  case singular =>
    obtain rfl := fwdElim_eq_error hM h₁
    have hfault := solveResult_of_fwdElim_error h₁
    obtain ⟨hraises, hcells⟩ := hfills.of_error (hfault 3)
    exact ⟨rfl, t, ht, hraises, hcells, hfills.forgotten fun b hb => ⟨hb, _, hfault b⟩⟩
  case noSubstitution =>
    have hW₁ := (fwdElim_eq_ok hM h₁).1.shape
    obtain rfl := backSubst_eq_error hW₁ hn1 h₂
    obtain ⟨hraises, hcells⟩ := hfills.of_error (solveResult_of_backSubst_error h₁ h₂ (.inr rfl))
    refine ⟨rfl, t, ht, hraises, hfills.holdsBlock hM hn (by decide) h₁, hcells,
      hfills.forgotten fun b hb => ⟨?_, _, solveResult_of_backSubst_error h₁ h₂ hb⟩⟩
    rcases hb with rfl | rfl <;> decide
  case noNormalization =>
    have hW₂ := (backSubst_eq_ok (fwdElim_eq_ok hM h₁).1.shape hn1 h₂).shape
    obtain rfl := normalize_eq_error hW₂ h₃
    have h3 := (solveResult_three_of_ok h₁ h₂).trans h₃
    obtain ⟨hraises, hcells⟩ := hfills.of_error h3
    refine ⟨rfl, t, ht, hraises, hfills.holdsBlock hM hn (by decide) h₁,
      hfills.holdsBlock hM hn (by decide) ((solveResult_two_of_ok h₁).trans h₂), hcells, hfills.forgotten ?_⟩
    rintro b rfl
    exact ⟨by decide, _, h3⟩

/-- Settles O46: each hypothesis is the success of the stages that the command runs. -/
theorem stagesCompleteOnSoundInput : Obligations.StagesCompleteOnSoundInput := by
  intro s n M hf hn
  have hn1 := one_le_toNat hn
  refine ⟨fun hholds hW => ?mfwd, fun hholds hdiag => ?mback, fun hholds hdiag => ?mnorm, fun hholds hW => ?msolve⟩
  case mfwd =>
    obtain ⟨W, hW⟩ := hW
    exact completes_of_ends hf (exec_mfwd_fills hf hn) (hholds.matView_eq ▸ hW)
  case mback =>
    obtain ⟨W, hW⟩ := backSubst_of_diag hholds.1 hn1 hdiag
    exact completes_of_ends hf (exec_mback_fills hf hn) (hholds.matView_eq ▸ hW)
  case mnorm =>
    obtain ⟨W, hW⟩ := normalize_of_diag hholds.1 hdiag
    exact completes_of_ends hf (exec_mnorm_fills hf hn) (hholds.matView_eq ▸ hW)
  case msolve =>
    obtain ⟨W, hW, hdiag⟩ := hW
    obtain ⟨W₃, hW₃, -⟩ := solveResult_of_diag hholds.1 hn1 hW hdiag
    exact completes_of_ends hf (exec_msolve_fills hf hn) (hholds.matView_eq ▸ hW₃)

/-! ### The command as its three stages -/

section
variable {s s₁ t u : State} {P P₁ P₂ : Space → Nat → Prop}

theorem WritesCells.trans (h₁ : WritesCells P₁ s t) (h₂ : WritesCells P₂ t u) (hP₁ : ∀ sp a, P₁ sp a → P sp a)
    (hP₂ : ∀ sp a, P₂ sp a → P sp a) : WritesCells P s u := by
  obtain ⟨hc₁, hr₁, ⟨hf₁, hk₁, hop₁⟩, -, hin₁⟩ := h₁
  obtain ⟨hc₂, hr₂, ⟨hf₂, hk₂, hop₂⟩, hrsp, hin₂⟩ := h₂
  exact ⟨fun sp a hP => (hc₂ sp a (mt (hP₂ sp a) hP)).trans (hc₁ sp a (mt (hP₁ sp a) hP)),
    fun r => (hr₂ r).trans (hr₁ r), ⟨hf₂.trans hf₁, hk₂.trans hk₁, hop₂.trans hop₁⟩, hrsp, hin₂.trans hin₁⟩

/-- The core is locked by fault `k` and answers its code; the registers are as in `s`. -/
def ShowsFault (k : FaultCode) (s t : State) : Prop :=
  t.f = true ∧ t.fcode = k.code ∧ t.rsp = some (response true k.code 0) ∧ RegsSame s t

theorem Raises.showsFault {k : FaultCode} {op : Byte} (h : Raises k op s t) : ShowsFault k s t := by
  obtain ⟨hf, hk, -, hrsp, hr, -⟩ := h
  exact ⟨hf, hk, hrsp, hr⟩

theorem ShowsFault.of_regsSame {k : FaultCode} (h : ShowsFault k t u) (hr : RegsSame s t) : ShowsFault k s u := by
  obtain ⟨hf, hk, hrsp, hr'⟩ := h
  exact ⟨hf, hk, hrsp, fun r => (hr' r).trans (hr r)⟩

/-- After a fault the commands that follow are refused and show the fault again (R168). -/
theorem ShowsFault.execAll {k : FaultCode} {is : List Instr} (h : ShowsFault k s t) (his : ∀ i ∈ is, ¬ i.runsLocked)
    (hu : execAll is t = .next u) : ShowsFault k s u := by
  induction is generalizing t with
  | nil =>
    cases hu
    exact h
  | cons i is ih =>
    obtain ⟨hi, his⟩ := List.forall_mem_cons.mp his
    obtain ⟨hf, hk, -, hr⟩ := h
    rw [execAll_cons_of_next is (exec_locked hf hi)] at hu
    exact ih (t := t.answer (response true t.fcode 0)) ⟨hf, hk, by rw [State.answer_rsp, hk], hr⟩ his hu

theorem BlockIs.of_cellsSameBut {b : Bank} {n : Nat} {r : Except FaultCode Mat} {B : Bank → Prop} (h : BlockIs b n r s)
    (hc : CellsSameBut (BlocksOf B n) s t) (hb : ¬ B b) : BlockIs b n r t := by
  refine fun a ha => (hc _ a fun hP => ?_).trans (h a ha)
  obtain ⟨b', hb', hsp, -⟩ := hP
  obtain rfl := Space.mat.inj hsp
  exact hb hb'

end

section
variable {s t : State} {n : Byte}

/-- MFWD, MBACK, MNORM one after another fill the banks as MSOLVE does when no stage faults; a fault of a stage locks
the core, and the later commands are refused. -/
theorem threeStages_cases (hf : s.f = false) (hn : n ≠ 0) (h : execAll [.mfwd n, .mback n, .mnorm n] s = .next t) :
    (∃ k, solveResult (s.matView 0 n.toNat) n.toNat 3 = .error k ∧ ShowsFault k s t) ∨
      ∃ W, solveResult (s.matView 0 n.toNat) n.toNat 3 = .ok W ∧ WritesCells (BlocksOf (· ≠ 0) n.toNat) s t ∧
        ∀ b, b ≠ 0 → BlockIs b n.toNat (solveResult (s.matView 0 n.toNat) n.toNat b) t := by
  have hn1 := one_le_toNat hn
  have hM := s.matView_shape 0 n.toNat
  obtain ⟨s₁, hs₁, hfills₁⟩ := exec_mfwd_fills hf hn
  rw [execAll_cons_of_next _ hs₁] at h
  cases h₁ : fwdElim (s.matView 0 n.toNat) n.toNat with
  | error k =>
    exact .inl ⟨k, solveResult_of_fwdElim_error h₁ 3,
      (hfills₁.of_error h₁).1.showsFault.execAll (by simp [Instr.runsLocked]) h⟩
  | ok W₁ =>
    have hW₁ := (fwdElim_eq_ok hM h₁).1.shape
    obtain ⟨hholds₁, hw₁⟩ := hfills₁.of_ok h₁ hW₁
    have hf₁ := hw₁.f_eq.trans hf
    obtain ⟨s₂, hs₂, hfills₂⟩ := exec_mback_fills hf₁ hn
    rw [execAll_cons_of_next _ hs₂] at h
    rw [hholds₁.matView_eq] at hfills₂
    cases h₂ : backSubst W₁ n.toNat with
    | error k =>
      have hshows := (hfills₂.of_error h₂).1.showsFault.of_regsSame hfills₁.2.regsSame
      exact .inl ⟨k, solveResult_of_backSubst_error h₁ h₂ (.inr rfl), hshows.execAll (by simp [Instr.runsLocked]) h⟩
    | ok W₂ =>
      have hW₂ := (backSubst_eq_ok hW₁ hn1 h₂).shape
      obtain ⟨hholds₂, hw₂⟩ := hfills₂.of_ok h₂ hW₂
      obtain ⟨s₃, hs₃, hfills₃⟩ := exec_mnorm_fills (hw₂.f_eq.trans hf₁) hn
      rw [execAll_cons_of_next _ hs₃] at h
      obtain rfl := Host.Outcome.next.inj h
      rw [hholds₂.matView_eq] at hfills₃
      have hregs : RegsSame s s₂ := fun r => (hfills₂.2.regsSame r).trans (hfills₁.2.regsSame r)
      cases h₃ : normalize W₂ with
      | error k =>
        exact .inl ⟨k, (solveResult_three_of_ok h₁ h₂).trans h₃, (hfills₃.of_error h₃).1.showsFault.of_regsSame hregs⟩
      | ok W₃ =>
        obtain ⟨-, hw₃⟩ := hfills₃.of_ok h₃ (normalize_eq_ok hW₂ h₃).1
        have hsub : ∀ {b : Bank}, b ≠ 0 → ∀ sp a, BlocksOf (· = b) n.toNat sp a → BlocksOf (· ≠ 0) n.toNat sp a :=
          fun hb sp a ⟨b', hb', h⟩ => ⟨b', hb' ▸ hb, h⟩
        refine .inr ⟨W₃, (solveResult_three_of_ok h₁ h₂).trans h₃,
          (hw₁.trans (hw₂.trans hw₃ (hsub (by decide)) (hsub (by decide))) (hsub (by decide)) fun _ _ h => h), ?_⟩
        intro b hb
        rcases eq_of_ne_zero hb with rfl | rfl | rfl
        · exact (hfills₁.1.of_cellsSameBut hfills₂.2.cellsSameBut (by decide)).of_cellsSameBut hfills₃.2.cellsSameBut
            (by decide)
        · rw [solveResult_two_of_ok h₁]
          exact hfills₂.1.of_cellsSameBut hfills₃.2.cellsSameBut (by decide)
        · rw [solveResult_three_of_ok h₁ h₂]
          exact hfills₃.1

end

/-- Settles O53: both runs end with the same results, the single command's under its own opcode. -/
theorem msolveIsTheThreeCommands : Obligations.MsolveIsTheThreeCommands := by
  intro s t n hf hn h
  obtain ⟨u, hu, hfills⟩ := exec_msolve_fills hf hn
  refine ⟨u, hu, ?_⟩
  rcases threeStages_cases hf hn h with ⟨k, hk, hft, hkt, hrspt, hrt⟩ | ⟨W, hW, hwt, hblocks⟩
  · obtain ⟨⟨hfu, hku, hopu, hrspu, hru, -⟩, -⟩ := hfills.of_error hk
    exact ⟨hfu.trans hft.symm, hku.trans hkt.symm, fun r => (hru r).trans (hrt r).symm, hrspu.trans hrspt.symm,
      fun hfalse => absurd (hfalse.symm.trans hft) (by decide), fun _ => hopu⟩
  · have hft := hwt.f_eq.trans hf
    obtain ⟨hct, hrt, ⟨-, hkt, hopt⟩, hrspt, -⟩ := hwt
    obtain ⟨hcu, hru, ⟨hfu, hku, hopu⟩, hrspu, -⟩ := hfills.of_ok hW
    refine ⟨hfu.trans (hf.trans hft.symm), hku.trans hkt.symm, fun r => (hru r).trans (hrt r).symm,
      by rw [hrspu, hrspt, hku, hkt], fun _ => ⟨fun sp a => ?_, hopu.trans hopt.symm⟩,
      fun htrue => absurd (htrue.symm.trans hft) (by decide)⟩
    by_cases hP : BlocksOf (· ≠ 0) n.toNat sp a
    · obtain ⟨b, hb, rfl, ha⟩ := blocksOf_iff.mp hP
      rw [hfills.1 b hb a ha, hblocks b hb a ha]
    · rw [hcu sp a hP, hct sp a hP]

/-! ### What a command leaves and what it reads -/

section
variable {s s₁ s₂ t t₁ t₂ : State} {i : Instr} {op : Byte} {dst : Bank} {n : Nat}

/-- A stage that ended on a locked core left its block unspecified, and the rest as it was. -/
theorem leaves_of_fault {r : Except FaultCode Mat} (e : ∃ t, exec i s = .next t ∧ Fills op dst n r s t)
    (hs : s.f = false) (ht : t.f = true) (h : exec i s = .next t) :
    CellsSameBut (BlocksOf (· = dst) n) s t ∧ Forgotten (BlocksOf (· = dst) n) t ∧ RegsSame s t := by
  obtain ⟨u, hu, hfills⟩ := e
  obtain rfl := Host.Outcome.next.inj (hu.symm.trans h)
  obtain ⟨k, hk⟩ := hfills.2.eq_error hs ht
  obtain ⟨-, hcells, hforgotten⟩ := hfills.of_error hk
  exact ⟨hcells, hforgotten, hfills.2.regsSame⟩

/-- A command of count zero leaves every cell and register. -/
theorem leaves_of_zeroCount (e : ∃ t, exec i s = .next t ∧ RaisesOnly .invalidArgument op s t)
    (h : exec i s = .next t) :
    CellsSame s t ∧ RegsSame s t := by
  obtain ⟨u, hu, ⟨-, -, -, -, hr, -⟩, hcells⟩ := e
  obtain rfl := Host.Outcome.next.inj (hu.symm.trans h)
  exact ⟨hcells, hr⟩

/-- A command that completes does not lock the core. -/
theorem unlocked_of_writesCells {P : Space → Nat → Prop} {Q : State → Prop}
    (e : ∃ t, exec i s = .next t ∧ Q t ∧ WritesCells P s t) (hs : s.f = false) (h : exec i s = .next t) :
    t.f = false := by
  obtain ⟨u, hu, -, hw⟩ := e
  obtain rfl := Host.Outcome.next.inj (hu.symm.trans h)
  exact hw.f_eq.trans hs

/-- Two runs of a command with the same results agree on the fault and on the block. -/
theorem agree_of_results {P₁ P₂ : Space → Nat → Prop} {r r' : Except FaultCode Mat} (hn : n < 256)
    (e₁ : ∃ t, exec i s₁ = .next t ∧ BlockIs dst n r t ∧ Ends P₁ op r' s₁ t)
    (e₂ : ∃ t, exec i s₂ = .next t ∧ BlockIs dst n r t ∧ Ends P₂ op r' s₂ t) (hs₁ : s₁.f = false) (hs₂ : s₂.f = false)
    (h₁ : exec i s₁ = .next t₁) (h₂ : exec i s₂ = .next t₂) :
    t₁.f = t₂.f ∧ (t₁.f = true → t₁.fcode = t₂.fcode) ∧
      ∀ row c, row < n → c ≤ n → t₁.cell? (.mat dst) (matIndex row c) = t₂.cell? (.mat dst) (matIndex row c) := by
  obtain ⟨u₁, hu₁, hblock₁, hends₁⟩ := e₁
  obtain ⟨u₂, hu₂, hblock₂, hends₂⟩ := e₂
  obtain rfl := Host.Outcome.next.inj (hu₁.symm.trans h₁)
  obtain rfl := Host.Outcome.next.inj (hu₂.symm.trans h₂)
  obtain ⟨hf, hk⟩ := hends₁.agree hends₂ hs₁ hs₂
  refine ⟨hf, hk, fun row c hrow hc => ?_⟩
  have hin : inBlock n (matIndex row c) = true := by
    rw [inBlock_matIndex (by omega)]
    simp [hrow, hc]
  rw [hblock₁ _ hin, hblock₂ _ hin]

end

/-- Settles O54: only a result that is a fault locks the core, and then the block of every result that is one is
unspecified. -/
theorem faultedStageLeavesOnlyItsBlock : Obligations.FaultedStageLeavesOnlyItsBlock := by
  intro s t n hf ht
  refine ⟨fun hn => leaves_of_fault (exec_mfwd_fills hf hn) hf ht,
    fun hn => leaves_of_fault (exec_mback_fills hf hn) hf ht,
    fun hn => leaves_of_fault (exec_mnorm_fills hf hn) hf ht, fun hn h => ?msolve, fun h => ?noStage, fun hn h => ?zero⟩
  case msolve =>
    have hM := s.matView_shape 0 n.toNat
    obtain ⟨u, hu, hfills⟩ := exec_msolve_fills hf hn
    obtain rfl := Host.Outcome.next.inj (hu.symm.trans h)
    obtain ⟨k, hk⟩ := hfills.2.eq_error hf ht
    refine ⟨hfills.2.cellsSameBut, hfills.2.regsSame, hfills.forgotten ?_, _, s.matView_readsBlock 0 n.toNat,
      fun ⟨k, h₁⟩ => hfills.forgotten fun b hb => ⟨hb, k, solveResult_of_fwdElim_error h₁ b⟩, fun W h₁ =>
      ⟨hfills.holdsBlock hM hn (by decide) h₁, fun ⟨k, h₂⟩ => hfills.forgotten ?_, fun W' h₂ =>
        hfills.holdsBlock hM hn (by decide) ((solveResult_two_of_ok h₁).trans h₂)⟩⟩
    · rintro b rfl
      exact ⟨by decide, k, hk⟩
    · rintro b rfl
      exact ⟨by decide, k, solveResult_of_backSubst_error h₁ h₂ (.inl rfl)⟩
  case noStage =>
    by_cases hn : n = 0
    · exact ⟨hn, h.elim (leaves_of_zeroCount (zeroCount_raisesOnly hf hn 0x40 _))
        (leaves_of_zeroCount (zeroCount_raisesOnly hf hn 0x45 _))⟩
    · have hbuild : exec (.mbuild n) s = .next t → t.f = false := unlocked_of_writesCells (exec_mbuild_fills hf hn) hf
      have hext : exec (.mext n) s = .next t → t.f = false := unlocked_of_writesCells (exec_mext_copies hf hn) hf
      cases ht.symm.trans (h.elim hbuild hext)
  case zero =>
    rcases h with h | h | h | h
    · exact leaves_of_zeroCount (i := .mfwd n) (zeroCount_raisesOnly hf hn 0x41 _) h
    · exact leaves_of_zeroCount (i := .mback n) (zeroCount_raisesOnly hf hn 0x42 _) h
    · exact leaves_of_zeroCount (i := .mnorm n) (zeroCount_raisesOnly hf hn 0x43 _) h
    · exact leaves_of_zeroCount (i := .msolve n) (zeroCount_raisesOnly hf hn 0x44 _) h

/-- Settles O55: from one input block both runs compute the same results. -/
theorem stagesReadOnlyTheirInputBlock : Obligations.StagesReadOnlyTheirInputBlock := by
  intro s₁ s₂ t₁ t₂ n M i src dst hf₁ hf₂ hn hmem hM₁ hM₂ h₁ h₂
  have hv₁ := hM₁.matView_eq
  have hv₂ := hM₂.matView_eq
  have hsolve : ∀ {b : Bank}, b ≠ 0 → ∀ {s : State}, s.f = false → s.matView 0 n.toNat = M → ∃ t,
      exec (.msolve n) s = .next t ∧ BlockIs b n.toNat (solveResult M n.toNat b) t ∧
        Ends (BlocksOf (· ≠ 0) n.toNat) 0x44 (solveResult M n.toNat 3) s t := fun hb s hf hv =>
    hv ▸ (exec_msolve_fills hf hn).imp fun t h => ⟨h.1, h.2.1 _ hb, h.2.2⟩
  simp only [List.mem_cons, List.not_mem_nil, or_false, Prod.mk.injEq] at hmem
  rcases hmem with ⟨rfl, rfl, rfl⟩ | ⟨rfl, rfl, rfl⟩ | ⟨rfl, rfl, rfl⟩ | ⟨rfl, rfl, rfl⟩ | ⟨rfl, rfl, rfl⟩ |
    ⟨rfl, rfl, rfl⟩
  · exact agree_of_results n.isLt (hv₁ ▸ exec_mfwd_fills hf₁ hn) (hv₂ ▸ exec_mfwd_fills hf₂ hn) hf₁ hf₂ h₁ h₂
  · exact agree_of_results n.isLt (hv₁ ▸ exec_mback_fills hf₁ hn) (hv₂ ▸ exec_mback_fills hf₂ hn) hf₁ hf₂ h₁ h₂
  · exact agree_of_results n.isLt (hv₁ ▸ exec_mnorm_fills hf₁ hn) (hv₂ ▸ exec_mnorm_fills hf₂ hn) hf₁ hf₂ h₁ h₂
  all_goals
    exact agree_of_results n.isLt (hsolve (by decide) hf₁ hv₁) (hsolve (by decide) hf₂ hv₂) hf₁ hf₂ h₁ h₂

end Sys2Proof.Machine
end

section
/-!
PROOFS. The whole solve (R143). A row of the system that MBUILD builds, applied to a vector, is a polynomial with the
vector as its coefficients, at the row's x. So a vector that the left columns kill is a polynomial of degree below `n`
that vanishes at all the points: only the zero polynomial when the x are distinct, and a product of linear factors when
they are not.
-/
namespace Sys2Proof.Machine

open Polynomial

/-! ### Rows of the system as polynomials -/

/-- The components of a vector as coefficients: component `c` stands before x^(n-1-c) (R132, R140). -/
def reversed (n : Nat) (v : Nat → Byte) (k : Nat) : Byte := v (n - 1 - k)

theorem rowTimes_buildRows {px py : Nat → Byte} {n i : Nat} (hi : i < n) (v : Nat → Byte) :
    rowTimes (buildRows px py n) i n v = polyEval (reversed n v) (n - 1) (px i) := by
  obtain ⟨F, _, e, he⟩ := exists_fieldMap
  apply he.injective
  rw [he.map_rowTimes, he.map_polyEval, Nat.sub_add_cancel (by omega), ← Finset.sum_range_reflect]
  refine Finset.sum_congr rfl fun k hk => ?_
  have hk' := Finset.mem_range.mp hk
  rw [entry_buildRows_of_lt hi (by omega), he.map_pow, mul_comm, reversed, show n - 1 - (n - 1 - k) = k by omega]

/-- A vector without a component for the last column is killed when its polynomial vanishes at the points. -/
theorem kills_buildRows_iff {px py : Nat → Byte} {n : Nat} {v : Nat → Byte} (hv : v n = 0) :
    Kills (buildRows px py n) n v ↔ ∀ i, i < n → polyEval (reversed n v) (n - 1) (px i) = 0 := by
  refine forall₂_congr fun i hi => ?_
  rw [rowTimes_succ_of_eq_zero hv, rowTimes_buildRows hi]

/-- A vector solves the system when its polynomial passes through the points. -/
theorem solves_buildRows_iff {px py : Nat → Byte} {n : Nat} {v : Nat → Byte} :
    Solves (buildRows px py n) n v ↔ ∀ i, i < n → polyEval (reversed n v) (n - 1) (px i) = py i := by
  refine forall₂_congr fun i hi => ?_
  rw [rowTimes_buildRows hi, entry_buildRows_last hi]

theorem buildRows_congr {px py px' py' : Nat → Byte} {n : Nat} (hpx : ∀ k < n, px k = px' k)
    (hpy : ∀ k < n, py k = py' k) :
    buildRows px py n = buildRows px' py' n := by
  refine List.map_congr_left fun i hi => ?_
  have hi := List.mem_range.mp hi
  rw [hpx i hi, hpy i hi]

/-- A field of bytes in which every element is a byte. -/
theorem exists_surjective_fieldMap : ∃ (F : Type) (_ : Field F) (e : Byte → F), FieldMap e ∧ Function.Surjective e :=
  ⟨Byte, fieldOfBytes, id, @FieldMap.mk Byte fieldOfBytes id Function.injective_id (fun _ _ => rfl) fun _ _ => rfl,
    Function.surjective_id⟩

section
variable {F : Type} [Field F] {e : Byte → F} {px py : Nat → Byte} {n d : Nat}

theorem coeff_toPolynomial (e : Byte → F) (a : Nat → Byte) {k : Nat} (hk : k ≤ d) :
    (toPolynomial e a d).coeff k = e (a k) := by
  have hk' : k < d + 1 := by omega
  simp [toPolynomial, finsetSum_coeff, coeff_C_mul, coeff_X_pow, hk']

theorem exists_toPolynomial_eq (he : Function.Surjective e) {p : F[X]} (hp : p.natDegree ≤ d) :
    ∃ a, toPolynomial e a d = p := by
  refine ⟨fun k => Function.surjInv he (p.coeff k), ?_⟩
  refine Eq.trans ?_ (p.as_sum_range_C_mul_X_pow' (show p.natDegree < d + 1 by omega)).symm
  simp [toPolynomial, Function.surjInv_eq]

/-- With distinct x a polynomial of degree below `n` that vanishes at the `n` points is zero. -/
theorem not_singular_of_distinct (hd : Distinct px n) : ¬ Singular (buildRows px py n) n := by
  rintro ⟨v, hv, hvn, c, hc, hvc⟩
  obtain ⟨F, _, e, he⟩ := exists_fieldMap
  have hzero : toPolynomial e (reversed n v) (n - 1) = 0 := by
    refine eq_zero_of_degree_lt_of_eval_index_eq_zero _ (he.injective.comp_injOn hd.injOn) ?_ fun i hi => ?_
    · rw [Finset.card_range]
      exact degree_toPolynomial_lt e _ (by omega)
    · rw [Function.comp_apply, ← he.map_polyEval_eq_eval,
        (kills_buildRows_iff hvn).mp hv i (Finset.mem_range.mp hi)]
      exact he.map_zero
  have hcoeff := coeff_toPolynomial e (reversed n v) (show n - 1 - c ≤ n - 1 by omega)
  rw [hzero, coeff_zero, reversed, show n - 1 - (n - 1 - c) = c by omega] at hcoeff
  exact hvc (he.map_eq_zero_iff.mp hcoeff.symm)

/-- When points share an x, the product of `X - x` over the x that occur has degree below `n` and vanishes at all the
points. -/
theorem exists_vanishing_of_not_distinct (e : Byte → F) (hd : ¬ Distinct px n) :
    ∃ p : F[X], p.Monic ∧ p.natDegree < n ∧ ∀ i, i < n → eval (e (px i)) p = 0 := by
  refine ⟨Lagrange.nodal ((Finset.range n).image px) e, Lagrange.nodal_monic, ?_, fun i hi =>
    Lagrange.eval_nodal_at_node (Finset.mem_image_of_mem px (Finset.mem_range.mpr hi))⟩
  rw [Lagrange.natDegree_nodal]
  refine lt_of_le_of_ne (Finset.card_image_le.trans_eq (Finset.card_range n)) fun h => hd fun i j hi hj => ?_
  exact Finset.card_image_iff.mp (h.trans (Finset.card_range n).symm) (by simpa using hi) (by simpa using hj)

/-- The coefficients of such a polynomial, reversed, are a nonzero vector that the system's left columns kill. -/
theorem singular_of_not_distinct (hd : ¬ Distinct px n) : Singular (buildRows px py n) n := by
  obtain ⟨F, _, e, he, hsurj⟩ := exists_surjective_fieldMap
  obtain ⟨p, hmonic, hdeg, hp⟩ := exists_vanishing_of_not_distinct e hd
  obtain ⟨a, ha⟩ := exists_toPolynomial_eq (d := n - 1) hsurj (p := p) (by omega)
  have hback : ∀ k < n - 1 + 1, reversed n (truncated n (reversed n a)) k = a k := fun k hk => by
    rw [reversed, truncated_of_lt (by omega), reversed, show n - 1 - (n - 1 - k) = k by omega]
  refine ⟨truncated n (reversed n a), (kills_buildRows_iff (truncated_of_le le_rfl)).mpr fun i hi => ?vanishes,
    truncated_of_le le_rfl, n - 1 - p.natDegree, by omega, fun hzero => ?nonzero⟩
  case vanishes =>
    refine he.map_eq_zero_iff.mp ?_
    rw [polyEval_congr _ hback, he.map_polyEval_eq_eval, ha, hp i hi]
  case nonzero =>
    have hlead : e (a p.natDegree) = 1 := by
      rw [← coeff_toPolynomial e a (show p.natDegree ≤ n - 1 by omega), ha, hmonic.coeff_natDegree]
    exact one_ne_zero (hlead.symm.trans (he.map_eq_zero_iff.mpr ((hback _ (by omega)).symm.trans hzero)))

end

/-! ### The commands in order -/

/-- MBUILD then MSOLVE on an unlocked core: the stages run on the system of the points that MBUILD read. -/
theorem exists_build_solve {s : State} {n : Byte} (hf : s.f = false) (hn : n ≠ 0) :
    ∃ t u, exec (.mbuild n) s = .next t ∧ exec (.msolve n) t = .next u ∧ t.f = false ∧
      SolveFills n.toNat (buildRows (s.view .px) (s.view .py) n.toNat) t u := by
  obtain ⟨t, ht, hbuild⟩ := exec_mbuild_fills hf hn
  obtain ⟨hholds, hwrites⟩ := hbuild.of_ok rfl (buildRows_shape _ _ _)
  have hft := hwrites.f_eq.trans hf
  obtain ⟨u, hu, hfills⟩ := exec_msolve_fills hft hn
  rw [hholds.matView_eq] at hfills
  exact ⟨t, u, ht, hu, hft, hfills⟩

/-- Settles O58: no nonzero polynomial vanishes at the points, so the stages succeed and their last column solves the
system; reversed, it is the coefficients of the polynomial through the points. -/
theorem solveRebuildsThePolynomial : Obligations.SolveRebuildsThePolynomial := by
  intro s n px py hf hn hpx hpy hd
  have hn1 := one_le_toNat hn
  have hB := buildRows_shape px py n.toNat
  obtain ⟨t, u, ht, hu, hft, hfills⟩ := exists_build_solve hf hn
  rw [buildRows_congr hpx.view_eq hpy.view_eq] at hfills
  rcases solveResult_cases hB hn1 with ⟨hsing, -⟩ | ⟨-, W, hW, hsolves⟩
  · exact absurd hsing (not_singular_of_distinct hd)
  obtain ⟨-, hcells⟩ := hfills.holdsBlock hB hn (by decide) hW
  have hfu := (hfills.of_ok hW).f_eq.trans hft
  obtain ⟨w, hw, hcoef, hwrites⟩ := exec_mext_copies hfu hn
  have hpoints := solves_buildRows_iff.mp hsolves
  refine ⟨w, reversed n.toNat fun i => entry W i n.toNat, ?_, hwrites.f_eq.trans hfu, fun k hk => ?_, hpoints,
    fun x => enginesAgree _ px py _ _ x (by omega) hd fun i hi => (hpoints i hi).symm⟩
  · rw [execAll_cons_of_next _ ht, execAll_cons_of_next _ hu, execAll_cons_of_next _ hw, execAll]
  · rw [hcoef k hk, State.view_of_cell? (hcells _ _ (by omega) le_rfl), reversed]

/-- Settles O59: the product of the linear factors vanishes at the points, so a stage fails. -/
theorem duplicatePointsNeverSolve : Obligations.DuplicatePointsNeverSolve := by
  intro s t n px hf hn hpx hd h
  have hn1 := one_le_toNat hn
  have hB := buildRows_shape px (s.view .py) n.toNat
  obtain ⟨s₁, u, hs₁, hu, -, hfills⟩ := exists_build_solve hf hn
  rw [buildRows_congr hpx.view_eq fun _ _ => rfl] at hfills
  rw [execAll_cons_of_next _ hs₁, execAll_cons_of_next _ hu] at h
  obtain rfl := Host.Outcome.next.inj h
  rcases solveResult_cases hB hn1 with ⟨-, k, hk⟩ | ⟨hreg, -⟩
  · obtain ⟨⟨hfu, hku, -⟩, -⟩ := hfills.of_error hk
    rw [hku]
    exact ⟨hfu, (solveResult_three_eq_error hB hn1 hk).imp (congrArg _) (congrArg _)⟩
  · exact absurd (singular_of_not_distinct hd) hreg

end Sys2Proof.Machine
end

section
/-!
PROOFS. The lock (R164, R165, R168 to R170): what an illegal word does, which words a locked core refuses, and the two
ways a step unlocks it.
-/
namespace Sys2Proof.Machine

/-! ### An accepted word -/

section
variable {s : State} {w : Word}

theorem exists_decode_eq_ok_iff : (∃ i, decode w = .ok i) ↔ LegalWord w := by
  obtain ⟨-, hlegal⟩ := legalWordsAreTheOpcodeMap w
  exact hlegal

theorem decode_ne_ok_of_not_legalWord (hw : ¬ LegalWord w) (i : Instr) : decode w ≠ .ok i := fun hi =>
  hw (exists_decode_eq_ok_iff.mp ⟨i, hi⟩)

/-- A ready core runs the word presented (R51). -/
theorem step_accept {rdy : Bool} {rest : List HostInput} (hrsp : s.rsp = none)
    (hin : s.inputs = .edge (some w) rdy :: rest) : step s = runWord w { s with inputs := rest } :=
  (step_edge hin).trans (stepEdge_accept w rdy hrsp)

/-- A word is a command, run by its meaning, or an illegal word (R67). -/
theorem runWord_cases (w : Word) (s : State) :
    (∃ i, decode w = .ok i ∧ runWord w s = exec i s) ∨
      (¬ LegalWord w ∧ runWord w s = execIllegal (opField w) s) := by
  cases hw : decode w with
  | ok i => exact .inl ⟨i, rfl, runWord_of_decode hw s⟩
  | illegal why =>
    have hnot : ¬ LegalWord w := by simp [← exists_decode_eq_ok_iff, hw]
    exact .inr ⟨hnot, by simp [runWord, hw]⟩

/-- An illegal word raises IllegalCommand with its bits 31:24 on an unlocked core, and does nothing else (R164). -/
theorem runWord_illegal_raisesOnly (hf : s.f = false) (hw : ¬ LegalWord w) :
    ∃ t, runWord w s = .next t ∧ RaisesOnly .illegalCommand (opField w) s t := by
  rcases runWord_cases w s with ⟨i, hi, -⟩ | ⟨-, hs⟩
  · exact absurd hi (decode_ne_ok_of_not_legalWord hw i)
  · rw [hs, execIllegal, ifUnlocked_of_unlocked _ hf]
    exact raise_raisesOnly (opField w) .illegalCommand s

/-- A locked core refuses every word but the two commands of R168, and changes nothing. -/
theorem runWord_refused (hf : s.f = true) (hw : ∀ i, decode w = .ok i → ¬ i.runsLocked) :
    ∃ t, runWord w s = .next t ∧ Refused s t := by
  rcases runWord_cases w s with ⟨i, hi, hs⟩ | ⟨-, hs⟩ <;> rw [hs]
  · exact exec_refused hf (hw i hi)
  · exact ⟨_, ifUnlocked_of_locked _ hf, fun _ => rfl, ⟨rfl, rfl, rfl⟩, fun _ _ => State.answer_cell? .., rfl, rfl⟩

end

/-- Settles O7: the word decodes to no command, so a locked core refuses it with the rest. -/
theorem illegalWordRaisesIllegalCommand : Obligations.IllegalWordRaisesIllegalCommand := by
  intro s w rdy rest hrsp hin hw
  rw [step_accept hrsp hin]
  exact ⟨fun hf => runWord_illegal_raisesOnly hf hw,
    fun hf => runWord_refused hf fun i hi => absurd hi (decode_ne_ok_of_not_legalWord hw i)⟩

/-- Settles O8: of the words the locked core accepts it refuses all but the two commands of R168, and those complete. -/
theorem lockedCoreRefusesAllButCsrrAndClrf : Obligations.LockedCoreRefusesAllButCsrrAndClrf := by
  intro s w rdy rest hf hrsp hin
  rw [step_accept hrsp hin]
  refine ⟨runWord_refused hf, fun i hi hruns => ?_⟩
  obtain ⟨d, u, hexec, -⟩ := exec_runsLocked hruns { s with inputs := rest }
  exact ⟨_, _, (runWord_of_decode hi _).trans (hexec.trans (respond_eq d u)), rfl, rspErr_response ..⟩

/-! ### The fault registers of a locked core -/

section
variable {s t : State}

/-- A word accepted by a locked core leaves the fault registers, or is CLRF and unlocks. -/
theorem runWord_locked_faultRegs {w : Word} (hf : s.f = true) (h : runWord w s = .next t) :
    FaultRegsSame s t ∨ (t.f = false ∧ decode w = .ok .clrf) := by
  rcases runWord_cases w s with ⟨i, hi, hs⟩ | ⟨-, hs⟩ <;> rw [hs] at h
  · rcases exec_faultRegs h with hsame | rfl | ⟨hunlocked, -⟩
    · exact .inl hsame
    · cases h
      exact .inr ⟨rfl, hi⟩
    · cases hf.symm.trans hunlocked
  · cases (ifUnlocked_of_locked _ hf).symm.trans h
    exact .inl ⟨rfl, rfl, rfl⟩

/-- A step of a locked core leaves the fault registers, or unlocks at a reset or at CLRF (R168, R169). -/
theorem step_locked_faultRegs (hf : s.f = true) (h : step s = .next t) :
    FaultRegsSame s t ∨ (t.f = false ∧ ((∃ rest, s.inputs = .reset :: rest) ∨
      ∃ w rdy rest, s.inputs = .edge (some w) rdy :: rest ∧ decode w = .ok .clrf)) := by
  rcases step_cases s with ⟨-, hs⟩ | ⟨rest, hin, hs⟩ | ⟨cmd, rdy, rest, -, -, hs⟩ | ⟨rdy, rest, -, -, hs⟩ |
    ⟨w, rdy, rest, hin, -, hs⟩ <;> rw [hs] at h
  · cases h
    exact .inl ⟨rfl, rfl, rfl⟩
  · cases h
    exact .inr ⟨rfl, .inl ⟨rest, hin⟩⟩
  · cases h
    cases rdy <;> exact .inl ⟨rfl, rfl, rfl⟩
  · cases h
    exact .inl ⟨rfl, rfl, rfl⟩
  · exact (runWord_locked_faultRegs (s := { s with inputs := rest }) hf h).imp_right fun ⟨ht, hclrf⟩ =>
      ⟨ht, .inr ⟨w, rdy, rest, hin, hclrf⟩⟩

end

/-- Settles O9: CLRF only clears the fault registers, reset sets them to zero, and a step that unlocks has changed the
fault registers of a locked core, so it is one of these two. -/
theorem onlyClrfAndResetUnlock : Obligations.OnlyClrfAndResetUnlock := by
  refine ⟨fun s => ⟨_, clearFault_eq s, rfl, rfl, rfl, fun _ => rfl, fun _ _ => by simp⟩, fun s rest hin => ?reset,
    fun s t h hs ht => ?unlocks⟩
  case reset => exact ⟨s.resetBy rest, by simp [step, hin], rfl, rfl, rfl⟩
  case unlocks =>
    rcases step_locked_faultRegs hs h with ⟨hf, -⟩ | ⟨-, hin⟩
    · cases ht.symm.trans (hf.trans hs)
    · exact hin

/-- Settles O10: a step that leaves the core locked is not one of the two that unlock. -/
theorem firstFaultIsKept : Obligations.FirstFaultIsKept := by
  intro s t h hs ht
  rcases step_locked_faultRegs hs h with ⟨-, hsame⟩ | ⟨hunlocked, -⟩
  · exact hsame
  · cases ht.symm.trans hunlocked

end Sys2Proof.Machine
end

section
/-!
PROOFS. The table of faults (R160 to R164): every fault a command raises is one it is named for, said once for all 31
commands.
-/
namespace Sys2Proof.Machine

/-! ### The commands named for a fault -/

/-- Command `i`, run from `s`, is one that the table of R160 names for the fault (R161 to R163). Only an illegal word
raises IllegalCommand. -/
def NamedFor (i : Instr) (s : State) : FaultCode → Prop
  | .divisionByZero =>
    (∃ rd ra rb, i = .fdiv rd ra rb ∧ s.reg rb = 0) ∨ (∃ rd ra n, i = .linterp rd ra n) ∨ (∃ n, i = .mback n) ∨
      (∃ n, i = .mnorm n) ∨ ∃ n, i = .msolve n
  | .singularMatrix => (∃ n, i = .mfwd n) ∨ ∃ n, i = .msolve n
  | .invalidArgument =>
    (∃ rd ra, i = .linterp rd ra 0) ∨ i = .mbuild 0 ∨ i = .mfwd 0 ∨ i = .mback 0 ∨ i = .mnorm 0 ∨ i = .msolve 0 ∨
      i = .mext 0
  | .illegalCommand => False

/-- An outcome of command `i` that, when it locks the unlocked core, latches the command's opcode and a fault the command
is named for. -/
def LatchesNamed (i : Instr) (s : State) (body : Result) : Prop :=
  ∀ t, body = .next t → s.f = false → t.f = true → t.fop = i.opcode ∧ ∃ k, t.fcode = k.code ∧ NamedFor i s k

namespace LatchesNamed

variable {i : Instr} {s u : State} {body : Result}

theorem respond {d : Byte} (hu : u.f = s.f) : LatchesNamed i s (respond d u) := fun t h hs ht => by
  cases h
  cases ht.symm.trans (hu.trans hs)

theorem raise {k : FaultCode} (hk : NamedFor i s k) : LatchesNamed i s (raise i.opcode k u) := fun t h _ _ => by
  cases h
  exact ⟨rfl, k, rfl, hk⟩

theorem ifUnlocked (h : LatchesNamed i s body) : LatchesNamed i s (ifUnlocked s body) := fun t ht hs =>
  h t ((ifUnlocked_of_unlocked body hs).symm.trans ht) hs

theorem ifCount {n : Byte} (hzero : n = 0#8 → NamedFor i s .invalidArgument) (h : n ≠ 0 → LatchesNamed i s body) :
    LatchesNamed i s (ifCount i.opcode n s body) := by
  by_cases hn : n = 0#8
  · rw [hn, ifCount_zero]
    exact .raise (hzero hn)
  · rw [ifCount_pos hn]
    exact h hn

theorem writeBackOrRaise {rd : Reg} {v : Except FaultCode Byte} (hu : u.f = s.f)
    (hv : ∀ k, v = .error k → NamedFor i s k) : LatchesNamed i s (writeBackOrRaise i.opcode rd v u) := by
  cases v with
  | ok v => exact .respond hu
  | error k => exact .raise (hv k rfl)

theorem finish {r : Except FaultCode Mat} (hu : u.f = s.f) (hr : ∀ k, r = .error k → NamedFor i s k) :
    LatchesNamed i s (finish i.opcode r u) := by
  cases r with
  | ok W => exact .respond hu
  | error k => exact .raise (hr k rfl)

theorem runStage {src dst : Bank} {stage : Mat → Except FaultCode Mat} {n : Nat}
    (h : ∀ k, stage (s.matView src n) = .error k → NamedFor i s k) :
    LatchesNamed i s (runStage i.opcode src dst stage n s) := by
  rw [runStage_eq]
  exact .finish (by simp) h

theorem solveStages {n : Nat} (h : ∀ k, solveResult (s.matView 0 n) n 3 = .error k → NamedFor i s k) :
    LatchesNamed i s (solveStages i.opcode n s) := by
  rw [solveStages_eq]
  exact .finish (by simp) h

end LatchesNamed

/-! ### The faults of the engines -/

/-- Division has one fault, and that for a zero divisor only (R161). -/
theorem gfDiv_eq_error {x y : Byte} {k : FaultCode} (h : gfDiv x y = .error k) : y = 0 ∧ k = .divisionByZero := by
  by_cases hy : y = 0#8
  · rw [hy, gfDiv_zero] at h
    exact ⟨hy, (Except.error.inj h).symm⟩
  · obtain ⟨q, hq, -⟩ := exists_gfDiv_eq_ok x hy
    cases h.symm.trans hq

theorem lagrange_error_eq {px py : Nat → Byte} {n : Nat} {x : Byte} {k : FaultCode}
    (h : lagrange px py n x = .error k) : k = .divisionByZero := by
  by_cases hd : Distinct px n
  · obtain ⟨v, hv⟩ := exists_lagrange_eq_ok hd py x
    cases h.symm.trans hv
  · exact Except.error.inj (h.symm.trans (lagrange_eq_error hd py x))

/-! ### Every command -/

/-- The faults of the commands are those of their counts and engines. For a CSRR that is no command (R67) this fails: it
raises IllegalCommand. -/
theorem exec_latchesNamed {i : Instr} (hwf : i.wf = true) (s : State) : LatchesNamed i s (exec i s) := by
  cases i with
  | csrr csr =>
    obtain ⟨v, hv⟩ := execCsrr_of_le (of_decide_eq_true hwf) s
    rw [exec, hv]
    exact .respond rfl
  | clrf =>
    intro t h _ ht
    cases h
    cases ht
  | nop | rdr | ldi | mov | fadd | fsub | fmul | fexp | flog | ldc | ldx | ldy | ldm | peval =>
    exact .ifUnlocked (.respond rfl)
  | stc | stci | stx | stxi | sty | styi | stm => exact .ifUnlocked (.respond rfl)
  | fdiv rd ra rb =>
    refine .ifUnlocked (.writeBackOrRaise rfl fun k hk => ?_)
    obtain ⟨hrb, rfl⟩ := gfDiv_eq_error hk
    exact .inl ⟨rd, ra, rb, rfl, hrb⟩
  | linterp rd ra n =>
    refine .ifUnlocked (.ifCount (fun hn => by simp [NamedFor, hn]) fun _ => .writeBackOrRaise rfl fun k hk => ?_)
    obtain rfl := lagrange_error_eq hk
    exact .inr (.inl ⟨rd, ra, n, rfl⟩)
  | mbuild | mext => exact .ifUnlocked (.ifCount (fun hn => by simp [NamedFor, hn]) fun _ => .respond rfl)
  | mfwd n =>
    refine .ifUnlocked (.ifCount (fun hn => by simp [NamedFor, hn]) fun _ => .runStage fun k hk => ?_)
    obtain rfl := fwdElim_eq_error (s.matView_shape 0 n.toNat) hk
    exact .inl ⟨n, rfl⟩
  | mback n =>
    refine .ifUnlocked (.ifCount (fun hn => by simp [NamedFor, hn]) fun hn => .runStage fun k hk => ?_)
    obtain rfl := backSubst_eq_error (s.matView_shape 1 n.toNat) (one_le_toNat hn) hk
    exact .inr (.inr (.inl ⟨n, rfl⟩))
  | mnorm n =>
    refine .ifUnlocked (.ifCount (fun hn => by simp [NamedFor, hn]) fun _ => .runStage fun k hk => ?_)
    obtain rfl := normalize_eq_error (s.matView_shape 2 n.toNat) hk
    exact .inr (.inr (.inr (.inl ⟨n, rfl⟩)))
  | msolve n =>
    refine .ifUnlocked (.ifCount (fun hn => by simp [NamedFor, hn]) fun hn => .solveStages fun k hk => ?_)
    rcases solveResult_three_eq_error (s.matView_shape 0 n.toNat) (one_le_toNat hn) hk with rfl | rfl
    · exact .inr ⟨n, rfl⟩
    · exact .inr (.inr (.inr (.inr ⟨n, rfl⟩)))

/-- Settles O57: an illegal word latches code 4 with its bits 31:24; a command latches its opcode, which is those bits of
its word, with a fault it is named for. -/
theorem onlyTheNamedCommandsFault : Obligations.OnlyTheNamedCommandsFault := by
  intro w s t h hs ht
  rcases runWord_cases w s with ⟨i, hi, hexec⟩ | ⟨hw, hillegal⟩
  · obtain ⟨hwf, hencode⟩ := decode_sound hi
    obtain ⟨hop, k, hcode, hnamed⟩ := exec_latchesNamed hwf s t (hexec.symm.trans h) hs ht
    refine ⟨by rw [hop, ← hencode, opField_encode], .inr ⟨i, hi, ?_⟩⟩
    cases k with
    | divisionByZero => exact .inl ⟨hcode, hnamed⟩
    | singularMatrix => exact .inr (.inl ⟨hcode, hnamed⟩)
    | invalidArgument => exact .inr (.inr ⟨hcode, hnamed⟩)
    | illegalCommand => exact hnamed.elim
  · cases (ifUnlocked_of_unlocked _ hs).symm.trans (hillegal.symm.trans h)
    exact ⟨rfl, .inl ⟨rfl, hw⟩⟩

/-! ### A count of zero -/

/-- Settles O56: the count is tested before anything is read; PEVAL has no count to test; and of the four codes that a
word can latch, code 3 is the one of the seven commands. -/
theorem zeroCountRaisesInvalidArgument : Obligations.ZeroCountRaisesInvalidArgument := by
  refine ⟨fun s hf => ⟨fun rd ra => exec_linterp_zero hf rd ra, zeroCount_raisesOnly hf rfl 0x40 _,
    zeroCount_raisesOnly hf rfl 0x41 _, zeroCount_raisesOnly hf rfl 0x42 _, zeroCount_raisesOnly hf rfl 0x43 _,
    zeroCount_raisesOnly hf rfl 0x44 _, zeroCount_raisesOnly hf rfl 0x45 _, fun rd ra => ?peval⟩,
    fun w s t h hs ht hcode => ?onlyThese⟩
  case peval => exact ⟨_, ifUnlocked_of_unlocked _ hf, hf⟩
  case onlyThese =>
    obtain ⟨-, ⟨h4, -⟩ | ⟨i, hi, ⟨h1, -⟩ | ⟨h2, -⟩ | ⟨-, hnamed⟩⟩⟩ := onlyTheNamedCommandsFault w s t h hs ht
    · cases hcode.symm.trans h4
    · cases hcode.symm.trans h1
    · cases hcode.symm.trans h2
    · exact ⟨i, hi, hnamed⟩

end Sys2Proof.Machine
end

section
/-!
PROOFS. Totality (R192, 93_implementation_defined.md): nothing the core can be given stops it.
-/
namespace Sys2Proof.Machine

/-- Each of the four ways in which a command answers is a next state. -/
theorem Answers.exists_next {i : Instr} {s : State} {body : Result} (h : Answers i s body) : ∃ t, body = .next t := by
  cases h with
  | refused | completed | raised | cleared => exact ⟨_, rfl⟩

theorem exec_exists_next (i : Instr) (s : State) : ∃ t, exec i s = .next t := (exec_answers i s).exists_next

/-- An illegal word is refused by the lock (R168) or raises IllegalCommand (R164). -/
theorem execIllegal_exists_next (op : Byte) (s : State) : ∃ t, execIllegal op s = .next t := by
  cases hf : s.f with
  | true => exact ⟨_, ifUnlocked_of_locked _ hf⟩
  | false => exact ⟨_, ifUnlocked_of_unlocked _ hf⟩

theorem runWord_exists_next (w : Word) (s : State) : ∃ t, runWord w s = .next t := by
  rcases runWord_cases w s with ⟨i, -, hs⟩ | ⟨-, hs⟩ <;> rw [hs]
  · exact exec_exists_next i s
  · exact execIllegal_exists_next (opField w) s

/-- Settles O11: of the events at the ports only the acceptance of a word does more than name its next state, and the word
is a command or illegal. -/
theorem stepAlwaysAnswers : Obligations.StepAlwaysAnswers := by
  refine ⟨fun s => ?_, exec_exists_next⟩
  rcases step_cases s with ⟨-, hs⟩ | ⟨_, -, hs⟩ | ⟨_, _, _, -, -, hs⟩ | ⟨_, _, -, -, hs⟩ | ⟨w, _, rest, -, -, hs⟩
  case inr.inr.inr.inr =>
    rw [hs]
    exact runWord_exists_next w { s with inputs := rest }
  all_goals exact ⟨_, hs⟩

end Sys2Proof.Machine
end
